-- ==== Sys2Proof/Word.lean ====
section
/-! DEFINITION. The word types of the core: a byte, and the 32-bit value of registers, lengths and positions
(00_scope.md R9, ADDR_W = 32; R12, every value is unsigned). -/

namespace Sys2Proof

/-- An 8-bit byte (00_scope.md R12). -/
abbrev Byte := BitVec 8

/-- An `ADDR_W`-bit unsigned value (00_scope.md R9: `ADDR_W` is 32). -/
abbrev Word := BitVec 32

end Sys2Proof
end

