-- ==== Sys2Proof/Config.lean ====
section
/-! DEFINITION. What is fixed for the hardware (the constants of 00_scope.md R6 to R8), what the platform fixes
(00_scope.md R9: a record that State carries, so that a claim holds for every platform), and the free values:
opaque constants with no body, for everything the spec answers with `draw()` (R13). -/

namespace Sys2Proof

namespace Config

/-- The LZSS back window `W` (00_scope.md R6). -/
def backWindow : Nat := 4095

/-- The LZSS lookahead window `F` (00_scope.md R6). -/
def lookahead : Nat := 15

/-- The minimum profitable match length `M` (00_scope.md R6). -/
def minMatch : Nat := 3

/-- Tokens in one flag group, `GROUP` (00_scope.md R7). -/
def groupSize : Nat := 8

/-- The maximum RLE run and literal span, `RMAX` (00_scope.md R8). -/
def runMax : Nat := 127

/-- The minimum run emitted as a run packet, `RMIN` (00_scope.md R8). -/
def runMin : Nat := 3

/-- The two kinds of request on the sink's write port (43_sink.md R260). -/
inductive SinkKind where
  | append
  | patch
  deriving DecidableEq, Repr

/-- A range of positions or addresses, `lo` included and `hi` excluded. -/
structure Span where
  lo : Nat
  hi : Nat
  deriving DecidableEq, Repr

/-- Two spans share at least one element. -/
def Span.overlaps (p q : Span) : Bool :=
  p.lo < p.hi && q.lo < q.hi && p.lo < q.hi && q.lo < p.hi

/-- `x` lies in the span. -/
def Span.holds (p : Span) (x : Nat) : Bool :=
  p.lo ≤ x && x < p.hi

/-- `q` lies wholly in `p`. -/
def Span.covers (p q : Span) : Bool :=
  p.lo ≤ q.lo && q.hi ≤ p.hi

/-- The open parameters of the platform (00_scope.md R9, 20_memory.md R79; log 2 and log 16).
`inSize` and `sinkCapacity` are words, so each is at most `2^32 - 1` as R9 asks. -/
structure Platform where
  /-- `IN_SIZE` (R9). -/
  inSize : Word
  /-- `SINK_CAPACITY` (R9). -/
  sinkCapacity : Word
  /-- Where the platform places `IN[0]` (`PLATFORM_MAP`, R79). -/
  inBase : Nat
  /-- Where the platform places `OUT[0]` (`PLATFORM_MAP`, R79). -/
  outBase : Nat
  /-- `INSTANCES`, how many copies of the core the system has, this one among them (R9); each is specified alone. -/
  instances : Nat
  deriving DecidableEq, Repr

/-- The parameters are legal: `INSTANCES` is at least 1 (R9). The bounds of the sizes are in their types. -/
def Platform.legal (p : Platform) : Bool := 1 ≤ p.instances

/-- FREE VALUE. The content of a byte that nothing has written since epoch `epoch` (10_state.md R48, R49: unspecified
after power-up; 60_exceptions.md R289 and 70_reset_and_hazards.md R310: `draw()` after a failure or an abandoned
command). Log 5 and log 6. -/
opaque freeByte (epoch address : Nat) : Byte

/-- FREE VALUE. What a register read answers where the spec says `draw()` (10_state.md R40, 40_commands.md R147).
Log 7. -/
opaque freeWord (draw : Nat) : Word

/-- FREE VALUE. Internal element number `element`, `w` bits wide, after a reset input
(70_reset_and_hazards.md R311: unspecified). Log 4. -/
opaque freeElement (draw element w : Nat) : BitVec w

/-- FREE VALUE. `sinkFail(kind, p)`, the platform's refusal of one sink write (43_sink.md R264), where `replies` has
not settled it. Log 8. -/
opaque sinkFail (draw : Nat) (kind : SinkKind) (p : Nat) : Bool

end Config

end Sys2Proof
end

