-- ==== Sys2Proof/Syntax.lean ====
section
/-! DEFINITION. The instructions: one constructor per row of spec/opcode_table.json. 00_scope.md R3 says what they are:
the host's command words, and the engine operations that emit one item of an output stream. -/

namespace Sys2Proof

/-- One row of the opcode table each. The first six are command words, written by the host to `CTRL`
(30_encoding.md R101 to R103); the last five are the items of the two output streams, each emitted by the engine
operation its row names (41_lzss.md R178, R179, R182; 42_rle.md R224, R226). -/
inductive Instr where
  /-- `ENCODE_LZSS`, 0x00000001 (40_commands.md R142). -/
  | encodeLzss
  /-- `ENCODE_RLE`, 0x00000003 (R143). -/
  | encodeRle
  /-- `RESERVED_OP2`, 0x00000005 (R144). -/
  | reservedOp2
  /-- `RESERVED_OP3`, 0x00000007 (R145). -/
  | reservedOp3
  /-- `ILLEGAL_RES`: `START = 1` with `RES` not 0 (30_encoding.md R103). -/
  | illegalRes (res : BitVec 29) (op : BitVec 2)
  /-- `NO_COMMAND`: `START = 0` (40_commands.md R140). -/
  | noCommand (res : BitVec 29) (op : BitVec 2)
  /-- `LZ_FLAG`: the flag byte that the group commit patches into the placeholder (30_encoding.md R105, R182). -/
  | lzFlag (flags : Byte)
  /-- `LZ_LIT`: one literal token (R106, R178). -/
  | lzLit (v : Byte)
  /-- `LZ_MATCH`: one match token (R107, R179). -/
  | lzMatch (dist : BitVec 12) (len : BitVec 4)
  /-- `RL_RUN`: one run packet (R110, R224). -/
  | rlRun (r : BitVec 7) (v : Byte)
  /-- `RL_LIT`: one literal packet; `L` is the number of bytes (R111, R226). -/
  | rlLit (bytes : List Byte)
  deriving DecidableEq, Repr

end Sys2Proof
end

