-- ==== Sys2Proof/WellFormed.lean ====
section
/-! DEFINITION. Which operand values an instruction may carry: those the spec says the block can meet or produce
(30_encoding.md R103, R107, R110, R111, R113). -/

namespace Sys2Proof

/-- The operand checks. A command word with `RES` zero is another row's word, not `ILLEGAL_RES`'s (R103); a match has
`dist` in 1..4095 and `len` in 3..15 (R107); a run has `r` in 3..127 (R110); a literal packet has 1 to 127 bytes
(R111). The other rows admit every operand value. -/
def Instr.wellFormed : Instr → Bool
  | .encodeLzss => true
  | .encodeRle => true
  | .reservedOp2 => true
  | .reservedOp3 => true
  | .illegalRes res _ => res != 0
  | .noCommand _ _ => true
  | .lzFlag _ => true
  | .lzLit _ => true
  | .lzMatch dist len => 1 ≤ dist.toNat && Config.minMatch ≤ len.toNat
  | .rlRun r _ => Config.runMin ≤ r.toNat
  | .rlLit bytes => 1 ≤ bytes.length && bytes.length ≤ Config.runMax

end Sys2Proof
end

