-- ==== Sys2Proof/Decode.lean ====
section
/-! DEFINITION. The decoder and the encoder. A command word is one 32-bit value (30_encoding.md R101; its byte order is
never visible, 20_memory.md R75); the stream items are bytes. What a stream byte is depends on what stands before it
(30_encoding.md R112), so the decoder is told what it expects. -/

namespace Sys2Proof

/-- What an encoding is made of: a word written to `CTRL`, or bytes of a stream (30_encoding.md R100). -/
inductive Code where
  | word (w : Word)
  | bytes (bs : List Byte)
  deriving DecidableEq, Repr

/-- What the decoder stands before (30_encoding.md R112): a command word; a group's flag byte; a token whose flag bit
is given; an RLE control byte. -/
inductive Expect where
  | command
  | flagByte
  | token (flagBit : Bool)
  | packet
  deriving DecidableEq, Repr

/-- Why the decoder refuses. The `neverProduced` names are the encodings of 30_encoding.md R113, whose meaning to a
consumer is outside the spec (93_implementation_defined.md E5). -/
inductive DecodeError where
  /-- Bytes where a command word is expected, or a word where a stream is. -/
  | wrongKind
  /-- The bytes end inside an item. -/
  | truncated
  /-- `LZ_MATCH` with `len` in 0..2. -/
  | neverProducedMatchLength
  /-- `LZ_MATCH` with `dist = 0`. -/
  | neverProducedMatchDistance
  /-- Control byte 0x80, 0x81 or 0x82. -/
  | neverProducedRun
  /-- Control byte 0x00. -/
  | neverProducedEmptyLiteral
  deriving DecidableEq, Repr

/-- Bit 0 of a command word (30_encoding.md R101). -/
def cmdStart (w : Word) : Bool := w.getLsbD 0

/-- Bits 2:1 of a command word (R101). -/
def cmdOp (w : Word) : BitVec 2 := w.extractLsb' 1 2

/-- Bits 31:3 of a command word (R101). -/
def cmdRes (w : Word) : BitVec 29 := w.extractLsb' 3 29

/-- The command word of the three fields (R101). -/
def cmdWord (res : BitVec 29) (op : BitVec 2) (start : BitVec 1) : Word :=
  res ++ op ++ start

/-- The command decoder: all `2^32` words are classified (30_encoding.md R102, R103, R114). -/
def decodeCmd (w : Word) : Instr :=
  if !cmdStart w then .noCommand (cmdRes w) (cmdOp w)
  else if cmdRes w != 0 then .illegalRes (cmdRes w) (cmdOp w)
  else if cmdOp w = 0b00#2 then .encodeLzss
  else if cmdOp w = 0b01#2 then .encodeRle
  else if cmdOp w = 0b10#2 then .reservedOp2
  else .reservedOp3

/-- `dist` of a match token's two bytes: `{byte1, byte0[7:4]}` (30_encoding.md R108; 90_conflicts.md C6). -/
def matchDist (byte0 byte1 : Byte) : BitVec 12 := byte1 ++ byte0.extractLsb' 4 4

/-- `len` of a match token's first byte: `byte0[3:0]` (R108). -/
def matchLen (byte0 : Byte) : BitVec 4 := byte0.extractLsb' 0 4

/-- The first byte of a match token: `{dist[3:0], len[3:0]}` (R107, R108). -/
def matchByte0 (dist : BitVec 12) (len : BitVec 4) : Byte := dist.extractLsb' 0 4 ++ len

/-- The second byte of a match token: `dist[11:4]` (R107, R108). -/
def matchByte1 (dist : BitVec 12) : Byte := dist.extractLsb' 4 8

/-- The control byte of a run packet: `0x80 | r` (30_encoding.md R110). -/
def runControl (r : BitVec 7) : Byte := 1#1 ++ r

/-- The control byte of a literal packet: bit 7 clear over `L` (30_encoding.md R111). -/
def literalControl (l : BitVec 7) : Byte := 0#1 ++ l

/-- The literal packet decoder, after its control byte `c` (R111). -/
def decodeLiteral (c : Byte) (rest : List Byte) : Except DecodeError (Instr × List Byte) :=
  if c.toNat = 0 then .error .neverProducedEmptyLiteral
  else if rest.length < c.toNat then .error .truncated
  else .ok (.rlLit (rest.take c.toNat), rest.drop c.toNat)

/-- The run packet decoder, after its control byte `c` (R110: `r = C & 0x7F`). -/
def decodeRun (c : Byte) : List Byte → Except DecodeError (Instr × List Byte)
  | [] => .error .truncated
  | v :: rest =>
    if (c.extractLsb' 0 7).toNat < Config.runMin then .error .neverProducedRun
    else .ok (.rlRun (c.extractLsb' 0 7) v, rest)

/-- The match token decoder (R107, R108). -/
def decodeMatch : List Byte → Except DecodeError (Instr × List Byte)
  | byte0 :: byte1 :: rest =>
    if (matchLen byte0).toNat < Config.minMatch then .error .neverProducedMatchLength
    else if (matchDist byte0 byte1).toNat = 0 then .error .neverProducedMatchDistance
    else .ok (.lzMatch (matchDist byte0 byte1) (matchLen byte0), rest)
  | _ => .error .truncated

/-- The stream decoder: the item that stands first, and the bytes after it (30_encoding.md R105 to R112). -/
def decodeStream : Expect → List Byte → Except DecodeError (Instr × List Byte)
  | .command, _ => .error .wrongKind
  | .flagByte, f :: rest => .ok (.lzFlag f, rest)
  | .flagByte, [] => .error .truncated
  | .token true, v :: rest => .ok (.lzLit v, rest)
  | .token true, [] => .error .truncated
  | .token false, bs => decodeMatch bs
  | .packet, [] => .error .truncated
  | .packet, c :: rest => if c.getLsbD 7 then decodeRun c rest else decodeLiteral c rest

/-- The decoder: the item that stands first, and the bytes after it. -/
def decode : Expect → Code → Except DecodeError (Instr × List Byte)
  | .command, .word w => .ok (decodeCmd w, [])
  | _, .word _ => .error .wrongKind
  | e, .bytes bs => decodeStream e bs

/-- The encoder (30_encoding.md R101 to R111). -/
def encode : Instr → Code
  | .encodeLzss => .word (cmdWord 0 0b00#2 1)
  | .encodeRle => .word (cmdWord 0 0b01#2 1)
  | .reservedOp2 => .word (cmdWord 0 0b10#2 1)
  | .reservedOp3 => .word (cmdWord 0 0b11#2 1)
  | .illegalRes res op => .word (cmdWord res op 1)
  | .noCommand res op => .word (cmdWord res op 0)
  | .lzFlag f => .bytes [f]
  | .lzLit v => .bytes [v]
  | .lzMatch dist len => .bytes [matchByte0 dist len, matchByte1 dist]
  | .rlRun r v => .bytes [runControl r, v]
  | .rlLit bs => .bytes (literalControl (BitVec.ofNat 7 bs.length) :: bs)

/-- The bytes of an item of a stream; a command word is no bytes of one. -/
def encodeBytes (i : Instr) : List Byte :=
  match encode i with
  | .word _ => []
  | .bytes bs => bs

/-- What the decoder must expect to read `i` (R112). -/
def expectOf : Instr → Expect
  | .encodeLzss => .command
  | .encodeRle => .command
  | .reservedOp2 => .command
  | .reservedOp3 => .command
  | .illegalRes _ _ => .command
  | .noCommand _ _ => .command
  | .lzFlag _ => .flagByte
  | .lzLit _ => .token true
  | .lzMatch _ _ => .token false
  | .rlRun _ _ => .packet
  | .rlLit _ => .packet

/-- A code with more stream bytes after it; a command word stands alone. -/
def Code.andThen : Code → List Byte → Code
  | .word w, _ => .word w
  | .bytes bs, rest => .bytes (bs ++ rest)

/-- The bytes a code leaves to be read after it: none after a command word. -/
def Code.left : Code → List Byte → List Byte
  | .word _, _ => []
  | .bytes _, rest => rest

/-- The instruction of a decoder's answer. -/
def decodedInstr : Except DecodeError (Instr × List Byte) → Option Instr
  | .ok (i, _) => some i
  | .error _ => none

/-- Longest item of a stream after its first byte: the 127 bytes of a literal packet (R111). -/
def zeroTail : List Byte := List.replicate Config.runMax 0

/-- The instruction read from a word of the opcode table's numbering. 32 bits are a command word. 16 bits are a match
token, its low byte first. 8 bits are read as an RLE control byte: a flag byte and a literal token are told apart only
by what stands before them (R106, R112), which a bare table word does not say (log 12). -/
def decodeTableWord (nbits w : Nat) : Option Instr :=
  if nbits = 32 then decodedInstr (decode .command (.word (BitVec.ofNat 32 w)))
  else if nbits = 16 then
    decodedInstr (decode (.token false) (.bytes [BitVec.ofNat 8 w, BitVec.ofNat 8 (w / 256)]))
  else if nbits = 8 then decodedInstr (decode .packet (.bytes (BitVec.ofNat 8 w :: zeroTail)))
  else none

end Sys2Proof
end

