-- ==== Sys2Proof/Machine/State.lean ====
section
/-! DEFINITION. The state of one core (10_state.md R30 to R49), the inputs it has still to meet, the two reasons a
step can stop, and the state after reset (70_reset_and_hazards.md R310). -/

namespace Sys2Proof.Machine

open Sys2Proof

/-- The error causes of 60_exceptions.md R280; codes 4 to 15 are never produced. -/
inductive Cause where
  | none
  | sinkWriteFailure
  | illegalCommand
  | lengthError
  deriving DecidableEq, Repr

/-- The fields of `STATUS` (10_state.md R35). -/
structure Status where
  busy : Bool
  done : Bool
  err : Bool
  cause : Cause
  deriving DecidableEq, Repr

/-- The command latch (10_state.md R41): `CMD.op`, `CMD.N`, `CMD.A0`, `CNT`. -/
structure CmdLatch where
  op : BitVec 2
  n : Word
  a0 : Word
  cnt : Word
  deriving DecidableEq, Repr

/-- The LZSS datapath registers (10_state.md R43 to R45). -/
structure LzRegs where
  /-- `LZ.i`, the scan position. -/
  i : Word
  /-- `LZ.max`, the longest match that still fits. -/
  max : BitVec 4
  /-- `LZ.s`, the current candidate. -/
  s : Word
  /-- `LZ.j`, the common length of the current candidate. -/
  j : BitVec 4
  bestLen : BitVec 4
  bestStart : Word
  dist : BitVec 12
  stride : BitVec 4
  /-- `LZ.flags`, the flag-byte accumulator (R44). -/
  flags : Byte
  /-- `LZ.tok`, the index of the next token in its group (R44). -/
  tok : BitVec 4
  /-- `LZ.P`, the write-position cache (R45). -/
  p : Word
  deriving DecidableEq, Repr

/-- The RLE datapath registers (10_state.md R47). -/
structure RlRegs where
  /-- `RL.i`, the scan position. -/
  i : Word
  /-- `RL.r`, the run length. -/
  r : BitVec 7
  /-- `RL.e`, the end of the literal span. -/
  e : Word
  /-- `RL.L`, the literal span's length. -/
  l : BitVec 7
  deriving DecidableEq, Repr

/-- The six registers by name (10_state.md R33). -/
inductive Reg where
  | ctrl
  | status
  | len
  | a
  | result
  | errpos
  deriving DecidableEq, Repr

/-- The two byte spaces (20_memory.md R70). -/
inductive Space where
  | input
  | output
  deriving DecidableEq, Repr

/-- The width of a register access (20_memory.md R75). -/
inductive AccessSize where
  | byte
  | half
  | word
  deriving DecidableEq, Repr

/-- One host transaction (30_encoding.md R115). `fill .output` and `dump .input` are the host's other accesses to the
byte spaces (20_memory.md R78, 70_reset_and_hazards.md R316; log 14). -/
inductive Transaction where
  /-- `WR reg, value`. -/
  | wr (offset : BitVec 8) (size : AccessSize) (value : Word)
  /-- `RD reg`. -/
  | rd (offset : BitVec 8) (size : AccessSize)
  /-- `FILL space, k, bytes`. -/
  | fill (space : Space) (k : Nat) (bytes : List Byte)
  /-- `DUMP space, k, n`. -/
  | dump (space : Space) (k n : Nat)
  /-- `WAIT`: poll `STATUS` until `BUSY = 0`. -/
  | wait
  deriving DecidableEq, Repr

/-- What another instance does that this one can meet (20_memory.md R87, 70_reset_and_hazards.md R318; log 17). The
other instances are numbered from 1 by the model; no instance has an identifier register (60_exceptions.md R295). -/
inductive OtherEvent where
  /-- It starts a command whose sink range is `range`, in positions of this `OUT`. -/
  | start (number : Nat) (range : Config.Span)
  /-- Its running command works: it may write any byte of its range. -/
  | turn (number : Nat)
  /-- Its command has ended. -/
  | stop (number : Nat)
  deriving DecidableEq, Repr

/-- A running command of another instance, with the sink range it holds. -/
structure Other where
  number : Nat
  range : Config.Span
  deriving DecidableEq, Repr

/-- One thing that moves the machine: a host transaction, an engine turn, a reset input, an event of another instance
(log 1). -/
inductive Input where
  | host (t : Transaction)
  | engine
  | reset
  | other (e : OtherEvent)
  deriving DecidableEq, Repr

/-- What a host read returned (30_encoding.md R115). -/
inductive Observation where
  | reg (r : Reg) (value : Word)
  | bytes (space : Space) (k : Nat) (bs : List Byte)
  deriving DecidableEq, Repr

/-- Byte cells by platform address: strictly rising addresses. An address that is not listed has no byte here; what it
reads as is the free content of its epoch (log 5). -/
abbrev Memory := List Host.Cell

/-- A range of addresses whose unlisted bytes were made unspecified by the draw numbered `epoch`
(60_exceptions.md R289, 70_reset_and_hazards.md R310; log 6). -/
structure Lost where
  span : Config.Span
  epoch : Nat
  deriving DecidableEq, Repr

/-- The whole state of one instance. -/
structure State where
  /-- `CTRL.OP` (10_state.md R34); `START` and `RES` are not stored. -/
  ctrlOp : BitVec 2
  /-- `STATUS` (R35). -/
  status : Status
  /-- `LEN` (R36). -/
  len : Word
  /-- `A`, the append pointer (R37). -/
  a : Word
  /-- `RESULT` (R38). -/
  result : Word
  /-- `ERRPOS` (R39). -/
  errpos : Word
  /-- The command latch (R41). -/
  cmd : CmdLatch
  /-- The LZSS datapath (R43 to R45). -/
  lz : LzRegs
  /-- The RLE datapath (R47). -/
  rl : RlRegs
  /-- The bytes of `IN` and `OUT` (R48, R49) by platform address (20_memory.md R79). -/
  mem : Memory
  /-- MODEL'S OWN. Ranges with unspecified bytes, newest first (log 6). -/
  lost : List Lost
  /-- MODEL'S OWN. `RESULT` reads as `draw()` since a sink failure (40_commands.md R147). -/
  resultOpen : Bool
  /-- The platform's parameters (00_scope.md R9; log 2). -/
  plat : Config.Platform
  /-- The commands of other instances that run now, each with its sink range (20_memory.md R87; log 17). -/
  others : List Other
  /-- MODEL'S OWN. The sink's answers that are already settled, `true` a refusal (43_sink.md R264; log 8). -/
  replies : List Bool
  /-- MODEL'S OWN. How many free values have been drawn (00_scope.md R13; log 7). -/
  draws : Nat
  /-- MODEL'S OWN. What the machine has still to meet, in order (log 1). -/
  inputs : List Input
  /-- MODEL'S OWN. What host reads returned, oldest first (30_encoding.md R115; log 1). -/
  obs : List Observation
  deriving DecidableEq, Repr

/-- A step stops with a fault. Every one is safe: the model stops where the spec gives no effect. -/
inductive Fault where
  /-- Raised by the sink's patch at `p >= A` (43_sink.md R262; 93_implementation_defined.md P1: "fault"). Safe; no
  step from a state of the invariant reaches it. -/
  | patchNotBelowEnd
  /-- Raised by a host access to a byte outside `IN` or `OUT` (20_memory.md R70; log 13). Safe. -/
  | noSuchByte (space : Space)
  deriving DecidableEq, Repr

/-- A step is refused: the spec gives the host program or the platform no meaning (93_implementation_defined.md F1 to
F7). Every one is safe. -/
inductive Refusal where
  /-- An instruction with no meaning in this model yet. -/
  | notModelled (mnemonic : String)
  /-- F1: a write to `CTRL`, `LEN` or `A` while busy (40_commands.md R149, 70_reset_and_hazards.md R317); a start at
  another instance that is busy. -/
  | registerWriteWhileBusy
  /-- F2: an access to a reserved offset (10_state.md R40). -/
  | reservedOffset
  /-- F3: a sub-word or misaligned register access (20_memory.md R75). -/
  | badRegisterAccess
  /-- F4: a host write to the input bytes of the running command (70_reset_and_hazards.md R315). -/
  | inputHeld
  /-- F5: a host access to the output range of the running command (R316). -/
  | outputNotFinal
  /-- F6: a start, here or at another instance, whose sink range a running instance holds (20_memory.md R87, R318). -/
  | sharedSink
  /-- F7: a start whose input and output overlap in the platform's memory (R319); a start, here or at another instance,
  after which the other's sink range would cover the input of the command that runs here (log 26). -/
  | overlappingSpaces
  /-- A start at an instance that the system does not have (00_scope.md R9; log 17). -/
  | noSuchInstance
  deriving DecidableEq, Repr

/-- `STATUS` after reset: idle, no command run yet (10_state.md R35). -/
def Status.idle : Status := { busy := false, done := false, err := false, cause := .none }

/-- Where `OUT` stands after reset: past the largest `IN` (log 2). -/
def outBaseAtReset : Nat := 0x100000000

/-- The platform of the reset state: the largest spaces R9 allows, placed apart, and this one
instance (DESIGN CHOICE, log 2). -/
def platformAtReset : Config.Platform :=
  { inSize := 0xFFFFFFFF#32, sinkCapacity := 0xFFFFFFFF#32, inBase := 0, outBase := outBaseAtReset,
    instances := 1 }

/-- The machine right after reset (70_reset_and_hazards.md R310): the six registers 0, idle. The internal registers,
whose reset value the spec leaves unspecified (R311), are 0 (DESIGN CHOICE, log 3). -/
def State.reset : State :=
  { ctrlOp := 0, status := Status.idle, len := 0, a := 0, result := 0, errpos := 0,
    cmd := { op := 0, n := 0, a0 := 0, cnt := 0 },
    lz := { i := 0, max := 0, s := 0, j := 0, bestLen := 0, bestStart := 0, dist := 0, stride := 0, flags := 0,
            tok := 0, p := 0 },
    rl := { i := 0, r := 0, e := 0, l := 0 },
    mem := [], lost := [], resultOpen := false, plat := platformAtReset, others := [],
    replies := [], draws := 0, inputs := [], obs := [] }

end Sys2Proof.Machine
end

