-- ==== Sys2Proof/Machine/Operands.lean ====
section
/-! DEFINITION. Reading: one byte of the platform's memory, of `IN`, of `OUT`; the spans a command holds; the words of
the registers. -/

namespace Sys2Proof.Machine

open Sys2Proof

/-- The listed byte at an address, if one is listed. -/
def Memory.byteAt : Memory → Nat → Option Byte
  | [], _ => none
  | (b, v) :: m, addr => if b = addr then some v else Memory.byteAt m addr

/-- The epoch of an unlisted byte: the newest lost range that holds it, else power-up (log 6). -/
def epochAt : List Lost → Nat → Nat
  | [], _ => 0
  | l :: ls, addr => if l.span.holds addr then l.epoch else epochAt ls addr

/-- The byte at a platform address: the listed one, else the free content of its epoch (log 5). -/
def State.byteAt (s : State) (addr : Nat) : Byte :=
  match Memory.byteAt s.mem addr with
  | some v => v
  | none => Config.freeByte (epochAt s.lost addr) addr

/-- `IN[k]`, that is `MemRead(k, 1)` (00_scope.md R13, 20_memory.md R71). -/
def State.inByte (s : State) (k : Nat) : Byte := s.byteAt (s.plat.inBase + k)

/-- `OUT[p]` (20_memory.md R72). -/
def State.outByte (s : State) (p : Nat) : Byte := s.byteAt (s.plat.outBase + p)

/-- Where the platform places a space (20_memory.md R79; log 16). -/
def State.baseOf (s : State) : Space → Nat
  | .input => s.plat.inBase
  | .output => s.plat.outBase

/-- How many bytes a space has (20_memory.md R70). -/
def State.sizeOf (s : State) : Space → Nat
  | .input => s.plat.inSize.toNat
  | .output => s.plat.sinkCapacity.toNat

/-- `n` consecutive bytes from a platform address. -/
def State.bytesFrom (s : State) (addr : Nat) : Nat → List Byte
  | 0 => []
  | n + 1 => s.byteAt addr :: s.bytesFrom (addr + 1) n

/-- `IN[k .. k+n-1]`. -/
def State.inBytes (s : State) (k n : Nat) : List Byte := s.bytesFrom (s.plat.inBase + k) n

/-- `OUT[p .. p+n-1]`. -/
def State.outBytes (s : State) (p n : Nat) : List Byte := s.bytesFrom (s.plat.outBase + p) n

/-- The addresses of `IN[0 .. n-1]`. -/
def State.inputSpan (s : State) (n : Nat) : Config.Span :=
  { lo := s.plat.inBase, hi := s.plat.inBase + n }

/-- The addresses of `OUT[p .. SINK_CAPACITY-1]`: the sink range of a command started at `p` (20_memory.md R87). -/
def State.outputSpan (s : State) (p : Nat) : Config.Span :=
  { lo := s.plat.outBase + p, hi := s.plat.outBase + s.plat.sinkCapacity.toNat }

/-- The addresses the running command reads (70_reset_and_hazards.md R315). -/
def State.heldInput (s : State) : Config.Span := s.inputSpan s.cmd.n.toNat

/-- The addresses that are not final while the command runs, and unspecified when it fails (R316, R289). -/
def State.heldOutput (s : State) : Config.Span := s.outputSpan s.cmd.a0.toNat

/-- `OUT` positions `A0 .. SINK_CAPACITY-1` as positions, not addresses: the sink range of 20_memory.md R87, taken
for "the end of its output" of 70_reset_and_hazards.md R318 too (DEDUCED, log 24). -/
def State.sinkRange (s : State) (p : Nat) : Config.Span :=
  { lo := p, hi := s.plat.sinkCapacity.toNat }

/-- The addresses of the bytes of this `OUT` in a range of positions. -/
def State.rangeSpan (s : State) (range : Config.Span) : Config.Span :=
  { lo := s.plat.outBase + range.lo, hi := s.plat.outBase + min range.hi s.plat.sinkCapacity.toNat }

/-- A range of `OUT` positions covers one of `IN[0 .. n-1]`, on a platform with both spaces in one memory. -/
def State.rangeMeetsInput (s : State) (range : Config.Span) (n : Nat) : Bool :=
  (s.rangeSpan range).overlaps (s.inputSpan n)

/-- The register at an offset (10_state.md R33); the others are reserved. -/
def Reg.ofOffset (offset : BitVec 8) : Option Reg :=
  if offset = 0x00#8 then some .ctrl
  else if offset = 0x04#8 then some .status
  else if offset = 0x08#8 then some .len
  else if offset = 0x0C#8 then some .a
  else if offset = 0x10#8 then some .result
  else if offset = 0x14#8 then some .errpos
  else none

/-- The offset of a register (10_state.md R33). -/
def Reg.offset : Reg → BitVec 8
  | .ctrl => 0x00#8
  | .status => 0x04#8
  | .len => 0x08#8
  | .a => 0x0C#8
  | .result => 0x10#8
  | .errpos => 0x14#8

/-- A register access of whole aligned words (20_memory.md R75). -/
def accessAligned (offset : BitVec 8) (size : AccessSize) : Bool :=
  size = .word && offset.toNat % 4 = 0

end Sys2Proof.Machine
end

