-- ==== Sys2Proof/Machine/Flags.lean ====
section
/-! DEFINITION. The two kinds of flags (10_state.md R50): the `STATUS` fields with their register words, and the LZSS
flag bits. -/

namespace Sys2Proof.Machine

open Sys2Proof

/-- The code of a cause in `STATUS.CAUSE` (60_exceptions.md R280). -/
def Cause.code : Cause → BitVec 4
  | .none => 0
  | .sinkWriteFailure => 1
  | .illegalCommand => 2
  | .lengthError => 3

/-- One bit of a Boolean. -/
def bitOf (b : Bool) : BitVec 1 := if b then 1#1 else 0#1

/-- The word of `STATUS` (10_state.md R35): reserved bits read 0. -/
def Status.word (st : Status) : Word :=
  0#24 ++ st.cause.code ++ 0#1 ++ bitOf st.err ++ bitOf st.done ++ bitOf st.busy

/-- The word of `CTRL` (10_state.md R34): `START` and `RES` read 0. -/
def State.ctrlWord (s : State) : Word := 0#29 ++ s.ctrlOp ++ 0#1

/-- `STATUS` at the start of a command, before it is validated (40_commands.md R140). -/
def Status.cleared (st : Status) : Status :=
  { st with done := false, err := false, cause := .none }

/-- `STATUS` while a command runs (R140). -/
def Status.running (st : Status) : Status := { st with busy := true }

/-- `STATUS` after a completed command (40_commands.md R146). -/
def Status.completed (st : Status) : Status := { st with busy := false, done := true }

/-- `STATUS` after error entry (60_exceptions.md R288). -/
def Status.failed (c : Cause) : Status := { busy := false, done := false, err := true, cause := c }

/-- The 8-token multiplexer (41_lzss.md R180): write `b` into bit `7 - tok`; an index above 7, which no step reaches,
selects no bit (log 15). -/
def setFlagBit (flags : Byte) (tok : Nat) (b : Bool) : Byte :=
  if b then flags ||| (0x80#8 >>> tok) else flags &&& ~~~(0x80#8 >>> tok)

/-- `FLAG_ACC(b)` (41_lzss.md R180). -/
def LzRegs.flagAcc (lz : LzRegs) (b : Bool) : LzRegs :=
  { lz with flags := setFlagBit lz.flags lz.tok.toNat b, tok := lz.tok + 1 }

end Sys2Proof.Machine
end

