-- ==== Sys2Proof/Machine/Ops.lean ====
section
/-! DEFINITION. The shared operations: the memory, the free draws, the output sink (43_sink.md), error entry
(60_exceptions.md R288), reset (70_reset_and_hazards.md R310), and the start and the end of a command
(40_commands.md R140, R146). -/

namespace Sys2Proof.Machine

open Sys2Proof

/-! ### Memory -/

/-- Store a byte, keeping the addresses strictly rising. -/
def Memory.setByte : Memory → Nat → Byte → Memory
  | [], addr, v => [(addr, v)]
  | (b, w) :: m, addr, v =>
    if addr < b then (addr, v) :: (b, w) :: m
    else if addr = b then (addr, v) :: m
    else (b, w) :: Memory.setByte m addr v

/-- Unlist every byte of a span. -/
def Memory.forget (m : Memory) (p : Config.Span) : Memory := m.filter fun c => !p.holds c.1

/-- The canonical form, from a lower bound on: addresses strictly rising. -/
def Memory.risesFrom : Nat → Memory → Bool
  | _, [] => true
  | lo, (b, _) :: m => lo ≤ b && Memory.risesFrom (b + 1) m

/-- The canonical form of a memory. An unlisted address has no byte, so no entry equals what one reads as (log 5). -/
def Memory.wf (m : Memory) : Bool := Memory.risesFrom 0 m

/-- `MemWrite` at a platform address (00_scope.md R13). -/
def State.writeByte (s : State) (addr : Nat) (v : Byte) : State :=
  { s with mem := Memory.setByte s.mem addr v }

/-- Bytes written one after another from a platform address. -/
def State.writeBytes (s : State) (addr : Nat) : List Byte → State
  | [] => s
  | v :: vs => (s.writeByte addr v).writeBytes (addr + 1) vs

/-- Make every byte of a span unspecified: `draw()` (60_exceptions.md R289, 70_reset_and_hazards.md R310; log 6). The
bytes are unlisted, and what they read as is the free content of a new epoch. -/
def State.loseSpan (s : State) (p : Config.Span) : State :=
  { s with
    mem := Memory.forget s.mem p
    lost := { span := p, epoch := s.draws + 1 } :: s.lost.filter fun l => !p.covers l.span
    draws := s.draws + 1 }

/-! ### Error entry -/

/-- What a `raise` names, with the information it records (60_exceptions.md R280). -/
inductive Raise where
  | sinkWriteFailure (p : Word)
  | illegalCommand
  | lengthError
  deriving DecidableEq, Repr

/-- The cause that `STATUS.CAUSE` reports (R280). -/
def Raise.cause : Raise → Cause
  | .sinkWriteFailure _ => .sinkWriteFailure
  | .illegalCommand => .illegalCommand
  | .lengthError => .lengthError

/-- What only a sink failure does besides (R288, R289): it records the position, makes the output range of the command
unspecified, and leaves `RESULT` reading as `draw()` (40_commands.md R147). -/
def Raise.record : Raise → State → State
  | .sinkWriteFailure p, s => { s.loseSpan s.heldOutput with errpos := p, resultOpen := true }
  | .illegalCommand, s => s
  | .lengthError, s => s

/-- Error entry (60_exceptions.md R288): the one way a command ends in error. -/
def raiseError (e : Raise) (s : State) : State :=
  { e.record s with status := Status.failed e.cause }

/-! ### What an engine operation answers -/

/-- An engine operation goes on, ends the command by a raise (the state after error entry), or breaks a precondition of
the spec that says the model may fault. -/
inductive Flow where
  | going (s : State)
  | ended (s : State)
  | faulted (f : Fault)

/-- The next operation runs only where the one before went on: a raise ends the command at once
(60_exceptions.md R288, "propagated immediately"). -/
def Flow.andThen (o : Flow) (f : State → Flow) : Flow :=
  match o with
  | .going s => f s
  | .ended s => .ended s
  | .faulted r => .faulted r

/-- What follows an operation and cannot fail. -/
def Flow.map (o : Flow) (f : State → State) : Flow := o.andThen fun s => .going (f s)

/-- The outcome of the step: a command that ended in error is a next state like any other. -/
def Flow.outcome : Flow → Host.Outcome State Fault Refusal
  | .going s => .next s
  | .ended s => .next s
  | .faulted r => .fault r

/-! ### The output sink -/

/-- The platform's answer to a sink write, `sinkFail(kind, p)` (43_sink.md R264): the settled one, else a free Boolean
(log 8). -/
def State.sinkRefuses (s : State) (kind : Config.SinkKind) (p : Nat) : Bool :=
  match s.replies with
  | r :: _ => r
  | [] => Config.sinkFail s.draws kind p

/-- The answer is used up. -/
def State.takeReply (s : State) : State :=
  match s.replies with
  | _ :: rs => { s with replies := rs }
  | [] => { s with draws := s.draws + 1 }

/-- `SinkAppend(v)` (43_sink.md R261). -/
def sinkAppend (v : Byte) (s : State) : Flow :=
  if s.plat.sinkCapacity.toNat ≤ s.a.toNat then .ended (raiseError (.sinkWriteFailure s.a) s)
  else if s.sinkRefuses .append s.a.toNat then .ended (raiseError (.sinkWriteFailure s.a) s.takeReply)
  else .going { s.takeReply.writeByte (s.plat.outBase + s.a.toNat) v with a := s.a + 1 }

/-- A byte sequence is appended byte by byte (43_sink.md R260). -/
def sinkAppendAll : List Byte → State → Flow
  | [], s => .going s
  | v :: vs, s => (sinkAppend v s).andThen (sinkAppendAll vs)

/-- `SinkPatch(p, v)` (43_sink.md R262); its precondition `p < A` broken is a fault (93_implementation_defined.md P1). -/
def sinkPatch (p : Word) (v : Byte) (s : State) : Flow :=
  if s.a.toNat ≤ p.toNat then .faulted .patchNotBelowEnd
  else if s.sinkRefuses .patch p.toNat then .ended (raiseError (.sinkWriteFailure p) s.takeReply)
  else .going (s.takeReply.writeByte (s.plat.outBase + p.toNat) v)

/-- `SinkPos()` (43_sink.md R263). -/
def sinkPos (s : State) : Word := s.a

/-- `CNT <- CNT + n` (41_lzss.md R172, R178, R179; 42_rle.md R224, R226). -/
def State.countBytes (s : State) (n : Nat) : State :=
  { s with cmd := { s.cmd with cnt := s.cmd.cnt + BitVec.ofNat 32 n } }

/-! ### The start and the end of a command -/

/-- Every write to `CTRL` stores bits 2:1 into `OP` (10_state.md R34). -/
def State.storeOp (s : State) (op : BitVec 2) : State := { s with ctrlOp := op }

/-- A start clears `DONE`, `ERR` and `CAUSE` before it is validated (40_commands.md R140). -/
def State.clearStatus (s : State) : State := { s with status := s.status.cleared }

/-- `CMD.op`, `CMD.N`, `CMD.A0` and `CNT` are loaded, and `BUSY` is set (40_commands.md R140). -/
def State.latchCommand (s : State) (op : BitVec 2) : State :=
  { s with
    cmd := { op := op, n := s.len, a0 := s.a, cnt := 0 }
    status := s.status.running }

/-- A platform on which this start has no meaning: its input and output overlap in the platform's memory
(70_reset_and_hazards.md R319); a running instance's sink range covers its input, which would then not be stable
(20_memory.md R71; DESIGN CHOICE, log 26); or one holds part of its sink range (20_memory.md R87, R318), whatever the
length of its input (DEDUCED, log 24). -/
def State.launchRefusal (s : State) : Option Refusal :=
  if (s.inputSpan s.len.toNat).overlaps (s.outputSpan s.a.toNat) then some .overlappingSpaces
  else if s.others.any fun o => s.rangeMeetsInput o.range s.len.toNat then some .overlappingSpaces
  else if s.others.any fun o => o.range.overlaps (s.sinkRange s.a.toNat) then some .sharedSink
  else none

/-- A start with a legal command word (40_commands.md R140, R141 steps 2 and 3): `enter` is the codec's INIT with the
loop control after it. -/
def startEncoder (op : BitVec 2) (enter : State → State) (s : State) : Host.Outcome State Fault Refusal :=
  if s.status.busy then .refused .registerWriteWhileBusy
  else if s.plat.inSize.toNat < s.len.toNat then
    .next (raiseError .lengthError (s.storeOp op).clearStatus)
  else
    match s.launchRefusal with
    | some r => .refused r
    | none => .next (enter ((s.storeOp op).clearStatus.latchCommand op))

/-- A start with an illegal command word (40_commands.md R140, R141 step 1). -/
def rejectCommand (op : BitVec 2) (s : State) : Host.Outcome State Fault Refusal :=
  if s.status.busy then .refused .registerWriteWhileBusy
  else .next (raiseError .illegalCommand (s.storeOp op).clearStatus)

/-- Completion (40_commands.md R146). -/
def State.complete (s : State) : State :=
  { s with result := s.cmd.cnt, resultOpen := false, status := s.status.completed }

/-! ### Reset -/

/-- Internal registers after a reset input: free values (70_reset_and_hazards.md R311; log 4). -/
def State.scrambleInternals (s : State) : State :=
  { s with
    cmd := { op := Config.freeElement s.draws 0 2, n := Config.freeElement s.draws 1 32,
             a0 := Config.freeElement s.draws 2 32, cnt := Config.freeElement s.draws 3 32 }
    lz := { i := Config.freeElement s.draws 4 32, max := Config.freeElement s.draws 5 4,
            s := Config.freeElement s.draws 6 32, j := Config.freeElement s.draws 7 4,
            bestLen := Config.freeElement s.draws 8 4, bestStart := Config.freeElement s.draws 9 32,
            dist := Config.freeElement s.draws 10 12, stride := Config.freeElement s.draws 11 4,
            flags := Config.freeElement s.draws 12 8, tok := Config.freeElement s.draws 13 4,
            p := Config.freeElement s.draws 14 32 }
    rl := { i := Config.freeElement s.draws 15 32, r := Config.freeElement s.draws 16 7,
            e := Config.freeElement s.draws 17 32, l := Config.freeElement s.draws 18 7 }
    draws := s.draws + 1 }

/-- A command in flight is abandoned: its output range becomes unspecified (R310). -/
def State.abandonCommand (s : State) : State := if s.status.busy then s.loseSpan s.heldOutput else s

/-- The reset input (R310 to R312): the six registers at their reset values, idle. -/
def resetInput (s : State) : State :=
  { s.abandonCommand.scrambleInternals with
    ctrlOp := 0, status := Status.idle, len := 0, a := 0, result := 0, errpos := 0, resultOpen := false }

end Sys2Proof.Machine
end

