-- ==== Sys2Proof/Machine/Others.lean ====
section
/-! DEFINITION. The other instances, as far as this one can meet them: which commands of theirs run now, the sink ranges
these hold (20_memory.md R87, 70_reset_and_hazards.md R318), and what they write there (60_exceptions.md R295). -/

namespace Sys2Proof.Machine

open Sys2Proof

/-- The instance has a command in flight. -/
def State.otherRuns (s : State) (number : Nat) : Bool := s.others.any fun o => o.number = number

/-- A running command, here or at another instance, holds a position of `range` (R87). -/
def State.rangeHeld (s : State) (range : Config.Span) : Bool :=
  (s.others.any fun o => o.range.overlaps range) || (s.status.busy && (s.sinkRange s.cmd.a0.toNat).overlaps range)

/-- Another instance starts a command: two commands that overlap in time have disjoint sink ranges (R318). Its busy
start is refused as here (40_commands.md R149), and so is one whose range covers the input of the command that runs here
(DESIGN CHOICE, log 26). The range is the one that the input names, since the other's capacity and placement are not
given (DESIGN CHOICE, log 24). -/
def startOther (number : Nat) (range : Config.Span) (s : State) : Host.Outcome State Fault Refusal :=
  if number = 0 || s.plat.instances ≤ number then .refused .noSuchInstance
  else if s.otherRuns number then .refused .registerWriteWhileBusy
  else if s.rangeHeld range then .refused .sharedSink
  else if s.status.busy && s.rangeMeetsInput range s.cmd.n.toNat then .refused .overlappingSpaces
  else .next { s with others := { number := number, range := range } :: s.others }

/-- What another instance's running command writes is not this instance's: the bytes of its range become free values
(log 17). No input byte of a command that runs here is among them (log 26). An idle instance does nothing (60_exceptions.md R297). -/
def turnOther (number : Nat) (s : State) : State :=
  match s.others.find? fun o => o.number = number with
  | some o => s.loseSpan (s.rangeSpan o.range)
  | none => s

/-- Another instance's command ends, and its range is free again. -/
def stopOther (number : Nat) (s : State) : State :=
  { s with others := s.others.filter fun o => o.number ≠ number }

/-- One event of another instance. -/
def otherEvent (e : OtherEvent) (s : State) : Host.Outcome State Fault Refusal :=
  match e with
  | .start number range => startOther number range s
  | .turn number => .next (turnOther number s)
  | .stop number => .next (stopOther number s)

end Sys2Proof.Machine
end

