-- ==== Sys2Proof/Machine/Lzss.lean ====
section
/-! DEFINITION. The LZSS engine (41_lzss.md): its operations, and the meanings of the three rows of its stream. -/

namespace Sys2Proof.Machine

open Sys2Proof

/-- The length of the common run of bytes of `inp` from `c` and from `i`, at most `k`
(41_lzss.md R173, the inner loop). -/
def commonLen (inp : Nat → Byte) (c i : Nat) : Nat → Nat
  | 0 => 0
  | k + 1 => if inp c = inp i then commonLen inp (c + 1) (i + 1) k + 1 else 0

/-- The length comparator (41_lzss.md R175): a strict greater-than, so the earlier and more distant best is kept on a
tie (90_conflicts.md C2). -/
def LzRegs.compare (lz : LzRegs) : LzRegs :=
  if lz.bestLen.toNat < lz.j.toNat then { lz with bestLen := lz.j, bestStart := lz.s } else lz

/-- One candidate `c` of the search (41_lzss.md R173, the outer loop's body). -/
def LzRegs.tryCandidate (inp : Nat → Byte) (lz : LzRegs) (c : Nat) : LzRegs :=
  if inp c = inp lz.i.toNat then
    { lz with s := BitVec.ofNat 32 c
              j := BitVec.ofNat 4 (commonLen inp c lz.i.toNat lz.max.toNat) }.compare
  else { lz with s := BitVec.ofNat 32 c }

/-- `LZ.max`, and the best so far before any candidate (41_lzss.md R173). -/
def LzRegs.startSearch (lz : LzRegs) (n : Nat) : LzRegs :=
  { lz with max := BitVec.ofNat 4 (min Config.lookahead (n - lz.i.toNat)), bestLen := 0, bestStart := lz.i }

/-- How many candidates scan position `i` has: `i - max(0, i - W)`, that is `min(i, W)` (R173,
70_reset_and_hazards.md R322). -/
def windowSize (i : Nat) : Nat := min i Config.backWindow

/-- The candidates of scan position `i`, from `max(0, i - W)` to `i - 1`, oldest first (R173; 90_conflicts.md C2). -/
def candidates (i : Nat) : List Nat := List.range' (i - windowSize i) (windowSize i)

/-- `LZ.dist <- LZ.i - LZ.bestStart` (41_lzss.md R176). -/
def LzRegs.takeDistance (lz : LzRegs) : LzRegs :=
  { lz with dist := BitVec.ofNat 12 (lz.i.toNat - lz.bestStart.toNat) }

/-- `LZ_FIND` on the datapath registers (41_lzss.md R173). -/
def LzRegs.find (inp : Nat → Byte) (n : Nat) (lz : LzRegs) : LzRegs :=
  ((candidates lz.i.toNat).foldl (LzRegs.tryCandidate inp) (lz.startSearch n)).takeDistance

/-- `LZ_FIND` (41_lzss.md R173). -/
def lzFind (s : State) : State := { s with lz := s.lz.find s.inByte s.cmd.n.toNat }

/-- `LZ_INIT` (41_lzss.md R171). -/
def lzInit (s : State) : State := { s with lz := { s.lz with i := 0, tok := 0, flags := 0 } }

/-- `LZ.P <- A` (41_lzss.md R172; `SinkPos()`, 43_sink.md R263). -/
def cachePosition (s : State) : State := { s with lz := { s.lz with p := sinkPos s } }

/-- `LZ.flags <- 0x00` (41_lzss.md R172). -/
def clearFlags (s : State) : State := { s with lz := { s.lz with flags := 0 } }

/-- `LZ_OPEN_GROUP` (41_lzss.md R172); the placeholder is 0x00 (43_sink.md R267). -/
def lzOpenGroup (s : State) : Flow :=
  (sinkAppend 0x00 (cachePosition s)).map fun t => clearFlags (t.countBytes 1)

/-- The flag bit and the stride of a token (41_lzss.md R178, R179). -/
def endToken (literal : Bool) (stride : BitVec 4) (s : State) : State :=
  { s with lz := { s.lz.flagAcc literal with stride := stride } }

/-- `LZ_LIT`, performed by `LZ_EMIT_LIT` (41_lzss.md R178). -/
def execLzLit (v : Byte) (s : State) : Host.Outcome State Fault Refusal :=
  ((sinkAppend v s).map fun t => endToken true 1 (t.countBytes 1)).outcome

/-- `LZ_MATCH`, performed by `LZ_EMIT_MATCH` (41_lzss.md R179): the low byte first (20_memory.md R73), each byte a
write of its own (R77). -/
def execLzMatch (dist : BitVec 12) (len : BitVec 4) (s : State) : Host.Outcome State Fault Refusal :=
  (((sinkAppend (matchByte0 dist len) s).andThen (sinkAppend (matchByte1 dist))).map
    fun t => endToken false len (t.countBytes 2)).outcome

/-- The group is closed (41_lzss.md R182); `LZ.flags` is left for the next group to clear. -/
def closeGroup (s : State) : State := { s with lz := { s.lz with tok := 0 } }

/-- `LZ_FLAG`, performed by `LZ_COMMIT` where its condition holds (41_lzss.md R182). -/
def execLzFlag (flags : Byte) (s : State) : Host.Outcome State Fault Refusal :=
  ((sinkPatch s.lz.p flags s).map closeGroup).outcome

/-- Token selection (41_lzss.md R177): the row that the engine performs next, with its operands. -/
def lzToken (s : State) : Instr :=
  if s.lz.bestLen.toNat < Config.minMatch then .lzLit (s.inByte s.lz.i.toNat)
  else .lzMatch s.lz.dist s.lz.bestLen

/-- `LZ_ADVANCE` (41_lzss.md R181). -/
def lzAdvance (s : State) : State :=
  { s with lz := { s.lz with i := s.lz.i + s.lz.stride.setWidth 32 } }

/-- The condition of `LZ_COMMIT` (41_lzss.md R182). -/
def lzGroupEnds (s : State) : Bool := s.lz.tok = 8 || s.cmd.n.toNat ≤ s.lz.i.toNat

/-- Loop control and `LZ_DONE` (41_lzss.md R183). -/
def lzLoopControl (s : State) : State := if s.lz.i.toNat < s.cmd.n.toNat then s else s.complete

/-- The entry of the LZSS engine after a start: `LZ_INIT`, then the loop's condition (41_lzss.md R170; a command with
`N = 0` completes at once, 40_commands.md R148). -/
def lzEnter (s : State) : State := lzLoopControl (lzInit s)

end Sys2Proof.Machine
end

