-- ==== Sys2Proof/Machine/Rle.lean ====
section
/-! DEFINITION. The RLE engine (42_rle.md): its operations, and the meanings of the two rows of its stream. -/

namespace Sys2Proof.Machine

open Sys2Proof

/-- `RL_INIT` (42_rle.md R221). -/
def rlInit (s : State) : State := { s with rl := { s.rl with i := 0 } }

/-- The run detector's loop (42_rle.md R222): from run length `r`, at most `k` bytes more. -/
def runFrom (inp : Nat → Byte) (n i : Nat) : Nat → Nat → Nat
  | 0, r => r
  | k + 1, r => if i + r < n ∧ inp (i + r) = inp i then runFrom inp n i k (r + 1) else r

/-- The run of equal bytes at `i`, capped at `RMAX` (42_rle.md R222). -/
def runLength (inp : Nat → Byte) (n i : Nat) : Nat := runFrom inp n i (Config.runMax - 1) 1

/-- `RL_MEASURE` (42_rle.md R222). -/
def rlMeasure (s : State) : State :=
  { s with rl := { s.rl with r := BitVec.ofNat 7 (runLength s.inByte s.cmd.n.toNat s.rl.i.toNat) } }

/-- `TRIPLE(e)`: the next three bytes exist and are equal (42_rle.md R225; 90_conflicts.md C3). -/
def triple (inp : Nat → Byte) (n e : Nat) : Bool :=
  e + 2 < n && inp e = inp (e + 1) && inp (e + 1) = inp (e + 2)

/-- The literal span's loop (42_rle.md R225): from end `e`, at most `k` bytes more. -/
def spanFrom (inp : Nat → Byte) (n : Nat) : Nat → Nat → Nat
  | 0, e => e
  | k + 1, e => if e < n ∧ triple inp n e = false then spanFrom inp n k (e + 1) else e

/-- The end of the literal span that starts at `i`, at most `RMAX` bytes on (42_rle.md R225). -/
def spanEnd (inp : Nat → Byte) (n i : Nat) : Nat := spanFrom inp n (Config.runMax - 1) (i + 1)

/-- `RL_SCAN_LIT` (42_rle.md R225). -/
def rlScanLit (s : State) : State :=
  let e := spanEnd s.inByte s.cmd.n.toNat s.rl.i.toNat
  { s with rl := { s.rl with e := BitVec.ofNat 32 e, l := BitVec.ofNat 7 (e - s.rl.i.toNat) } }

/-- `RL.i <- RL.i + n` (42_rle.md R224, R226). -/
def rlAdvance (n : Nat) (s : State) : State :=
  { s with rl := { s.rl with i := s.rl.i + BitVec.ofNat 32 n } }

/-- `RL_RUN`, performed by `RL_EMIT_RUN` (42_rle.md R224). -/
def execRlRun (r : BitVec 7) (v : Byte) (s : State) : Host.Outcome State Fault Refusal :=
  (((sinkAppend (runControl r) s).andThen (sinkAppend v)).map
    fun t => rlAdvance r.toNat (t.countBytes 2)).outcome

/-- `RL_LIT`, performed by `RL_EMIT_LIT` (42_rle.md R226): the control byte, then the bytes verbatim. -/
def execRlLit (bytes : List Byte) (s : State) : Host.Outcome State Fault Refusal :=
  (((sinkAppend (literalControl (BitVec.ofNat 7 bytes.length)) s).andThen (sinkAppendAll bytes)).map
    fun t => rlAdvance bytes.length (t.countBytes (1 + bytes.length))).outcome

/-- Packet selection (42_rle.md R223): the run detector decides whether a literal span is scanned. -/
def rlIsRun (s : State) : Bool := Config.runMin ≤ s.rl.r.toNat

/-- What runs before the packet is emitted: `RL_MEASURE`, and `RL_SCAN_LIT` where no run packet follows
(42_rle.md R220). -/
def rlPrepare (s : State) : State :=
  if rlIsRun (rlMeasure s) then rlMeasure s else rlScanLit (rlMeasure s)

/-- The row that the engine performs next, with its operands (42_rle.md R223, R224, R226). -/
def rlPacket (s : State) : Instr :=
  if rlIsRun s then .rlRun s.rl.r (s.inByte s.rl.i.toNat)
  else .rlLit (s.inBytes s.rl.i.toNat s.rl.l.toNat)

/-- Loop control and `RL_DONE` (42_rle.md R227). -/
def rlLoopControl (s : State) : State := if s.rl.i.toNat < s.cmd.n.toNat then s else s.complete

/-- The entry of the RLE engine after a start: `RL_INIT`, then the loop's condition (42_rle.md R220; 40_commands.md
R148). -/
def rlEnter (s : State) : State := rlLoopControl (rlInit s)

end Sys2Proof.Machine
end

