-- ==== Sys2Proof/Machine/Commands.lean ====
section
/-! DEFINITION. The command words (40_commands.md R140 to R149): one meaning per row of the opcode table. A `CTRL`
write while busy is refused by each (R149). -/

namespace Sys2Proof.Machine

open Sys2Proof

/-- `NO_COMMAND` (40_commands.md R140, 30_encoding.md R103): `OP` is stored and nothing else changes; `RES` is
ignored. -/
def execNoCommand (_res : BitVec 29) (op : BitVec 2) (s : State) : Host.Outcome State Fault Refusal :=
  if s.status.busy then .refused .registerWriteWhileBusy else .next (s.storeOp op)

/-- `ENCODE_LZSS` (40_commands.md R142). -/
def execEncodeLzss (s : State) : Host.Outcome State Fault Refusal := startEncoder 0b00#2 lzEnter s

/-- `ENCODE_RLE` (40_commands.md R143). -/
def execEncodeRle (s : State) : Host.Outcome State Fault Refusal := startEncoder 0b01#2 rlEnter s

/-- `RESERVED_OP2` (40_commands.md R144). -/
def execReservedOp2 (s : State) : Host.Outcome State Fault Refusal := rejectCommand 0b10#2 s

/-- `RESERVED_OP3` (40_commands.md R145). -/
def execReservedOp3 (s : State) : Host.Outcome State Fault Refusal := rejectCommand 0b11#2 s

/-- `ILLEGAL_RES` (30_encoding.md R103): `ILLEGAL_COMMAND` whatever `OP` holds; `OP` is stored all the same
(10_state.md R34). -/
def execIllegalRes (_res : BitVec 29) (op : BitVec 2) (s : State) : Host.Outcome State Fault Refusal :=
  rejectCommand op s

end Sys2Proof.Machine
end

