-- ==== Sys2Proof/Machine/Dispatch.lean ====
section
/-! DEFINITION. One arm per instruction: what executing it does. -/

namespace Sys2Proof.Machine

open Sys2Proof

def exec (i : Instr) (s : State) : Host.Outcome State Fault Refusal :=
  match i with
  | .encodeLzss => Sys2Proof.Machine.execEncodeLzss s
  | .encodeRle => Sys2Proof.Machine.execEncodeRle s
  | .reservedOp2 => Sys2Proof.Machine.execReservedOp2 s
  | .reservedOp3 => Sys2Proof.Machine.execReservedOp3 s
  | .illegalRes res op => Sys2Proof.Machine.execIllegalRes res op s
  | .noCommand res op => Sys2Proof.Machine.execNoCommand res op s
  | .lzFlag flags => Sys2Proof.Machine.execLzFlag flags s
  | .lzLit v => Sys2Proof.Machine.execLzLit v s
  | .lzMatch dist len => Sys2Proof.Machine.execLzMatch dist len s
  | .rlRun r v => Sys2Proof.Machine.execRlRun r v s
  | .rlLit bytes => Sys2Proof.Machine.execRlLit bytes s

end Sys2Proof.Machine
end

