-- ==== Sys2Proof/Machine/Bus.lean ====
section
/-! DEFINITION. The host's transactions (30_encoding.md R115) on the register block (10_state.md R40) and on the byte
spaces (20_memory.md R70), with the hazards that are refused (70_reset_and_hazards.md R315 to R317). -/

namespace Sys2Proof.Machine

open Sys2Proof

/-- A read of `A`, `RESULT` or `ERRPOS` is `draw()` while busy (10_state.md R40); one of `RESULT` is `draw()` after a
sink failure too (40_commands.md R147). -/
def State.readDraws (s : State) : Reg → Bool
  | .ctrl => false
  | .status => false
  | .len => false
  | .a => s.status.busy
  | .result => s.status.busy || s.resultOpen
  | .errpos => s.status.busy

/-- The word a register holds (10_state.md R34 to R39). -/
def State.regWord (s : State) : Reg → Word
  | .ctrl => s.ctrlWord
  | .status => s.status.word
  | .len => s.len
  | .a => s.a
  | .result => s.result
  | .errpos => s.errpos

/-- The value a register read returns (10_state.md R40). -/
def State.readValue (s : State) (r : Reg) : Word :=
  if s.readDraws r then Config.freeWord s.draws else s.regWord r

/-- A read has no side effect on the block (20_memory.md R78); a free value is drawn once. -/
def State.afterRead (s : State) (r : Reg) : State :=
  if s.readDraws r then { s with draws := s.draws + 1 } else s

/-- The value is the program's observation (30_encoding.md R115). -/
def State.observe (s : State) (o : Observation) : State := { s with obs := s.obs ++ [o] }

/-- `RD` of a register. -/
def readReg (r : Reg) (s : State) : State := (s.afterRead r).observe (.reg r (s.readValue r))

/-- `WR` of a register. `CTRL` takes a command word (40_commands.md R140); a write to a read-only register is ignored
and changes nothing (10_state.md R40); `LEN` and `A` only store the value (20_memory.md R78), and refuse while busy
(70_reset_and_hazards.md R317). -/
def writeReg (r : Reg) (v : Word) (s : State) : Host.Outcome State Fault Refusal :=
  match r with
  | .ctrl => exec (decodeCmd v) s
  | .status => .next s
  | .len => if s.status.busy then .refused .registerWriteWhileBusy else .next { s with len := v }
  | .a => if s.status.busy then .refused .registerWriteWhileBusy else .next { s with a := v }
  | .result => .next s
  | .errpos => .next s

/-- A register access at an offset: aligned whole words only (20_memory.md R75), reserved offsets refused
(10_state.md R40). -/
def atRegister (offset : BitVec 8) (size : AccessSize) (f : Reg → Host.Outcome State Fault Refusal) :
    Host.Outcome State Fault Refusal :=
  if accessAligned offset size then
    match Reg.ofOffset offset with
    | some r => f r
    | none => .refused .reservedOffset
  else .refused .badRegisterAccess

/-- The addresses of bytes `k .. k+n-1` of a space. -/
def State.accessSpan (s : State) (space : Space) (k n : Nat) : Config.Span :=
  { lo := s.baseOf space + k, hi := s.baseOf space + k + n }

/-- The bytes exist (20_memory.md R70). -/
def State.exists? (s : State) (space : Space) (k n : Nat) : Bool := n = 0 || k + n ≤ s.sizeOf space

/-- `DUMP`: the host reads bytes; those that are not final are refused while busy (70_reset_and_hazards.md R316). A byte
that does not exist faults before that (DESIGN CHOICE, log 21), and what is not final is judged by address, whichever
space names it (DESIGN CHOICE, log 25). -/
def dumpBytes (space : Space) (k n : Nat) (s : State) : Host.Outcome State Fault Refusal :=
  if !s.exists? space k n then .fault (.noSuchByte space)
  else if s.status.busy && s.heldOutput.overlaps (s.accessSpan space k n) then .refused .outputNotFinal
  else .next (s.observe (.bytes space k (s.bytesFrom (s.baseOf space + k) n)))

/-- `FILL`: the host writes bytes; while busy, the running command's input (70_reset_and_hazards.md R315) and its output
range (R316) are refused. A byte that does not exist faults before that (DESIGN CHOICE, log 21), and what is held is
judged by address, whichever space names it (DESIGN CHOICE, log 25). -/
def fillBytes (space : Space) (k : Nat) (bytes : List Byte) (s : State) : Host.Outcome State Fault Refusal :=
  if !s.exists? space k bytes.length then .fault (.noSuchByte space)
  else if s.status.busy && s.heldInput.overlaps (s.accessSpan space k bytes.length) then .refused .inputHeld
  else if s.status.busy && s.heldOutput.overlaps (s.accessSpan space k bytes.length) then .refused .outputNotFinal
  else .next (s.writeBytes (s.baseOf space + k) bytes)

/-- `WAIT` (30_encoding.md R115): read `STATUS`; while `BUSY = 1` an engine turn and another poll come next
(70_reset_and_hazards.md R321, weak fairness; log 9). -/
def waitPoll (s : State) : State :=
  if s.status.busy then { readReg .status s with inputs := .engine :: .host .wait :: s.inputs }
  else readReg .status s

/-- One host transaction (30_encoding.md R115). -/
def transact (t : Transaction) (s : State) : Host.Outcome State Fault Refusal :=
  match t with
  | .wr offset size v => atRegister offset size fun r => writeReg r v s
  | .rd offset size => atRegister offset size fun r => .next (readReg r s)
  | .fill space k bytes => fillBytes space k bytes s
  | .dump space k n => dumpBytes space k n s
  | .wait => .next (waitPoll s)

end Sys2Proof.Machine
end

