-- ==== Sys2Proof/Machine/Engine.lean ====
section
/-! DEFINITION. One engine step (92_eei_decisions.md D31): one LZSS token with its group's opening and commit
(41_lzss.md R170), or one RLE packet (42_rle.md R220). The rows are performed by `exec`. -/

namespace Sys2Proof.Machine

open Sys2Proof

/-- The engine goes on with its next operation only while `BUSY = 1`: error entry has cleared it where a sink write
failed, and the command ends there (60_exceptions.md R288). -/
def whileBusy (o : Host.Outcome State Fault Refusal) (f : State → Host.Outcome State Fault Refusal) :
    Host.Outcome State Fault Refusal :=
  match o with
  | .next t => if t.status.busy then f t else .next t
  | .fault r => .fault r
  | .refused r => .refused r

/-- `if LZ.tok == 0: LZ_OPEN_GROUP` (41_lzss.md R170). -/
def lzOpenIfNeeded (s : State) : Host.Outcome State Fault Refusal :=
  if s.lz.tok = 0 then (lzOpenGroup s).outcome else .next s

/-- `LZ_FIND`, then the token it selects (41_lzss.md R170, R177). -/
def lzEmit (s : State) : Host.Outcome State Fault Refusal := exec (lzToken (lzFind s)) (lzFind s)

/-- `if LZ.tok == 8 or LZ.i >= N: LZ_COMMIT` (41_lzss.md R170, R182). -/
def lzCommitIfDue (s : State) : Host.Outcome State Fault Refusal :=
  if lzGroupEnds s then exec (.lzFlag s.lz.flags) s else .next s

/-- `LZ_ADVANCE` and the commit after it (41_lzss.md R170). -/
def lzAdvanceAndCommit (s : State) : Host.Outcome State Fault Refusal := lzCommitIfDue (lzAdvance s)

/-- One iteration of the loop of 41_lzss.md R170, and the loop's condition after it (R183). -/
def lzIteration (s : State) : Host.Outcome State Fault Refusal :=
  whileBusy (whileBusy (whileBusy (lzOpenIfNeeded s) lzEmit) lzAdvanceAndCommit) fun t => .next (lzLoopControl t)

/-- The packet of 42_rle.md R220 that stands next. -/
def rlEmit (s : State) : Host.Outcome State Fault Refusal := exec (rlPacket (rlPrepare s)) (rlPrepare s)

/-- One iteration of the loop of 42_rle.md R220, and the loop's condition after it (R227). -/
def rlIteration (s : State) : Host.Outcome State Fault Refusal :=
  whileBusy (rlEmit s) fun t => .next (rlLoopControl t)

/-- One LZSS engine step; the loop's condition is tested first (41_lzss.md R170). -/
def lzEngineStep (s : State) : Host.Outcome State Fault Refusal :=
  if s.lz.i.toNat < s.cmd.n.toNat then lzIteration s else .next s.complete

/-- One RLE engine step; the loop's condition is tested first (42_rle.md R220). -/
def rlEngineStep (s : State) : Host.Outcome State Fault Refusal :=
  if s.rl.i.toNat < s.cmd.n.toNat then rlIteration s else .next s.complete

/-- The engine's turn: the codec of `CMD.op` (40_commands.md R140) takes one step. When not busy the block is idle and
does nothing (60_exceptions.md R297). -/
def engineStep (s : State) : Host.Outcome State Fault Refusal :=
  if s.status.busy then
    if s.cmd.op = 0b00#2 then lzEngineStep s else rlEngineStep s
  else .next s

end Sys2Proof.Machine
end

