-- ==== Sys2Proof/Machine/Stage.lean ====
section
/-! DEFINITION. Setting the machine up so that its very next step runs one given instruction (log 11): a command word is
put at the head of the inputs as a write to `CTRL`; a stream row is what the engine does next on an input made for
it. -/

namespace Sys2Proof.Machine

open Sys2Proof

/-- A `CTRL` write of the command word stands next. -/
def State.stageCommand (s : State) (w : Word) : State :=
  { s with inputs := .host (.wr (Reg.offset .ctrl) .word w) :: s.inputs }

/-- A running command of codec `op` over `bytes` from `IN[0]`, at its first scan position, the engine to move next, and
the sink's next writes accepted. -/
def State.stageEngine (s : State) (op : BitVec 2) (bytes : List Byte) (writes : Nat) : State :=
  let t := s.writeBytes s.plat.inBase bytes
  { t with
    status := { busy := true, done := false, err := false, cause := .none }
    ctrlOp := op
    len := BitVec.ofNat 32 bytes.length
    cmd := { op := op, n := BitVec.ofNat 32 bytes.length, a0 := t.a, cnt := 0 }
    lz := { t.lz with i := 0, tok := 0, flags := 0 }
    rl := { t.rl with i := 0 }
    replies := List.replicate writes false
    inputs := .engine :: t.inputs }

/-- An open group with `tok` tokens already in it and the flag bits `flags`, at scan position `i`. -/
def State.stageGroup (s : State) (tok : BitVec 4) (flags : Byte) (i : Nat) : State :=
  { s with
    a := s.a + 1
    cmd := { s.cmd with cnt := 1 }
    lz := { s.lz with i := BitVec.ofNat 32 i, tok := tok, flags := flags, p := s.a } }

/-- An input whose longest match at position `dist` is `len` bytes long at distance `dist`, and which goes on after
it. -/
def matchInput (dist len : Nat) : List Byte :=
  1 :: List.replicate (dist - 1) 0 ++ (List.range len).map (fun j => if j % dist = 0 then 1 else 0) ++ [2, 3]

/-- The next step runs `i`. -/
def State.stage (s : State) : Instr → State
  | .encodeLzss => s.stageCommand 0x00000001#32
  | .encodeRle => s.stageCommand 0x00000003#32
  | .reservedOp2 => s.stageCommand 0x00000005#32
  | .reservedOp3 => s.stageCommand 0x00000007#32
  | .illegalRes res op => s.stageCommand (cmdWord res op 1)
  | .noCommand res op => s.stageCommand (cmdWord res op 0)
  | .lzFlag flags =>
    if flags.getLsbD 0 then (s.stageEngine 0b00#2 [0, 1] 2).stageGroup 7 (flags &&& 0xFE#8) 0
    else (s.stageEngine 0b00#2 (matchInput 3 3) 3).stageGroup 7 flags 3
  | .lzLit v => (s.stageEngine 0b00#2 [v, v] 1).stageGroup 1 0x80#8 0
  | .lzMatch dist len =>
    (s.stageEngine 0b00#2 (matchInput dist.toNat len.toNat) 2).stageGroup 1 0x80#8 dist.toNat
  | .rlRun r v => s.stageEngine 0b01#2 (List.replicate r.toNat v ++ [v + 1]) 2
  | .rlLit bytes => s.stageEngine 0b01#2 (bytes ++ List.replicate 3 (bytes.getLastD 0 + 1)) (1 + bytes.length)

end Sys2Proof.Machine
end

