-- ==== Sys2Proof/Machine/Step.lean ====
section
/-! DEFINITION. One step: the input that stands first moves the machine; with none pending, a busy engine takes its next
step (70_reset_and_hazards.md R321, weak fairness) and an idle block does nothing (60_exceptions.md R297). -/

namespace Sys2Proof.Machine

open Sys2Proof

/-- One step of the machine (log 1). -/
def step (s : State) : Host.Outcome State Fault Refusal :=
  match s.inputs with
  | [] => engineStep s
  | .engine :: rest => engineStep { s with inputs := rest }
  | .host t :: rest => transact t { s with inputs := rest }
  | .reset :: rest => .next (resetInput { s with inputs := rest })
  | .other e :: rest => otherEvent e { s with inputs := rest }

/-- The state whose next step fetches and runs the instruction of a table word (log 11). A word the decoder refuses
leaves the state as it is. -/
def State.withFetchWord (s : State) (nbits w : Nat) : State :=
  match decodeTableWord nbits w with
  | some i => s.stage i
  | none => s

end Sys2Proof.Machine
end

