-- ==== Sys2Proof/Machine/Reference.lean ====
section
/-! DEFINITION. The reference consumers of the two streams (41_lzss.md R188, 42_rle.md R230). They are no part of the
block (00_scope.md R5): they say what round-trip correctness means. Each answers `none` where the bytes end inside an
item, or a match has distance 0 or reaches before the output's start; the other never-produced encodings are replayed
as the pseudocode reads (DESIGN CHOICE, log 23; 93_implementation_defined.md E5 only says that a decoder may
refuse). -/

namespace Sys2Proof.Machine

open Sys2Proof

/-- The RLE decoder (42_rle.md R230); each packet takes one of `fuel`. -/
def rleDecodeWith : Nat → List Byte → Option (List Byte)
  | _, [] => some []
  | 0, _ :: _ => none
  | fuel + 1, c :: bs =>
    if c.getLsbD 7 then
      match bs with
      | [] => none
      | v :: rest => (rleDecodeWith fuel rest).map (List.replicate (c.toNat % 128) v ++ ·)
    else if bs.length < c.toNat then none
    else (rleDecodeWith fuel (bs.drop c.toNat)).map (bs.take c.toNat ++ ·)

/-- The RLE decoder: a stream has at most as many packets as bytes. -/
def rleDecode (bs : List Byte) : Option (List Byte) := rleDecodeWith bs.length bs

/-- `repeat len times: out.append(out[|out| - dist])`, byte by byte (41_lzss.md R186, R188). At distance 0, or one that
reaches before the output's start, a match of at least one byte has no byte to copy: `none` (DESIGN CHOICE, log 23). -/
def copyMatch (dist : Nat) : Nat → List Byte → Option (List Byte)
  | 0, out => some out
  | len + 1, out =>
    if dist = 0 ∨ out.length < dist then none
    else copyMatch dist len (out ++ [out.getD (out.length - dist) 0])

/-- The LZSS decoder (41_lzss.md R188) in the middle of a group: `flag` is the group's flag byte and `t` the next
token's index; `t = 8` asks for the next flag byte. Each byte group read takes one of `fuel`. -/
def lzDecodeWith (n : Nat) : Nat → List Byte → Byte → Nat → List Byte → Option (List Byte)
  | fuel, out, flag, t, bs =>
    if n ≤ out.length then some out
    else
      match fuel, bs with
      | 0, _ => none
      | _, [] => none
      | fuel + 1, b :: bs =>
        if 8 ≤ t then lzDecodeWith n fuel out b 0 bs
        else if flag.getLsbD (7 - t) then lzDecodeWith n fuel (out ++ [b]) flag (t + 1) bs
        else
          match bs with
          | [] => none
          | b1 :: bs =>
            match copyMatch (matchDist b b1).toNat (matchLen b).toNat out with
            | none => none
            | some out => lzDecodeWith n fuel out flag (t + 1) bs

/-- The LZSS decoder; the original length `n` is supplied out of band (30_encoding.md R112). -/
def lzDecode (n : Nat) (bs : List Byte) : Option (List Byte) := lzDecodeWith n bs.length [] 0 8 bs

/-- Where the LZSS decoder (41_lzss.md R188) stands after some bytes of a stream. -/
structure LzReplay where
  /-- What it has put out. -/
  out : List Byte
  /-- The current group's flag byte. -/
  flag : Byte
  /-- The index in the stream of that flag byte. -/
  flagAt : Nat
  /-- The next token's index in the group; 8 where the next byte is a flag byte. -/
  tok : Nat
  deriving DecidableEq, Repr

/-- The LZSS decoder without a length to stop at: it reads all the bytes, the first of which has index `k` in the
stream, and says where it stands after them; `none` where they end inside a token. -/
def lzReplayFrom (k : Nat) (r : LzReplay) : List Byte → Option LzReplay
  | [] => some r
  | b :: bs =>
    if 8 ≤ r.tok then lzReplayFrom (k + 1) { r with flag := b, flagAt := k, tok := 0 } bs
    else if r.flag.getLsbD (7 - r.tok) then
      lzReplayFrom (k + 1) { r with out := r.out ++ [b], tok := r.tok + 1 } bs
    else
      match bs with
      | [] => none
      | b1 :: bs =>
        match copyMatch (matchDist b b1).toNat (matchLen b).toNat r.out with
        | none => none
        | some out => lzReplayFrom (k + 2) { r with out := out, tok := r.tok + 1 } bs

/-- The LZSS decoder from the start of a stream. -/
def lzReplay (bs : List Byte) : Option LzReplay := lzReplayFrom 0 { out := [], flag := 0, flagAt := 0, tok := 8 } bs

end Sys2Proof.Machine
end

