-- ==== Sys2Proof/Safety.lean ====
section
/-! DEFINITION. What holds of every state a run reaches (the invariant), and the predicates that claims are stated in:
when the sink accepts, what an engine operation leaves alone, what the stream written so far decodes to. -/

namespace Sys2Proof.Machine

open Sys2Proof

/-- The invariants of `STATUS` (10_state.md R35). -/
structure Status.Consistent (st : Status) : Prop where
  busyAlone : st.busy = true → st.done = false ∧ st.err = false ∧ st.cause = .none
  oneOutcome : ¬(st.done = true ∧ st.err = true)
  errHasCause : st.err = true ↔ st.cause ≠ .none

/-- What holds while a command runs, whichever codec: its latch is what the registers were at the start
(10_state.md R41, R85), its input fits (R36), its spaces are apart (R319) and unshared (R318), the append pointer has
moved by `CNT` inside `OUT` (R37, 43_sink.md R265), and no running instance may write its input (20_memory.md R71;
log 26). -/
structure CommandInv (s : State) : Prop where
  opLegal : s.cmd.op = 0b00#2 ∨ s.cmd.op = 0b01#2
  opStored : s.cmd.op = s.ctrlOp
  nIsLen : s.cmd.n = s.len
  nFits : s.cmd.n.toNat ≤ s.plat.inSize.toNat
  apart : s.heldInput.overlaps s.heldOutput = false
  unshared : (s.others.any fun o => o.range.overlaps (s.sinkRange s.cmd.a0.toNat)) = false
  position : s.a.toNat = s.cmd.a0.toNat + s.cmd.cnt.toNat
  inOutput : s.cmd.cnt.toNat = 0 ∨ s.a.toNat ≤ s.plat.sinkCapacity.toNat
  inputAlone : (s.others.any fun o => s.rangeMeetsInput o.range s.cmd.n.toNat) = false

/-- What holds between two LZSS engine steps (10_state.md R43 to R45, 41_lzss.md R180 to R183): the scan position is
below `N`, an open group has 1 to 7 tokens, its placeholder lies in the stream written so far, and the flag bits of the
tokens to come are 0. -/
structure LzInv (s : State) : Prop where
  scanning : s.lz.i.toNat < s.cmd.n.toNat
  tokSmall : s.lz.tok.toNat ≤ 7
  placeholder : s.lz.tok ≠ 0 → s.cmd.a0.toNat ≤ s.lz.p.toNat ∧ s.lz.p.toNat < s.a.toNat
  unusedZero : s.lz.tok ≠ 0 → ∀ t, s.lz.tok.toNat ≤ t → t ≤ 7 → s.lz.flags.getLsbD (7 - t) = false

/-- What holds between two RLE engine steps (42_rle.md R227). -/
structure RlInv (s : State) : Prop where
  scanning : s.rl.i.toNat < s.cmd.n.toNat

/-- What holds of the other instances' running commands: each is an instance the system has (00_scope.md R9) with one
command in flight (40_commands.md R149), and their sink ranges are disjoint (70_reset_and_hazards.md R318). -/
structure OthersInv (s : State) : Prop where
  exist : ∀ o ∈ s.others, 1 ≤ o.number ∧ o.number < s.plat.instances
  apart : s.others.Pairwise fun o p => o.number ≠ p.number ∧ o.range.overlaps p.range = false

/-- The invariant of the machine. -/
structure Inv (s : State) : Prop where
  platform : s.plat.legal = true
  others : OthersInv s
  memory : Memory.wf s.mem = true
  status : s.status.Consistent
  command : s.status.busy = true → CommandInv s
  lzss : s.status.busy = true → s.cmd.op = 0b00#2 → LzInv s
  rle : s.status.busy = true → s.cmd.op = 0b01#2 → RlInv s

/-- The scan position of the running codec (10_state.md R32). -/
def State.scanPos (s : State) : Nat := if s.cmd.op = 0b00#2 then s.lz.i.toNat else s.rl.i.toNat

/-! ### When a start and a sink write are accepted -/

/-- No start is refused by the platform: no byte is both input and output of this command (70_reset_and_hazards.md
R319), no running instance's sink range in this `OUT` covers a byte of its input (20_memory.md R71; log 26), and none
holds a position of its sink range (R318). -/
def State.Launchable (s : State) : Prop :=
  (¬∃ x, s.plat.inBase ≤ x ∧ x < s.plat.inBase + s.len.toNat ∧
    s.plat.outBase + s.a.toNat ≤ x ∧ x < s.plat.outBase + s.plat.sinkCapacity.toNat) ∧
  (¬∃ o ∈ s.others, ∃ x, s.plat.inBase ≤ x ∧ x < s.plat.inBase + s.len.toNat ∧
    s.plat.outBase + o.range.lo ≤ x ∧ x < s.plat.outBase + o.range.hi ∧
    x < s.plat.outBase + s.plat.sinkCapacity.toNat) ∧
  ¬∃ o ∈ s.others, ∃ x, o.range.lo ≤ x ∧ x < o.range.hi ∧ s.a.toNat ≤ x ∧ x < s.plat.sinkCapacity.toNat

/-- The next append is accepted: it is inside `OUT`, and the platform does not refuse it (43_sink.md R264). -/
def State.acceptsAppend (s : State) : Prop :=
  s.a.toNat < s.plat.sinkCapacity.toNat ∧ s.sinkRefuses .append s.a.toNat = false

/-- The next `k` appends are accepted, whatever bytes they carry. -/
def State.acceptsAppends : Nat → State → Prop
  | 0, _ => True
  | k + 1, s => s.acceptsAppend ∧ State.acceptsAppends k { s.takeReply with a := s.a + 1 }

/-! ### Frames -/

/-- What no engine operation that goes on touches: the host's registers but `A`, the latched parameters, the platform,
the other instances, the ranges already lost, the host's side. -/
structure SameCommand (s t : State) : Prop where
  ctrlOp : t.ctrlOp = s.ctrlOp
  status : t.status = s.status
  len : t.len = s.len
  result : t.result = s.result
  resultOpen : t.resultOpen = s.resultOpen
  errpos : t.errpos = s.errpos
  op : t.cmd.op = s.cmd.op
  n : t.cmd.n = s.cmd.n
  a0 : t.cmd.a0 = s.cmd.a0
  lost : t.lost = s.lost
  plat : t.plat = s.plat
  others : t.others = s.others
  inputs : t.inputs = s.inputs
  obs : t.obs = s.obs

/-- Every byte outside `n` bytes of `OUT` from position `p` reads as before. -/
def bytesKeptOutside (s t : State) (p n : Nat) : Prop :=
  ∀ addr, addr < s.plat.outBase + p ∨ s.plat.outBase + p + n ≤ addr → t.byteAt addr = s.byteAt addr

/-- Every byte of both spaces reads as before. -/
def bytesKept (s t : State) : Prop := ∀ addr, t.byteAt addr = s.byteAt addr

/-- Every byte outside a span reads as before. -/
def bytesKeptBut (s t : State) (p : Config.Span) : Prop := ∀ addr, p.holds addr = false → t.byteAt addr = s.byteAt addr

/-- What the end of a command by a sink failure leaves, seen from a state `s` of the command (60_exceptions.md R288,
R289). -/
structure FailedAt (s t : State) (p : Word) : Prop where
  errpos : t.errpos = p
  status : t.status = Status.failed .sinkWriteFailure
  result : t.result = s.result
  resultOpen : t.resultOpen = true
  ctrlOp : t.ctrlOp = s.ctrlOp
  len : t.len = s.len
  op : t.cmd.op = s.cmd.op
  n : t.cmd.n = s.cmd.n
  a0 : t.cmd.a0 = s.cmd.a0
  plat : t.plat = s.plat
  others : t.others = s.others
  inputs : t.inputs = s.inputs
  obs : t.obs = s.obs
  bytes : bytesKeptBut s t s.heldOutput

/-! ### Closed forms -/

/-- The `j` bytes of `inp` from `c` and from `i` are equal (41_lzss.md R174). -/
def agree (inp : Nat → Byte) (c i j : Nat) : Prop := ∀ k, k < j → inp (c + k) = inp (i + k)

/-- `c` is a candidate of scan position `i`: in `[max(0, i-W), i)` (41_lzss.md R174). -/
def inWindow (i c : Nat) : Prop := i - Config.backWindow ≤ c ∧ c < i

/-- The bytes of `inp` from `i` to `i + r - 1` exist below `n` and are equal (42_rle.md R222). -/
def runOf (inp : Nat → Byte) (n i r : Nat) : Prop := i + r ≤ n ∧ ∀ k, k < r → inp (i + k) = inp i

/-! ### The stream written so far -/

/-- `OUT[A0 .. A-1]`: what the running command has appended. -/
def State.streamSoFar (s : State) : List Byte := s.outBytes s.cmd.a0.toNat (s.a.toNat - s.cmd.a0.toNat)

/-- The same with the open group's flag bits in its placeholder, as its commit will put them (41_lzss.md R182). -/
def State.lzStreamSoFar (s : State) : List Byte :=
  if s.lz.tok = 0 then s.streamSoFar
  else s.streamSoFar.set (s.lz.p.toNat - s.cmd.a0.toNat) s.lz.flags

/-- The LZSS stream written so far decodes to the input read so far (41_lzss.md R189), and the decoder then stands
where the engine does: at a flag byte where no group is open, else at the open group's next token, its flag byte the
placeholder. -/
def LzDecodesSoFar (s : State) : Prop :=
  ∃ r, lzReplay s.lzStreamSoFar = some r ∧ r.out = s.inBytes 0 s.lz.i.toNat ∧
    if s.lz.tok = 0 then r.tok = 8 else r.tok = s.lz.tok.toNat ∧ r.flagAt = s.lz.p.toNat - s.cmd.a0.toNat

/-- The RLE stream written so far decodes to the input read so far (42_rle.md R231). -/
def RlDecodesSoFar (s : State) : Prop := rleDecode s.streamSoFar = some (s.inBytes 0 s.rl.i.toNat)

/-- The finished stream, `OUT[A0 .. A0+RESULT-1]` (70_reset_and_hazards.md R313 step 8). -/
def State.finishedStream (s : State) : List Byte := s.outBytes s.cmd.a0.toNat s.result.toNat

/-! ### Size bounds -/

/-- The bound of an LZSS command in progress: eight times `CNT`, with the group's tokens, against nine times the input
read (41_lzss.md R185). -/
def LzSizeSoFar (s : State) : Prop :=
  8 * s.cmd.cnt.toNat + s.lz.tok.toNat ≤ 9 * s.lz.i.toNat + (if s.lz.tok = 0 then 0 else 8) ∧
  (0 < s.lz.i.toNat → 2 ≤ s.cmd.cnt.toNat)

/-- The bound of an RLE command in progress: a literal packet that a run of three ended may be one byte ahead
(42_rle.md R229). -/
def RlSizeSoFar (s : State) : Prop :=
  127 * s.cmd.cnt.toNat ≤
    128 * s.rl.i.toNat + (if triple s.inByte s.cmd.n.toNat s.rl.i.toNat then 127 else 0) ∧
  (0 < s.rl.i.toNat → 2 ≤ s.cmd.cnt.toNat)

/-- The size of a finished or running command is in bounds (41_lzss.md R185, 42_rle.md R229). -/
structure SizeInv (s : State) : Prop where
  lzss : s.status.busy = true → s.cmd.op = 0b00#2 → LzSizeSoFar s
  rle : s.status.busy = true → s.cmd.op = 0b01#2 → RlSizeSoFar s
  lzssDone : s.status.done = true → s.cmd.op = 0b00#2 → 1 ≤ s.cmd.n.toNat →
    2 ≤ s.result.toNat ∧ s.result.toNat ≤ s.cmd.n.toNat + (s.cmd.n.toNat + 7) / 8
  rleDone : s.status.done = true → s.cmd.op = 0b01#2 → 1 ≤ s.cmd.n.toNat →
    2 ≤ s.result.toNat ∧ s.result.toNat ≤ s.cmd.n.toNat + (s.cmd.n.toNat + 126) / 127

end Sys2Proof.Machine
end

