-- ==== Sys2Proof/Certificates/Slice0/Obligations.lean ====
section
/-! DEFINITION. The statements for the provers. Each docstring names the rule of spec/ it formalises. -/

open Sys2Proof Sys2Proof.Machine

/-! ### Encodings -/

/-- 30_encoding.md R101 to R112: decoding the encoding of a well-formed instruction gives it back, with every operand
it had, and leaves the bytes after it. -/
def Obligations.DecodeOfEncodeGivesBack : Prop :=
  ∀ (i : Instr) (rest : List Byte), i.wellFormed = true →
    decode (expectOf i) ((encode i).andThen rest) = .ok (i, (encode i).left rest)

/-- 30_encoding.md R105 to R112: what the stream decoder reads is of the kind that was expected, and its encoding is the
bytes that were read. That it is well formed too, so that a match shorter than 3 or at distance 0, a run below 3 and an
empty literal packet are refused, is the model's choice (DESIGN CHOICE, log 12): 93_implementation_defined.md E5 says
only that a decoder may refuse them. A flag byte is never refused, since it alone does not say how many tokens it
describes. -/
def Obligations.DecodedItemsReencode : Prop :=
  ∀ (e : Expect) (bs : List Byte) (i : Instr) (rest : List Byte), decodeStream e bs = .ok (i, rest) →
    encodeBytes i ++ rest = bs ∧ i.wellFormed = true ∧ expectOf i = e

/-- 30_encoding.md R101: every command word is the encoding of the well-formed instruction it decodes to. -/
def Obligations.CommandWordReencodes : Prop :=
  ∀ w : Word, encode (decodeCmd w) = .word w ∧ (decodeCmd w).wellFormed = true ∧ expectOf (decodeCmd w) = .command

/-- 30_encoding.md R103 and R114: all `CTRL` values are classified. With `START = 0` only `OP` is stored, whatever
`RES` holds; `START = 1` with `RES = 0` and `OP` 0 or 1 is a command; every other word raises `ILLEGAL_COMMAND`. -/
def Obligations.EveryCtrlWordIsClassified : Prop :=
  ∀ (w : Word) (s : State), s.status.busy = false →
    (w.getLsbD 0 = false → exec (decodeCmd w) s = .next { s with ctrlOp := w.extractLsb' 1 2 }) ∧
    (w = 0x00000001#32 → decodeCmd w = .encodeLzss) ∧
    (w = 0x00000003#32 → decodeCmd w = .encodeRle) ∧
    (w.getLsbD 0 = true → (w.extractLsb' 3 29 ≠ 0 ∨ w.extractLsb' 1 2 = 0b10#2 ∨ w.extractLsb' 1 2 = 0b11#2) →
      exec (decodeCmd w) s = .next
        { s with ctrlOp := w.extractLsb' 1 2,
                 status := { busy := false, done := false, err := true, cause := .illegalCommand } })

/-- The words of 40_commands.md R142 to R145 and the stream bytes of 95_test_vectors.md decode to what they stand
for. -/
def Obligations.SpecWordsDecode : Prop :=
  decodeCmd 0x00000001#32 = .encodeLzss ∧ decodeCmd 0x00000003#32 = .encodeRle ∧
  decodeCmd 0x00000005#32 = .reservedOp2 ∧ decodeCmd 0x00000007#32 = .reservedOp3 ∧
  decodeCmd 0x00000009#32 = .illegalRes 1#29 0b00#2 ∧ decodeCmd 0x00000002#32 = .noCommand 0#29 0b01#2 ∧
  decodeStream .flagByte [0xE0#8] = .ok (.lzFlag 0xE0#8, []) ∧
  decodeStream (.token true) [0x41#8] = .ok (.lzLit 0x41#8, []) ∧
  decodeStream (.token false) [0x33#8, 0x00#8] = .ok (.lzMatch 3#12 3#4, []) ∧
  decodeStream (.token false) [0xF3#8, 0xFF#8] = .ok (.lzMatch 4095#12 3#4, []) ∧
  decodeStream .packet [0x84#8, 0x41#8] = .ok (.rlRun 4#7 0x41#8, []) ∧
  decodeStream .packet [0x01#8, 0x42#8] = .ok (.rlLit [0x42#8], [])

/-! ### Commands -/

/-- 40_commands.md R140 with 30_encoding.md R103: while idle, a word with `START = 0` stores `OP` and changes nothing
else. -/
def Obligations.NoCommandStoresOp : Prop :=
  ∀ (res : BitVec 29) (op : BitVec 2) (s : State), s.status.busy = false →
    exec (.noCommand res op) s = .next { s with ctrlOp := op }

/-- 40_commands.md R144, R145 and 60_exceptions.md R282: the reserved commands, and a command with `RES` not 0, raise
`ILLEGAL_COMMAND` while idle: `OP` is stored, `STATUS` reads 0x24, and nothing else changes. -/
def Obligations.IllegalCommandsRaise : Prop :=
  ∀ (res : BitVec 29) (op : BitVec 2) (s : State), s.status.busy = false →
    decodeCmd 0x00000005#32 = .reservedOp2 ∧ decodeCmd 0x00000007#32 = .reservedOp3 ∧
    exec .reservedOp2 s = .next { s with ctrlOp := 0b10#2, status := Status.failed .illegalCommand } ∧
    exec .reservedOp3 s = .next { s with ctrlOp := 0b11#2, status := Status.failed .illegalCommand } ∧
    exec (.illegalRes res op) s = .next { s with ctrlOp := op, status := Status.failed .illegalCommand } ∧
    (Status.failed .illegalCommand).word = 0x00000024#32

/-- 60_exceptions.md R283: `LENGTH_ERROR` at the start of either codec when `LEN > IN_SIZE`, with the same absence of
effects as an illegal command. -/
def Obligations.LengthErrorAtStart : Prop :=
  ∀ s : State, s.status.busy = false → s.plat.inSize.toNat < s.len.toNat →
    exec .encodeLzss s = .next { s with ctrlOp := 0b00#2, status := Status.failed .lengthError } ∧
    exec .encodeRle s = .next { s with ctrlOp := 0b01#2, status := Status.failed .lengthError } ∧
    (Status.failed .lengthError).word = 0x00000034#32

/-- 40_commands.md R140, R142, R143: an accepted start with `LEN` not 0 clears the last outcome, latches `LEN` and `A`,
sets `BUSY`, and initialises the codec's datapath; nothing else changes. -/
def Obligations.EncodeStartLatchesAndRuns : Prop :=
  ∀ s : State, s.status.busy = false → s.len.toNat ≤ s.plat.inSize.toNat → s.len ≠ 0 → s.Launchable →
    exec .encodeLzss s = .next
      { s with ctrlOp := 0b00#2, status := { busy := true, done := false, err := false, cause := .none },
               cmd := { op := 0b00#2, n := s.len, a0 := s.a, cnt := 0 },
               lz := { s.lz with i := 0, tok := 0, flags := 0 } } ∧
    exec .encodeRle s = .next
      { s with ctrlOp := 0b01#2, status := { busy := true, done := false, err := false, cause := .none },
               cmd := { op := 0b01#2, n := s.len, a0 := s.a, cnt := 0 },
               rl := { s.rl with i := 0 } }

/-- 40_commands.md R148: an accepted command with `N = 0` completes at once, with `RESULT = 0`, `A` unchanged and no
byte written; LZSS reserves no placeholder. -/
def Obligations.EmptyInputCompletesAtStart : Prop :=
  ∀ s : State, s.status.busy = false → s.len = 0 → s.Launchable →
    ∃ t u, exec .encodeLzss s = .next t ∧ exec .encodeRle s = .next u ∧
      t.status = { busy := false, done := true, err := false, cause := .none } ∧ u.status = t.status ∧
      t.result = 0 ∧ u.result = 0 ∧ t.a = s.a ∧ u.a = s.a ∧ bytesKept s t ∧ bytesKept s u ∧
      t.readValue .result = 0 ∧ u.readValue .result = 0 ∧ t.lz.p = s.lz.p

/-- 40_commands.md R149: while busy, a write to `CTRL`, `LEN` or `A` is refused. -/
def Obligations.RegisterWritesWhileBusyRefused : Prop :=
  ∀ (s : State) (v : Word) (rest : List Input) (offset : BitVec 8), s.status.busy = true →
    offset = 0x00#8 ∨ offset = 0x08#8 ∨ offset = 0x0C#8 →
    step { s with inputs := .host (.wr offset .word v) :: rest } = .refused .registerWriteWhileBusy

/-- 70_reset_and_hazards.md R319: a launch whose input range and output range share a byte of the platform's memory is
refused. -/
def Obligations.OverlappingLaunchRefused : Prop :=
  ∀ (s : State) (x : Nat), s.status.busy = false → s.len.toNat ≤ s.plat.inSize.toNat →
    s.plat.inBase ≤ x → x < s.plat.inBase + s.len.toNat →
    s.plat.outBase + s.a.toNat ≤ x → x < s.plat.outBase + s.plat.sinkCapacity.toNat →
    exec .encodeLzss s = .refused .overlappingSpaces ∧ exec .encodeRle s = .refused .overlappingSpaces

/-- 20_memory.md R87: a launch is refused where a command of another instance that runs now holds a position of its sink
range, `A` to `SINK_CAPACITY - 1`. That this range is also the one of 70_reset_and_hazards.md R318, which speaks of the
end of the output, and that a start with `N = 0` is refused so too, is the model's choice (DEDUCED, log 24). A launch is
refused as well where that command's range in this `OUT` covers a byte of the input, so that the input stays as
20_memory.md R71 says (DESIGN CHOICE, log 26). -/
def Obligations.SharedSinkLaunchRefused : Prop :=
  ∀ (s : State) (o : Other) (x : Nat), s.status.busy = false → s.len.toNat ≤ s.plat.inSize.toNat → o ∈ s.others →
    (o.range.lo ≤ x → x < o.range.hi → s.a.toNat ≤ x → x < s.plat.sinkCapacity.toNat →
      (∃ r, exec .encodeLzss s = .refused r ∧ (r = .sharedSink ∨ r = .overlappingSpaces)) ∧
      (∃ r, exec .encodeRle s = .refused r ∧ (r = .sharedSink ∨ r = .overlappingSpaces))) ∧
    (s.plat.inBase ≤ x → x < s.plat.inBase + s.len.toNat → s.plat.outBase + o.range.lo ≤ x →
      x < s.plat.outBase + o.range.hi → x < s.plat.outBase + s.plat.sinkCapacity.toNat →
      exec .encodeLzss s = .refused .overlappingSpaces ∧ exec .encodeRle s = .refused .overlappingSpaces)

/-- 70_reset_and_hazards.md R318, 20_memory.md R87, 60_exceptions.md R295: two commands that overlap in time hold
disjoint sink ranges. A start at another instance that exists and is idle is recorded with its range where no running
command, there or here, holds a position of it and no input byte of the command that runs here lies in it, and refused
where one does; after its end its range is free again. What it writes changes no register of this instance and no byte
outside its range, so no byte of the output range and no input byte of the command that runs here; the bytes inside are
free values. The events' form, that the range is that of R87 and ends where the event says, and that a range over input
bytes is refused (20_memory.md R71), are the model's choice (log 17, log 24, log 26). -/
def Obligations.OtherInstancesHoldTheirRanges : Prop :=
  ∀ (s : State) (rest : List Input) (n : Nat) (p : Config.Span),
    (1 ≤ n → n < s.plat.instances → (∀ o ∈ s.others, o.number ≠ n) →
      (¬(∃ o ∈ s.others, ∃ x, o.range.lo ≤ x ∧ x < o.range.hi ∧ p.lo ≤ x ∧ x < p.hi) →
        (s.status.busy = true →
          ¬∃ x, s.cmd.a0.toNat ≤ x ∧ x < s.plat.sinkCapacity.toNat ∧ p.lo ≤ x ∧ x < p.hi) →
        (s.status.busy = true →
          ¬∃ x, s.plat.inBase ≤ x ∧ x < s.plat.inBase + s.cmd.n.toNat ∧ s.plat.outBase + p.lo ≤ x ∧
            x < s.plat.outBase + p.hi ∧ x < s.plat.outBase + s.plat.sinkCapacity.toNat) →
        step { s with inputs := .other (.start n p) :: rest } =
          .next { s with inputs := rest, others := { number := n, range := p } :: s.others }) ∧
      ((∃ o ∈ s.others, ∃ x, o.range.lo ≤ x ∧ x < o.range.hi ∧ p.lo ≤ x ∧ x < p.hi) ∨
        (s.status.busy = true ∧ ∃ x, s.cmd.a0.toNat ≤ x ∧ x < s.plat.sinkCapacity.toNat ∧ p.lo ≤ x ∧ x < p.hi) →
        step { s with inputs := .other (.start n p) :: rest } = .refused .sharedSink) ∧
      (s.status.busy = true →
        (∃ x, s.plat.inBase ≤ x ∧ x < s.plat.inBase + s.cmd.n.toNat ∧ s.plat.outBase + p.lo ≤ x ∧
          x < s.plat.outBase + p.hi ∧ x < s.plat.outBase + s.plat.sinkCapacity.toNat) →
        ∃ r, step { s with inputs := .other (.start n p) :: rest } = .refused r ∧
          (r = .sharedSink ∨ r = .overlappingSpaces))) ∧
    (∃ t, step { s with inputs := .other (.turn n) :: rest } = .next t ∧
      t = { s with inputs := rest, mem := t.mem, lost := t.lost, draws := t.draws } ∧
      (∀ addr, (∀ o ∈ s.others, o.number = n → addr < s.plat.outBase + o.range.lo ∨
          s.plat.outBase + min o.range.hi s.plat.sinkCapacity.toNat ≤ addr) → t.byteAt addr = s.byteAt addr) ∧
      (Inv s → s.status.busy = true →
        (∀ q, s.cmd.a0.toNat ≤ q → q < s.plat.sinkCapacity.toNat → t.outByte q = s.outByte q) ∧
        ∀ k, k < s.cmd.n.toNat → t.inByte k = s.inByte k) ∧
      (Inv s → ∀ o ∈ s.others, o.number = n → ∀ q, o.range.lo ≤ q → q < o.range.hi →
        q < s.plat.sinkCapacity.toNat → t.outByte q = Config.freeByte (s.draws + 1) (s.plat.outBase + q))) ∧
    (∃ t, step { s with inputs := .other (.stop n) :: rest } = .next t ∧
      t = { s with inputs := rest, others := t.others } ∧ ∀ o, o ∈ t.others ↔ o ∈ s.others ∧ o.number ≠ n)

/-- The frame of the command words (40_commands.md R140 to R148): none touches `LEN`, `A`, `ERRPOS` or a byte; one that
starts no engine leaves `RESULT`, the latch and both datapaths alone, and a start leaves the other codec's. -/
def Obligations.CommandWordFrame : Prop :=
  ∀ (i : Instr) (s t : State), expectOf i = .command → exec i s = .next t →
    t.len = s.len ∧ t.a = s.a ∧ t.errpos = s.errpos ∧ bytesKept s t ∧ t.plat = s.plat ∧ t.lost = s.lost ∧
    t.others = s.others ∧ t.replies = s.replies ∧ t.draws = s.draws ∧ t.inputs = s.inputs ∧ t.obs = s.obs ∧
    (i ≠ .encodeLzss → t.lz = s.lz) ∧ (i ≠ .encodeRle → t.rl = s.rl) ∧
    (t.status.done = false → t.result = s.result ∧ t.resultOpen = s.resultOpen) ∧
    ((i ≠ .encodeLzss ∧ i ≠ .encodeRle) ∨ t.status.err = true →
      t.cmd = s.cmd ∧ t.lz = s.lz ∧ t.rl = s.rl ∧ t.result = s.result ∧ t.resultOpen = s.resultOpen) ∧
    ((∃ res op, i = .noCommand res op) → t.status = s.status)

/-! ### The sink and error entry -/

/-- 43_sink.md R261: `SinkAppend` fails at `A` where `A` is at the capacity or the platform refuses, without moving `A`;
otherwise it writes the byte at `A`, nothing else, and moves `A` by one. -/
def Obligations.AppendWritesAtTheEnd : Prop :=
  ∀ (v : Byte) (s : State),
    (s.plat.sinkCapacity.toNat ≤ s.a.toNat ∨ s.sinkRefuses .append s.a.toNat = true →
      ∃ t, sinkAppend v s = .ended t ∧ FailedAt s t s.a ∧ t.a = s.a) ∧
    (s.a.toNat < s.plat.sinkCapacity.toNat → s.sinkRefuses .append s.a.toNat = false →
      ∃ t, sinkAppend v s = .going t ∧ t.a.toNat = s.a.toNat + 1 ∧ t.outByte s.a.toNat = v ∧
        bytesKeptOutside s t s.a.toNat 1 ∧ SameCommand s t ∧ t.cmd = s.cmd ∧ t.lz = s.lz ∧ t.rl = s.rl)

/-- 43_sink.md R262: `SinkPatch` below `A` overwrites one byte and leaves `A`; a refusal fails at `p` with `A` where it
was. At or above `A` its precondition is broken, and the model faults (93_implementation_defined.md P1). -/
def Obligations.PatchOverwritesOneByte : Prop :=
  ∀ (p : Word) (v : Byte) (s : State),
    (p.toNat < s.a.toNat → s.sinkRefuses .patch p.toNat = true →
      ∃ t, sinkPatch p v s = .ended t ∧ FailedAt s t p ∧ t.a = s.a) ∧
    (p.toNat < s.a.toNat → s.sinkRefuses .patch p.toNat = false →
      ∃ t, sinkPatch p v s = .going t ∧ t.a = s.a ∧ t.outByte p.toNat = v ∧ bytesKeptOutside s t p.toNat 1 ∧
        SameCommand s t ∧ t.cmd = s.cmd ∧ t.lz = s.lz ∧ t.rl = s.rl) ∧
    (s.a.toNat ≤ p.toNat → sinkPatch p v s = .faulted .patchNotBelowEnd)

/-- 60_exceptions.md R288: error entry records the position of a sink failure, sets `CAUSE` and `ERR`, clears `DONE` and
`BUSY`, and leaves `RESULT` and every other register. -/
def Obligations.ErrorEntryRecordsAndStops : Prop :=
  ∀ (e : Raise) (s : State),
    (raiseError e s).status = { busy := false, done := false, err := true, cause := e.cause } ∧
    (∀ p, e = .sinkWriteFailure p → (raiseError e s).errpos = p) ∧
    ((∀ p, e ≠ .sinkWriteFailure p) → raiseError e s = { s with status := (raiseError e s).status }) ∧
    (raiseError e s).result = s.result ∧ (raiseError e s).a = s.a ∧ (raiseError e s).len = s.len ∧
    (raiseError e s).ctrlOp = s.ctrlOp ∧ (raiseError e s).cmd = s.cmd ∧ (raiseError e s).lz = s.lz ∧
    (raiseError e s).rl = s.rl ∧ (raiseError e s).plat = s.plat ∧ (raiseError e s).others = s.others

/-- 60_exceptions.md R289: after a sink failure, `OUT` below `CMD.A0` and every other byte outside
`OUT[CMD.A0 .. SINK_CAPACITY-1]` is unchanged, every byte of that range is a free value of a fresh draw, and `RESULT`
reads as a free value (40_commands.md R147). What the failure does to `ERRPOS` and `STATUS` is stated elsewhere. That the
free values are those of a fresh epoch and of the draw counter is the model's form of `draw()` (log 6, log 7). -/
def Obligations.SinkFailureLeavesOutputUnspecified : Prop :=
  ∀ (p : Word) (s : State),
    (raiseError (.sinkWriteFailure p) s).a = s.a ∧
    (∀ addr, addr < s.plat.outBase + s.cmd.a0.toNat ∨ s.plat.outBase + s.plat.sinkCapacity.toNat ≤ addr →
      (raiseError (.sinkWriteFailure p) s).byteAt addr = s.byteAt addr) ∧
    (∀ q, s.cmd.a0.toNat ≤ q → q < s.plat.sinkCapacity.toNat →
      (raiseError (.sinkWriteFailure p) s).outByte q = Config.freeByte (s.draws + 1) (s.plat.outBase + q)) ∧
    (raiseError (.sinkWriteFailure p) s).readValue .result =
      Config.freeWord (raiseError (.sinkWriteFailure p) s).draws

/-! ### The stream rows -/

/-- 41_lzss.md R178, R180: `LZ_LIT` appends its byte, counts one, sets the token's flag bit, and leaves a stride of
1. -/
def Obligations.LiteralTokenCompletes : Prop :=
  ∀ (v : Byte) (s : State), s.acceptsAppends 1 → s.lz.tok.toNat ≤ 7 →
    ∃ t, exec (.lzLit v) s = .next t ∧ SameCommand s t ∧ t.a.toNat = s.a.toNat + 1 ∧ t.outByte s.a.toNat = v ∧
      bytesKeptOutside s t s.a.toNat 1 ∧ t.cmd = { s.cmd with cnt := s.cmd.cnt + 1 } ∧ t.rl = s.rl ∧
      t.lz = { s.lz with flags := t.lz.flags, tok := s.lz.tok + 1, stride := 1 } ∧
      t.lz.flags.getLsbD (7 - s.lz.tok.toNat) = true ∧
      ∀ b, b ≠ 7 - s.lz.tok.toNat → t.lz.flags.getLsbD b = s.lz.flags.getLsbD b

/-- 41_lzss.md R179, R180 with 20_memory.md R73: `LZ_MATCH` appends the low byte and then the high byte of
`(dist << 4) | len`, counts two, clears the token's flag bit, and leaves a stride of `len`. -/
def Obligations.MatchTokenCompletes : Prop :=
  ∀ (dist : BitVec 12) (len : BitVec 4) (s : State), s.acceptsAppends 2 → s.lz.tok.toNat ≤ 7 →
    ∃ t, exec (.lzMatch dist len) s = .next t ∧ SameCommand s t ∧ t.a.toNat = s.a.toNat + 2 ∧
      (t.outByte s.a.toNat).toNat = (dist.toNat * 16 + len.toNat) % 256 ∧
      (t.outByte (s.a.toNat + 1)).toNat = (dist.toNat * 16 + len.toNat) / 256 ∧
      bytesKeptOutside s t s.a.toNat 2 ∧ t.cmd = { s.cmd with cnt := s.cmd.cnt + 2 } ∧ t.rl = s.rl ∧
      t.lz = { s.lz with flags := t.lz.flags, tok := s.lz.tok + 1, stride := len } ∧
      t.lz.flags.getLsbD (7 - s.lz.tok.toNat) = false ∧
      ∀ b, b ≠ 7 - s.lz.tok.toNat → t.lz.flags.getLsbD b = s.lz.flags.getLsbD b

/-- 41_lzss.md R182: `LZ_FLAG` patches its byte into the placeholder at `LZ.P`, which lies below `A`, and closes the
group; `A` and `CNT` do not move. -/
def Obligations.GroupCommitCompletes : Prop :=
  ∀ (f : Byte) (s : State), s.lz.p.toNat < s.a.toNat → s.sinkRefuses .patch s.lz.p.toNat = false →
    ∃ t, exec (.lzFlag f) s = .next t ∧ SameCommand s t ∧ t.a = s.a ∧ t.outByte s.lz.p.toNat = f ∧
      bytesKeptOutside s t s.lz.p.toNat 1 ∧ t.cmd = s.cmd ∧ t.rl = s.rl ∧ t.lz = { s.lz with tok := 0 }

/-- 42_rle.md R224: `RL_RUN` appends `0x80 | r` and the value, counts two, and advances by `r`. -/
def Obligations.RunPacketCompletes : Prop :=
  ∀ (r : BitVec 7) (v : Byte) (s : State), s.acceptsAppends 2 →
    ∃ t, exec (.rlRun r v) s = .next t ∧ SameCommand s t ∧ t.a.toNat = s.a.toNat + 2 ∧
      (t.outByte s.a.toNat).toNat = 128 + r.toNat ∧ t.outByte (s.a.toNat + 1) = v ∧
      bytesKeptOutside s t s.a.toNat 2 ∧ t.cmd = { s.cmd with cnt := s.cmd.cnt + 2 } ∧ t.lz = s.lz ∧
      t.rl = { s.rl with i := s.rl.i + BitVec.ofNat 32 r.toNat }

/-- 42_rle.md R226: `RL_LIT` appends the length and the bytes verbatim, counts one more than its length, and advances by
its length. -/
def Obligations.LiteralPacketCompletes : Prop :=
  ∀ (bs : List Byte) (s : State), (Instr.rlLit bs).wellFormed = true → s.acceptsAppends (1 + bs.length) →
    ∃ t, exec (.rlLit bs) s = .next t ∧ SameCommand s t ∧ t.a.toNat = s.a.toNat + 1 + bs.length ∧
      (t.outByte s.a.toNat).toNat = bs.length ∧ t.outBytes (s.a.toNat + 1) bs.length = bs ∧
      bytesKeptOutside s t s.a.toNat (1 + bs.length) ∧
      t.cmd = { s.cmd with cnt := s.cmd.cnt + BitVec.ofNat 32 (1 + bs.length) } ∧ t.lz = s.lz ∧
      t.rl = { s.rl with i := s.rl.i + BitVec.ofNat 32 bs.length }

/-- 60_exceptions.md R281, R288 with 20_memory.md R81: from any state whose append pointer has not passed below its
start, a row that appends either appends its whole encoding and touches no other byte, or fails at one of its bytes,
with `A` at the failing position and every byte outside the command's output range unchanged. It never faults. -/
def Obligations.AppendingRowsCompleteOrFail : Prop :=
  ∀ (i : Instr) (s : State), (∃ v, i = .lzLit v) ∨ (∃ d l, i = .lzMatch d l) ∨ (∃ r v, i = .rlRun r v) ∨
      (∃ bs, i = .rlLit bs) → s.cmd.a0.toNat ≤ s.a.toNat →
    ∃ t, exec i s = .next t ∧
      ((SameCommand s t ∧ t.a.toNat = s.a.toNat + (encodeBytes i).length ∧
          t.outBytes s.a.toNat (encodeBytes i).length = encodeBytes i ∧
          bytesKeptOutside s t s.a.toNat (encodeBytes i).length) ∨
        ∃ k, k < (encodeBytes i).length ∧ FailedAt s t (s.a + BitVec.ofNat 32 k) ∧ t.a.toNat = s.a.toNat + k)

/-- 41_lzss.md R182, 43_sink.md R262: the frame of `LZ_FLAG`. A next state of it has either one byte changed, the
placeholder's, or is the failure at `LZ.P`; `A` is where it was. It stops exactly where the precondition `LZ.P < A`
is broken (93_implementation_defined.md P1). -/
def Obligations.GroupCommitFrame : Prop :=
  ∀ (f : Byte) (s : State),
    (s.a.toNat ≤ s.lz.p.toNat → exec (.lzFlag f) s = .fault .patchNotBelowEnd) ∧
    (s.lz.p.toNat < s.a.toNat →
      ∃ t, exec (.lzFlag f) s = .next t ∧ t.a = s.a ∧ t.cmd = s.cmd ∧ t.rl = s.rl ∧
        ((SameCommand s t ∧ bytesKeptOutside s t s.lz.p.toNat 1 ∧ t.lz = { s.lz with tok := 0 }) ∨
          (FailedAt s t s.lz.p ∧ t.lz = s.lz)))

/-! ### The engines -/

/-- 41_lzss.md R174 to R176, R187: after `LZ_FIND` at a scan position below `N`, no candidate of the window has a longer
common run, capped at `min(15, N - i)`; a best of at least 1 is that of the smallest, most distant, candidate that has
it; `dist` is its distance; with no candidate the best is 0. -/
def Obligations.MatchFinderPicksLongestMostDistant : Prop :=
  ∀ s : State, s.lz.i.toNat < s.cmd.n.toNat →
    (lzFind s).lz.i = s.lz.i ∧
    (lzFind s).lz.bestLen.toNat ≤ min 15 (s.cmd.n.toNat - s.lz.i.toNat) ∧
    (∀ c j, inWindow s.lz.i.toNat c → j ≤ min 15 (s.cmd.n.toNat - s.lz.i.toNat) →
      agree s.inByte c s.lz.i.toNat j → j ≤ (lzFind s).lz.bestLen.toNat) ∧
    (s.lz.i = 0 → (lzFind s).lz.bestLen = 0) ∧
    (1 ≤ (lzFind s).lz.bestLen.toNat →
      inWindow s.lz.i.toNat (lzFind s).lz.bestStart.toNat ∧
      agree s.inByte (lzFind s).lz.bestStart.toNat s.lz.i.toNat (lzFind s).lz.bestLen.toNat ∧
      (∀ c, inWindow s.lz.i.toNat c → c < (lzFind s).lz.bestStart.toNat →
        ¬agree s.inByte c s.lz.i.toNat (lzFind s).lz.bestLen.toNat) ∧
      (lzFind s).lz.dist.toNat = s.lz.i.toNat - (lzFind s).lz.bestStart.toNat)

/-- 41_lzss.md R177 with R190 and R191: token selection. At a scan position below `N` the token is the literal
`IN[LZ.i]` where the best match is shorter than 3, and otherwise the match of the distance and the length found; at scan
position 0 it is always a literal, `IN[0]`. -/
def Obligations.FirstTokenIsLiteral : Prop :=
  ∀ s : State,
    (s.lz.i.toNat < s.cmd.n.toNat →
      ((lzFind s).lz.bestLen.toNat < 3 → lzToken (lzFind s) = .lzLit (s.inByte s.lz.i.toNat)) ∧
      (3 ≤ (lzFind s).lz.bestLen.toNat →
        lzToken (lzFind s) = .lzMatch (lzFind s).lz.dist (lzFind s).lz.bestLen)) ∧
    (s.lz.i = 0 → lzToken (lzFind s) = .lzLit (s.inByte 0))

/-- 41_lzss.md R172, 43_sink.md R267: opening a group caches `A` in `LZ.P`, appends 0x00 there, counts one and clears the
flag bits. -/
def Obligations.OpenGroupReservesPlaceholder : Prop :=
  ∀ s : State, s.acceptsAppends 1 →
    ∃ t, lzOpenGroup s = .going t ∧ SameCommand s t ∧ t.lz = { s.lz with p := s.a, flags := 0 } ∧
      t.a.toNat = s.a.toNat + 1 ∧ t.outByte s.a.toNat = 0 ∧ bytesKeptOutside s t s.a.toNat 1 ∧
      t.cmd = { s.cmd with cnt := s.cmd.cnt + 1 } ∧ t.rl = s.rl

/-- 41_lzss.md R180: `FLAG_ACC(b)` writes `b` into bit `7 - tok`, leaves the other seven bits, and steps `tok`. -/
def Obligations.FlagAccumulatorWritesOneBit : Prop :=
  ∀ (lz : LzRegs) (b : Bool) (k : Nat), lz.tok.toNat ≤ 7 → k ≤ 7 →
    (lz.flagAcc b).flags.getLsbD k = (if k = 7 - lz.tok.toNat then b else lz.flags.getLsbD k) ∧
    (lz.flagAcc b).tok.toNat = lz.tok.toNat + 1 ∧
    lz.flagAcc b = { lz with flags := (lz.flagAcc b).flags, tok := (lz.flagAcc b).tok }

/-- 42_rle.md R222: at a scan position below `N`, `RL_MEASURE` leaves in `RL.r` the length of the run of bytes equal to
`IN[RL.i]`, capped at 127 and at the end of the input. -/
def Obligations.RunDetectorMeasuresTheRun : Prop :=
  ∀ s : State, s.rl.i.toNat < s.cmd.n.toNat →
    1 ≤ (rlMeasure s).rl.r.toNat ∧
    runOf s.inByte s.cmd.n.toNat s.rl.i.toNat (rlMeasure s).rl.r.toNat ∧
    ((rlMeasure s).rl.r.toNat < 127 →
      ¬runOf s.inByte s.cmd.n.toNat s.rl.i.toNat ((rlMeasure s).rl.r.toNat + 1)) ∧
    rlMeasure s = { s with rl := { s.rl with r := (rlMeasure s).rl.r } }

/-- 42_rle.md R225: at a scan position below `N`, `RL_SCAN_LIT` leaves in `RL.e` the end of the literal span: at most 127
bytes, inside the input, no run of three at a byte of it after its first, and stopped only by the cap, by the end of
the input, or by a run of three at its end. -/
def Obligations.LiteralSpanStopsWhereTheRuleSays : Prop :=
  ∀ s : State, s.rl.i.toNat < s.cmd.n.toNat →
    s.rl.i.toNat < (rlScanLit s).rl.e.toNat ∧ (rlScanLit s).rl.e.toNat ≤ s.cmd.n.toNat ∧
    (rlScanLit s).rl.l.toNat = (rlScanLit s).rl.e.toNat - s.rl.i.toNat ∧ (rlScanLit s).rl.l.toNat ≤ 127 ∧
    (∀ x, s.rl.i.toNat < x → x < (rlScanLit s).rl.e.toNat → ¬runOf s.inByte s.cmd.n.toNat x 3) ∧
    ((rlScanLit s).rl.l.toNat = 127 ∨ (rlScanLit s).rl.e.toNat = s.cmd.n.toNat ∨
      runOf s.inByte s.cmd.n.toNat (rlScanLit s).rl.e.toNat 3)

/-- 42_rle.md R222 to R226, R231: the packet at a scan position below `N` is a run packet exactly where a run of three
equal bytes starts there, and it carries the length that `RL_MEASURE` measured and the first byte; otherwise it is the
literal packet of the input bytes that `RL_SCAN_LIT` spanned, verbatim. -/
def Obligations.RunOfThreeIsARunPacket : Prop :=
  ∀ s : State, s.rl.i.toNat < s.cmd.n.toNat →
    (runOf s.inByte s.cmd.n.toNat s.rl.i.toNat 3 →
      rlPacket (rlPrepare s) = .rlRun (rlMeasure s).rl.r (s.inByte s.rl.i.toNat) ∧
        runOf s.inByte s.cmd.n.toNat s.rl.i.toNat (rlMeasure s).rl.r.toNat) ∧
    (¬runOf s.inByte s.cmd.n.toNat s.rl.i.toNat 3 →
      rlPacket (rlPrepare s) = .rlLit (s.inBytes s.rl.i.toNat (rlScanLit (rlMeasure s)).rl.l.toNat) ∧
        s.rl.i.toNat + (rlScanLit (rlMeasure s)).rl.l.toNat ≤ s.cmd.n.toNat)

/-- 30_encoding.md R113, 41_lzss.md R177: the row the engine performs next is well formed, so the block never emits a
match shorter than 3 or at distance 0, a run below 3, or an empty literal packet. And the flag byte that a group's
commit leaves in `OUT` has 0 in every bit that describes no token (30_encoding.md R105): from a state of the invariant,
an LZSS engine turn that does not fail and closes the group (of the tokens it had and the one of this turn) leaves at
the placeholder `LZ.P` a byte whose bits `7 - j` are 0 for every `j` at or above the number of tokens. -/
def Obligations.EngineRowsAreWellFormed : Prop :=
  (∀ s : State,
    (s.lz.i.toNat < s.cmd.n.toNat → (lzToken (lzFind s)).wellFormed = true) ∧
    (s.rl.i.toNat < s.cmd.n.toNat → (rlPacket (rlPrepare s)).wellFormed = true)) ∧
  ∀ s t : State, Inv s → s.status.busy = true → s.cmd.op = 0b00#2 → engineStep s = .next t → t.status.err = false →
    t.lz.tok = 0 →
    t.lz.p = (if s.lz.tok = 0 then s.a else s.lz.p) ∧
    ∀ j, s.lz.tok.toNat + 1 ≤ j → j ≤ 7 → (t.outByte t.lz.p.toNat).getLsbD (7 - j) = false

/-! ### Steps -/

/-- 40_commands.md R140, 30_encoding.md R115: a `CTRL` write that stands first is decoded and executed, whatever follows
it. -/
def Obligations.StepRunsTheCommandWord : Prop :=
  ∀ (s : State) (w : Word) (rest : List Input),
    step { s with inputs := .host (.wr 0x00#8 .word w) :: rest } = exec (decodeCmd w) { s with inputs := rest }

/-- 41_lzss.md R170, 42_rle.md R220, 92_eei_decisions.md D31: where an engine turn stands first in the queue, or nothing is
queued, the step is the engine's turn, on the rest of the queue. An idle engine's turn does nothing (60_exceptions.md
R297). A busy engine's is one iteration of its codec's loop: what comes before the row, then `exec` of the row it
selects, then what comes after it; each goes on only while the command runs. That an empty queue lets the engine move is
the model's choice (log 1), and that completion belongs to the last iteration's own step is DEDUCED (log 10). -/
def Obligations.StepRunsTheEngineRow : Prop :=
  ∀ s u : State, (s.inputs = [] ∧ u = s) ∨ (∃ rest, s.inputs = .engine :: rest ∧ u = { s with inputs := rest }) →
    step s = engineStep u ∧
    (s.status.busy = false → step s = .next u) ∧
    (s.status.busy = true → s.cmd.op = 0b00#2 → s.lz.i.toNat < s.cmd.n.toNat →
      step s =
        whileBusy
          (whileBusy
            (whileBusy (if u.lz.tok = 0 then (lzOpenGroup u).outcome else .next u)
              fun t => exec (lzToken (lzFind t)) (lzFind t))
            fun t =>
              if (lzAdvance t).lz.tok = 8 ∨ (lzAdvance t).cmd.n.toNat ≤ (lzAdvance t).lz.i.toNat then
                exec (.lzFlag (lzAdvance t).lz.flags) (lzAdvance t)
              else .next (lzAdvance t))
          fun t => if t.lz.i.toNat < t.cmd.n.toNat then .next t else .next t.complete) ∧
    (s.status.busy = true → s.cmd.op = 0b01#2 → s.rl.i.toNat < s.cmd.n.toNat →
      step s =
        whileBusy (exec (rlPacket (rlPrepare u)) (rlPrepare u)) fun t =>
          if t.rl.i.toNat < t.cmd.n.toNat then .next t else .next t.complete)

/-- 60_exceptions.md R297: when not busy, with nothing to meet, the block does nothing. -/
def Obligations.IdleBlockDoesNothing : Prop :=
  ∀ s : State, s.status.busy = false → s.inputs = [] → step s = .next s

/-! ### Invariants -/

/-- The invariant holds at the state after reset. -/
def Obligations.InvariantAtReset : Prop := Inv State.reset

/-- 10_state.md R35, R41 to R45, 41_lzss.md R182, R183, 42_rle.md R227, 43_sink.md R265: every step keeps the invariant:
the platform's parameters legal (00_scope.md R9), the sink ranges of all running commands disjoint
(70_reset_and_hazards.md R318) and clear of the running command's input (the model's choice, log 26), the memory's
canonical form, the consistency of `STATUS`, the latch of the running command, and the datapath between two engine
steps. -/
def Obligations.StepKeepsInvariant : Prop :=
  ∀ s t : State, Inv s → step s = .next t → Inv t

/-- 20_memory.md R71, 70_reset_and_hazards.md R315: while a command runs, no step changes a byte of its input: not the
engine's turn, not a host transaction, not a reset, and no event of another instance, since one whose range covers the
input is refused (DESIGN CHOICE, log 26). -/
def Obligations.HeldInputIsStable : Prop :=
  ∀ s t : State, Inv s → s.status.busy = true → step s = .next t → ∀ k, k < s.cmd.n.toNat → t.inByte k = s.inByte k

/-- 41_lzss.md R183, 42_rle.md R227: a busy engine's turn never stops by a fault or a refusal, keeps the latched
parameters, and either ends the command or moves the scan position on, still below `N`. -/
def Obligations.EngineTurnAdvancesOrEnds : Prop :=
  ∀ s : State, Inv s → s.status.busy = true →
    ∃ t, engineStep s = .next t ∧ t.cmd.op = s.cmd.op ∧ t.cmd.n = s.cmd.n ∧ t.cmd.a0 = s.cmd.a0 ∧
      (t.status.busy = true → s.scanPos < t.scanPos ∧ t.scanPos < t.cmd.n.toNat)

/-- 70_reset_and_hazards.md R321: with no input in the way, every command ends, after at most as many engine steps as
input bytes are left. -/
def Obligations.EveryCommandEnds : Prop :=
  ∀ s : State, Inv s → s.status.busy = true → s.inputs = [] →
    ∃ t : State, Host.Core.run Sys2Proof.core (s.cmd.n.toNat - s.scanPos) s = .next t ∧ t.status.busy = false

/-- 40_commands.md R146, R147, 41_lzss.md R184, 42_rle.md R228, 10_state.md R37: a command that completes leaves in
`RESULT` the number of bytes appended, so that `A` is its start plus `RESULT`, and a read of `RESULT` returns it. -/
def Obligations.CompletedResultCountsTheAppends : Prop :=
  ∀ s t : State, Inv s → s.status.busy = true → engineStep s = .next t → t.status.done = true →
    t.status = { busy := false, done := true, err := false, cause := .none } ∧
    t.result = t.cmd.cnt ∧ t.a.toNat = s.cmd.a0.toNat + t.result.toNat ∧ t.cmd.a0 = s.cmd.a0 ∧
    t.readValue .result = t.cmd.cnt ∧ t.errpos = s.errpos

/-- 60_exceptions.md R281, R287, R289: a command that ends in error reports `SINK_WRITE_FAILURE` at a position of its own
output at or below `A`, leaves `RESULT` in the register and reading as a free value. -/
def Obligations.FailedCommandReportsItsPosition : Prop :=
  ∀ s t : State, Inv s → s.status.busy = true → engineStep s = .next t → t.status.err = true →
    t.status = { busy := false, done := false, err := true, cause := .sinkWriteFailure } ∧
    s.cmd.a0.toNat ≤ t.errpos.toNat ∧ t.errpos.toNat ≤ t.a.toNat ∧ t.result = s.result ∧ t.resultOpen = true

/-- 41_lzss.md R185, 42_rle.md R229: every step keeps the size bounds, the input of a running command staying as it is
(`HeldInputIsStable`, with log 26). A completed LZSS command of `N` bytes wrote from 2
to `N + ceil(N/8)` bytes, a completed RLE command from 2 to `N + ceil(N/127)`. -/
def Obligations.StepKeepsSizeBounds : Prop :=
  ∀ s t : State, Inv s → SizeInv s → step s = .next t → SizeInv t

/-- 41_lzss.md R189: the LZSS stream written so far decodes to the input read so far, from one engine step to the next;
and the finished stream of a completed command decodes to its whole input. -/
def Obligations.LzssStreamDecodesToTheInput : Prop :=
  ∀ s t : State, Inv s → s.status.busy = true → s.cmd.op = 0b00#2 → LzDecodesSoFar s → engineStep s = .next t →
    (t.status.busy = true → LzDecodesSoFar t) ∧
    (t.status.done = true → lzDecode t.cmd.n.toNat t.finishedStream = some (t.inBytes 0 t.cmd.n.toNat))

/-- 42_rle.md R231: the RLE stream written so far decodes to the input read so far, from one engine step to the next; and
the finished stream of a completed command decodes to its whole input. -/
def Obligations.RleStreamDecodesToTheInput : Prop :=
  ∀ s t : State, Inv s → s.status.busy = true → s.cmd.op = 0b01#2 → RlDecodesSoFar s → engineStep s = .next t →
    (t.status.busy = true → RlDecodesSoFar t) ∧
    (t.status.done = true → rleDecode t.finishedStream = some (t.inBytes 0 t.cmd.n.toNat))

/-- 41_lzss.md R189, 42_rle.md R231: round trip of a whole run. Start a command from an idle state and let the engine run
for any number of steps: if it has then completed, the reference decoder gives back the input. -/
def Obligations.CompletedRunRoundTrips : Prop :=
  ∀ (s u t : State) (k : Nat), Inv s → s.inputs = [] → s.status.busy = false →
    (exec .encodeLzss s = .next u → Host.Core.run Sys2Proof.core k u = .next t → t.status.done = true →
      lzDecode s.len.toNat (t.outBytes s.a.toNat t.result.toNat) = some (s.inBytes 0 s.len.toNat)) ∧
    (exec .encodeRle s = .next u → Host.Core.run Sys2Proof.core k u = .next t → t.status.done = true →
      rleDecode (t.outBytes s.a.toNat t.result.toNat) = some (s.inBytes 0 s.len.toNat))

/-- 20_memory.md R71, R72, 43_sink.md R265: an engine turn changes no byte outside the command's output range, so no
input byte of the command and no byte of `OUT` below `CMD.A0`. -/
def Obligations.EngineTurnKeepsOtherBytes : Prop :=
  ∀ s t : State, Inv s → s.status.busy = true → engineStep s = .next t →
    bytesKeptBut s t s.heldOutput ∧ (∀ k, k < s.cmd.n.toNat → t.inByte k = s.inByte k) ∧
    (∀ p, p < s.cmd.a0.toNat → t.outByte p = s.outByte p)

/-- 10_state.md R39, 60_exceptions.md R290: `ERRPOS` changes only at a `SINK_WRITE_FAILURE` or by a reset. -/
def Obligations.ErrposChangesOnlyAtAFailureOrReset : Prop :=
  ∀ s t : State, step s = .next t → t.errpos ≠ s.errpos →
    (t.status.err = true ∧ t.status.cause = .sinkWriteFailure) ∨ ∃ rest, s.inputs = .reset :: rest

/-- 10_state.md R36, R33: `LEN` changes only by a host write of it or a reset. That no step changes the platform's
parameters (00_scope.md R9 leaves them open, 20_memory.md R79 the placement) is the model's choice (DESIGN CHOICE, log 2
and log 16). -/
def Obligations.LenChangesOnlyByTheHost : Prop :=
  ∀ s t : State, step s = .next t →
    t.plat = s.plat ∧
    (t.len ≠ s.len → (∃ v rest, s.inputs = .host (.wr 0x08#8 .word v) :: rest ∧ t.len = v) ∨
      ∃ rest, s.inputs = .reset :: rest)

/-! ### The host's side -/

/-- 10_state.md R40: register reads. `STATUS`, `CTRL` and `LEN` return their value always: `STATUS` is `BUSY` at bit 0,
`DONE` at bit 1, `ERR` at bit 2 and `CAUSE` at bits 7:4 with the codes 0 to 3 (10_state.md R35, 60_exceptions.md R280),
its other bits 0. `A`, `RESULT` and `ERRPOS` return it while idle and a free value while busy, and `RESULT` a free value
while idle too where a sink failure left it open (40_commands.md R147; the free values are drawn as log 7 says). A write
to a read-only register changes nothing; a read or a write at a reserved offset is refused. -/
def Obligations.RegisterAccessRules : Prop :=
  ∀ (s : State) (rest : List Input) (v : Word),
    step { s with inputs := .host (.rd 0x00#8 .word) :: rest } =
      .next { s with inputs := rest, obs := s.obs ++ [.reg .ctrl (0#29 ++ s.ctrlOp ++ 0#1)] } ∧
    step { s with inputs := .host (.rd 0x04#8 .word) :: rest } =
      .next { s with inputs := rest, obs := s.obs ++ [.reg .status
        (0#24 ++ (if s.status.cause = .none then 0#4 else if s.status.cause = .sinkWriteFailure then 1#4
          else if s.status.cause = .illegalCommand then 2#4 else 3#4) ++ 0#1 ++
          (if s.status.err then 1#1 else 0#1) ++ (if s.status.done then 1#1 else 0#1) ++
          (if s.status.busy then 1#1 else 0#1))] } ∧
    step { s with inputs := .host (.rd 0x08#8 .word) :: rest } =
      .next { s with inputs := rest, obs := s.obs ++ [.reg .len s.len] } ∧
    (s.status.busy = false →
      step { s with inputs := .host (.rd 0x0C#8 .word) :: rest } =
        .next { s with inputs := rest, obs := s.obs ++ [.reg .a s.a] } ∧
      step { s with inputs := .host (.rd 0x14#8 .word) :: rest } =
        .next { s with inputs := rest, obs := s.obs ++ [.reg .errpos s.errpos] } ∧
      (s.resultOpen = false → step { s with inputs := .host (.rd 0x10#8 .word) :: rest } =
        .next { s with inputs := rest, obs := s.obs ++ [.reg .result s.result] }) ∧
      (s.resultOpen = true → step { s with inputs := .host (.rd 0x10#8 .word) :: rest } =
        .next { s with inputs := rest, draws := s.draws + 1,
                       obs := s.obs ++ [.reg .result (Config.freeWord s.draws)] })) ∧
    (s.status.busy = true → ∀ offset r, Reg.ofOffset offset = some r → r = .a ∨ r = .result ∨ r = .errpos →
      step { s with inputs := .host (.rd offset .word) :: rest } =
        .next { s with inputs := rest, draws := s.draws + 1, obs := s.obs ++ [.reg r (Config.freeWord s.draws)] }) ∧
    (∀ offset r, Reg.ofOffset offset = some r → r = .status ∨ r = .result ∨ r = .errpos →
      step { s with inputs := .host (.wr offset .word v) :: rest } = .next { s with inputs := rest }) ∧
    (∀ offset : BitVec 8, 0x18 ≤ offset.toNat → offset.toNat % 4 = 0 →
      step { s with inputs := .host (.wr offset .word v) :: rest } = .refused .reservedOffset ∧
      step { s with inputs := .host (.rd offset .word) :: rest } = .refused .reservedOffset)

/-- 20_memory.md R75: a sub-word or misaligned register access is refused, read or write, busy or not. -/
def Obligations.BadRegisterAccessRefused : Prop :=
  ∀ (s : State) (rest : List Input) (v : Word) (offset : BitVec 8) (size : AccessSize),
    size ≠ .word ∨ offset.toNat % 4 ≠ 0 →
    step { s with inputs := .host (.wr offset size v) :: rest } = .refused .badRegisterAccess ∧
    step { s with inputs := .host (.rd offset size) :: rest } = .refused .badRegisterAccess

/-- 20_memory.md R78, 10_state.md R36, R37: while idle, a write to `LEN` or `A` only stores the value, any value. -/
def Obligations.LenAndAWritesOnlyStore : Prop :=
  ∀ (s : State) (rest : List Input) (v : Word), s.status.busy = false →
    step { s with inputs := .host (.wr 0x08#8 .word v) :: rest } = .next { s with inputs := rest, len := v } ∧
    step { s with inputs := .host (.wr 0x0C#8 .word v) :: rest } = .next { s with inputs := rest, a := v }

/-- 70_reset_and_hazards.md R315: while busy, a host write to any of `IN[0 .. CMD.N - 1]` is refused. -/
def Obligations.HeldInputWritesRefused : Prop :=
  ∀ (s : State) (rest : List Input) (k j : Nat) (bytes : List Byte), s.status.busy = true →
    k + bytes.length ≤ s.plat.inSize.toNat → k ≤ j → j < k + bytes.length → j < s.cmd.n.toNat →
    step { s with inputs := .host (.fill .input k bytes) :: rest } = .refused .inputHeld

/-- 70_reset_and_hazards.md R316: while busy, a host read or write of any of `OUT[CMD.A0 .. SINK_CAPACITY - 1]` is
refused. A write that meets held input at the same addresses too is refused under that name (the model's choice, log 21
and log 25). -/
def Obligations.OutputThatIsNotFinalRefused : Prop :=
  ∀ (s : State) (rest : List Input) (k n j : Nat) (bytes : List Byte), s.status.busy = true → bytes.length = n →
    k + n ≤ s.plat.sinkCapacity.toNat → k ≤ j → j < k + n → s.cmd.a0.toNat ≤ j →
    step { s with inputs := .host (.dump .output k n) :: rest } = .refused .outputNotFinal ∧
    (step { s with inputs := .host (.fill .output k bytes) :: rest } = .refused .outputNotFinal ∨
      step { s with inputs := .host (.fill .output k bytes) :: rest } = .refused .inputHeld)

/-- 30_encoding.md R115, 10_state.md R48: while idle, `FILL` writes exactly its bytes into `IN` and changes no register;
`DUMP` of `OUT` observes its bytes and changes no byte. -/
def Obligations.FillAndDumpWhileIdle : Prop :=
  ∀ (s : State) (rest : List Input) (k n : Nat) (bytes : List Byte), s.status.busy = false →
    (k + bytes.length ≤ s.plat.inSize.toNat →
      ∃ t, step { s with inputs := .host (.fill .input k bytes) :: rest } = .next t ∧ t.inBytes k bytes.length = bytes ∧
        (∀ addr, addr < s.plat.inBase + k ∨ s.plat.inBase + k + bytes.length ≤ addr → t.byteAt addr = s.byteAt addr) ∧
        t = { s with inputs := rest, mem := t.mem }) ∧
    (k + n ≤ s.plat.sinkCapacity.toNat →
      step { s with inputs := .host (.dump .output k n) :: rest } =
        .next { s with inputs := rest, obs := s.obs ++ [.bytes .output k (s.outBytes k n)] })

/-- 30_encoding.md R115: `WAIT` reads `STATUS`; while `BUSY = 1` it polls again after an engine turn (the interleaving is
the model's choice, log 9), and with `BUSY = 0` it ends. What it reads is the word of 10_state.md R35: `CAUSE` at bits
7:4 (the codes of 60_exceptions.md R280), `ERR` at bit 2, `DONE` at bit 1, `BUSY` at bit 0. -/
def Obligations.WaitPollsUntilIdle : Prop :=
  ∀ (s : State) (rest : List Input) (code : BitVec 4),
    code = (if s.status.cause = .none then 0#4 else if s.status.cause = .sinkWriteFailure then 1#4
      else if s.status.cause = .illegalCommand then 2#4 else 3#4) →
    (s.status.busy = false → step { s with inputs := .host .wait :: rest } =
      .next { s with inputs := rest, obs := s.obs ++ [.reg .status (0#24 ++ code ++ 0#1 ++
        (if s.status.err then 1#1 else 0#1) ++ (if s.status.done then 1#1 else 0#1) ++ 0#1)] }) ∧
    (s.status.busy = true → step { s with inputs := .host .wait :: rest } =
      .next { s with inputs := .engine :: .host .wait :: rest, obs := s.obs ++ [.reg .status (0#24 ++ code ++ 0#1 ++
        (if s.status.err then 1#1 else 0#1) ++ (if s.status.done then 1#1 else 0#1) ++ 1#1)] })

/-- 70_reset_and_hazards.md R310, R312: a reset input sets the six registers to 0 and the block idle. A command in flight
is abandoned: the bytes of its output range become unspecified and every other byte is unchanged. While idle no byte
changes. That the unspecified bytes are the free values of a fresh epoch is the model's form of `draw()` (DESIGN CHOICE,
log 6), and so is that other instances run on (log 17). -/
def Obligations.ResetInputClearsTheRegisters : Prop :=
  ∀ (s : State) (rest : List Input),
    ∃ t, step { s with inputs := .reset :: rest } = .next t ∧
      (∀ r, t.readValue r = 0) ∧ t.status = { busy := false, done := false, err := false, cause := .none } ∧
      t.plat = s.plat ∧ t.others = s.others ∧ t.inputs = rest ∧ t.obs = s.obs ∧
      (s.status.busy = false → bytesKept s t) ∧
      (s.status.busy = true →
        bytesKeptBut s t s.heldOutput ∧
        ∀ q, s.cmd.a0.toNat ≤ q → q < s.plat.sinkCapacity.toNat →
          t.outByte q = Config.freeByte (s.draws + 1) (s.plat.outBase + q))

/-- 10_state.md R33: the reset values of the six registers, read after reset. -/
def Obligations.RegistersReadZeroAfterReset : Prop :=
  State.reset.readValue .ctrl = 0 ∧ State.reset.readValue .status = 0 ∧ State.reset.readValue .len = 0 ∧
  State.reset.readValue .a = 0 ∧ State.reset.readValue .result = 0 ∧ State.reset.readValue .errpos = 0
end

