-- ==== Sys2Proof/Laws/State.lean ====
section
/-! SUPPORT. One lemma per field per named update of the state, so that no later proof unfolds a record update. -/

namespace Sys2Proof.Machine

open Sys2Proof

/-! ### State.writeByte -/

@[simp] theorem State.writeByte_ctrlOp (s : State) (addr : Nat) (v : Byte) :
    (s.writeByte addr v).ctrlOp = s.ctrlOp := rfl
@[simp] theorem State.writeByte_status (s : State) (addr : Nat) (v : Byte) :
    (s.writeByte addr v).status = s.status := rfl
@[simp] theorem State.writeByte_len (s : State) (addr : Nat) (v : Byte) : (s.writeByte addr v).len = s.len := rfl
@[simp] theorem State.writeByte_a (s : State) (addr : Nat) (v : Byte) : (s.writeByte addr v).a = s.a := rfl
@[simp] theorem State.writeByte_result (s : State) (addr : Nat) (v : Byte) :
    (s.writeByte addr v).result = s.result := rfl
@[simp] theorem State.writeByte_errpos (s : State) (addr : Nat) (v : Byte) :
    (s.writeByte addr v).errpos = s.errpos := rfl
@[simp] theorem State.writeByte_cmd (s : State) (addr : Nat) (v : Byte) : (s.writeByte addr v).cmd = s.cmd := rfl
@[simp] theorem State.writeByte_lz (s : State) (addr : Nat) (v : Byte) : (s.writeByte addr v).lz = s.lz := rfl
@[simp] theorem State.writeByte_rl (s : State) (addr : Nat) (v : Byte) : (s.writeByte addr v).rl = s.rl := rfl
@[simp] theorem State.writeByte_mem (s : State) (addr : Nat) (v : Byte) :
    (s.writeByte addr v).mem = Memory.setByte s.mem addr v := rfl
@[simp] theorem State.writeByte_lost (s : State) (addr : Nat) (v : Byte) : (s.writeByte addr v).lost = s.lost := rfl
@[simp] theorem State.writeByte_resultOpen (s : State) (addr : Nat) (v : Byte) :
    (s.writeByte addr v).resultOpen = s.resultOpen := rfl
@[simp] theorem State.writeByte_plat (s : State) (addr : Nat) (v : Byte) : (s.writeByte addr v).plat = s.plat := rfl
@[simp] theorem State.writeByte_others (s : State) (addr : Nat) (v : Byte) :
    (s.writeByte addr v).others = s.others := rfl
@[simp] theorem State.writeByte_replies (s : State) (addr : Nat) (v : Byte) :
    (s.writeByte addr v).replies = s.replies := rfl
@[simp] theorem State.writeByte_draws (s : State) (addr : Nat) (v : Byte) :
    (s.writeByte addr v).draws = s.draws := rfl
@[simp] theorem State.writeByte_inputs (s : State) (addr : Nat) (v : Byte) :
    (s.writeByte addr v).inputs = s.inputs := rfl
@[simp] theorem State.writeByte_obs (s : State) (addr : Nat) (v : Byte) : (s.writeByte addr v).obs = s.obs := rfl

/-! ### State.loseSpan -/

@[simp] theorem State.loseSpan_ctrlOp (s : State) (p : Config.Span) : (s.loseSpan p).ctrlOp = s.ctrlOp := rfl
@[simp] theorem State.loseSpan_status (s : State) (p : Config.Span) : (s.loseSpan p).status = s.status := rfl
@[simp] theorem State.loseSpan_len (s : State) (p : Config.Span) : (s.loseSpan p).len = s.len := rfl
@[simp] theorem State.loseSpan_a (s : State) (p : Config.Span) : (s.loseSpan p).a = s.a := rfl
@[simp] theorem State.loseSpan_result (s : State) (p : Config.Span) : (s.loseSpan p).result = s.result := rfl
@[simp] theorem State.loseSpan_errpos (s : State) (p : Config.Span) : (s.loseSpan p).errpos = s.errpos := rfl
@[simp] theorem State.loseSpan_cmd (s : State) (p : Config.Span) : (s.loseSpan p).cmd = s.cmd := rfl
@[simp] theorem State.loseSpan_lz (s : State) (p : Config.Span) : (s.loseSpan p).lz = s.lz := rfl
@[simp] theorem State.loseSpan_rl (s : State) (p : Config.Span) : (s.loseSpan p).rl = s.rl := rfl
@[simp] theorem State.loseSpan_mem (s : State) (p : Config.Span) : (s.loseSpan p).mem = Memory.forget s.mem p := rfl
@[simp] theorem State.loseSpan_lost (s : State) (p : Config.Span) :
    (s.loseSpan p).lost = { span := p, epoch := s.draws + 1 } :: s.lost.filter fun l => !p.covers l.span := rfl
@[simp] theorem State.loseSpan_resultOpen (s : State) (p : Config.Span) :
    (s.loseSpan p).resultOpen = s.resultOpen := rfl
@[simp] theorem State.loseSpan_plat (s : State) (p : Config.Span) : (s.loseSpan p).plat = s.plat := rfl
@[simp] theorem State.loseSpan_others (s : State) (p : Config.Span) : (s.loseSpan p).others = s.others := rfl
@[simp] theorem State.loseSpan_replies (s : State) (p : Config.Span) : (s.loseSpan p).replies = s.replies := rfl
@[simp] theorem State.loseSpan_draws (s : State) (p : Config.Span) : (s.loseSpan p).draws = s.draws + 1 := rfl
@[simp] theorem State.loseSpan_inputs (s : State) (p : Config.Span) : (s.loseSpan p).inputs = s.inputs := rfl
@[simp] theorem State.loseSpan_obs (s : State) (p : Config.Span) : (s.loseSpan p).obs = s.obs := rfl

/-! ### State.countBytes -/

@[simp] theorem State.countBytes_ctrlOp (s : State) (n : Nat) : (s.countBytes n).ctrlOp = s.ctrlOp := rfl
@[simp] theorem State.countBytes_status (s : State) (n : Nat) : (s.countBytes n).status = s.status := rfl
@[simp] theorem State.countBytes_len (s : State) (n : Nat) : (s.countBytes n).len = s.len := rfl
@[simp] theorem State.countBytes_a (s : State) (n : Nat) : (s.countBytes n).a = s.a := rfl
@[simp] theorem State.countBytes_result (s : State) (n : Nat) : (s.countBytes n).result = s.result := rfl
@[simp] theorem State.countBytes_errpos (s : State) (n : Nat) : (s.countBytes n).errpos = s.errpos := rfl
@[simp] theorem State.countBytes_cmd (s : State) (n : Nat) :
    (s.countBytes n).cmd = { s.cmd with cnt := s.cmd.cnt + BitVec.ofNat 32 n } := rfl
@[simp] theorem State.countBytes_lz (s : State) (n : Nat) : (s.countBytes n).lz = s.lz := rfl
@[simp] theorem State.countBytes_rl (s : State) (n : Nat) : (s.countBytes n).rl = s.rl := rfl
@[simp] theorem State.countBytes_mem (s : State) (n : Nat) : (s.countBytes n).mem = s.mem := rfl
@[simp] theorem State.countBytes_lost (s : State) (n : Nat) : (s.countBytes n).lost = s.lost := rfl
@[simp] theorem State.countBytes_resultOpen (s : State) (n : Nat) : (s.countBytes n).resultOpen = s.resultOpen := rfl
@[simp] theorem State.countBytes_plat (s : State) (n : Nat) : (s.countBytes n).plat = s.plat := rfl
@[simp] theorem State.countBytes_others (s : State) (n : Nat) : (s.countBytes n).others = s.others := rfl
@[simp] theorem State.countBytes_replies (s : State) (n : Nat) : (s.countBytes n).replies = s.replies := rfl
@[simp] theorem State.countBytes_draws (s : State) (n : Nat) : (s.countBytes n).draws = s.draws := rfl
@[simp] theorem State.countBytes_inputs (s : State) (n : Nat) : (s.countBytes n).inputs = s.inputs := rfl
@[simp] theorem State.countBytes_obs (s : State) (n : Nat) : (s.countBytes n).obs = s.obs := rfl

/-! ### State.storeOp -/

@[simp] theorem State.storeOp_ctrlOp (s : State) (op : BitVec 2) : (s.storeOp op).ctrlOp = op := rfl
@[simp] theorem State.storeOp_status (s : State) (op : BitVec 2) : (s.storeOp op).status = s.status := rfl
@[simp] theorem State.storeOp_len (s : State) (op : BitVec 2) : (s.storeOp op).len = s.len := rfl
@[simp] theorem State.storeOp_a (s : State) (op : BitVec 2) : (s.storeOp op).a = s.a := rfl
@[simp] theorem State.storeOp_result (s : State) (op : BitVec 2) : (s.storeOp op).result = s.result := rfl
@[simp] theorem State.storeOp_errpos (s : State) (op : BitVec 2) : (s.storeOp op).errpos = s.errpos := rfl
@[simp] theorem State.storeOp_cmd (s : State) (op : BitVec 2) : (s.storeOp op).cmd = s.cmd := rfl
@[simp] theorem State.storeOp_lz (s : State) (op : BitVec 2) : (s.storeOp op).lz = s.lz := rfl
@[simp] theorem State.storeOp_rl (s : State) (op : BitVec 2) : (s.storeOp op).rl = s.rl := rfl
@[simp] theorem State.storeOp_mem (s : State) (op : BitVec 2) : (s.storeOp op).mem = s.mem := rfl
@[simp] theorem State.storeOp_lost (s : State) (op : BitVec 2) : (s.storeOp op).lost = s.lost := rfl
@[simp] theorem State.storeOp_resultOpen (s : State) (op : BitVec 2) : (s.storeOp op).resultOpen = s.resultOpen := rfl
@[simp] theorem State.storeOp_plat (s : State) (op : BitVec 2) : (s.storeOp op).plat = s.plat := rfl
@[simp] theorem State.storeOp_others (s : State) (op : BitVec 2) : (s.storeOp op).others = s.others := rfl
@[simp] theorem State.storeOp_replies (s : State) (op : BitVec 2) : (s.storeOp op).replies = s.replies := rfl
@[simp] theorem State.storeOp_draws (s : State) (op : BitVec 2) : (s.storeOp op).draws = s.draws := rfl
@[simp] theorem State.storeOp_inputs (s : State) (op : BitVec 2) : (s.storeOp op).inputs = s.inputs := rfl
@[simp] theorem State.storeOp_obs (s : State) (op : BitVec 2) : (s.storeOp op).obs = s.obs := rfl

/-! ### State.clearStatus -/

@[simp] theorem State.clearStatus_ctrlOp (s : State) : (s.clearStatus).ctrlOp = s.ctrlOp := rfl
@[simp] theorem State.clearStatus_status (s : State) : (s.clearStatus).status = s.status.cleared := rfl
@[simp] theorem State.clearStatus_len (s : State) : (s.clearStatus).len = s.len := rfl
@[simp] theorem State.clearStatus_a (s : State) : (s.clearStatus).a = s.a := rfl
@[simp] theorem State.clearStatus_result (s : State) : (s.clearStatus).result = s.result := rfl
@[simp] theorem State.clearStatus_errpos (s : State) : (s.clearStatus).errpos = s.errpos := rfl
@[simp] theorem State.clearStatus_cmd (s : State) : (s.clearStatus).cmd = s.cmd := rfl
@[simp] theorem State.clearStatus_lz (s : State) : (s.clearStatus).lz = s.lz := rfl
@[simp] theorem State.clearStatus_rl (s : State) : (s.clearStatus).rl = s.rl := rfl
@[simp] theorem State.clearStatus_mem (s : State) : (s.clearStatus).mem = s.mem := rfl
@[simp] theorem State.clearStatus_lost (s : State) : (s.clearStatus).lost = s.lost := rfl
@[simp] theorem State.clearStatus_resultOpen (s : State) : (s.clearStatus).resultOpen = s.resultOpen := rfl
@[simp] theorem State.clearStatus_plat (s : State) : (s.clearStatus).plat = s.plat := rfl
@[simp] theorem State.clearStatus_others (s : State) : (s.clearStatus).others = s.others := rfl
@[simp] theorem State.clearStatus_replies (s : State) : (s.clearStatus).replies = s.replies := rfl
@[simp] theorem State.clearStatus_draws (s : State) : (s.clearStatus).draws = s.draws := rfl
@[simp] theorem State.clearStatus_inputs (s : State) : (s.clearStatus).inputs = s.inputs := rfl
@[simp] theorem State.clearStatus_obs (s : State) : (s.clearStatus).obs = s.obs := rfl

/-! ### State.latchCommand -/

@[simp] theorem State.latchCommand_ctrlOp (s : State) (op : BitVec 2) : (s.latchCommand op).ctrlOp = s.ctrlOp := rfl
@[simp] theorem State.latchCommand_status (s : State) (op : BitVec 2) :
    (s.latchCommand op).status = s.status.running := rfl
@[simp] theorem State.latchCommand_len (s : State) (op : BitVec 2) : (s.latchCommand op).len = s.len := rfl
@[simp] theorem State.latchCommand_a (s : State) (op : BitVec 2) : (s.latchCommand op).a = s.a := rfl
@[simp] theorem State.latchCommand_result (s : State) (op : BitVec 2) : (s.latchCommand op).result = s.result := rfl
@[simp] theorem State.latchCommand_errpos (s : State) (op : BitVec 2) : (s.latchCommand op).errpos = s.errpos := rfl
@[simp] theorem State.latchCommand_cmd (s : State) (op : BitVec 2) :
    (s.latchCommand op).cmd = { op := op, n := s.len, a0 := s.a, cnt := 0 } := rfl
@[simp] theorem State.latchCommand_lz (s : State) (op : BitVec 2) : (s.latchCommand op).lz = s.lz := rfl
@[simp] theorem State.latchCommand_rl (s : State) (op : BitVec 2) : (s.latchCommand op).rl = s.rl := rfl
@[simp] theorem State.latchCommand_mem (s : State) (op : BitVec 2) : (s.latchCommand op).mem = s.mem := rfl
@[simp] theorem State.latchCommand_lost (s : State) (op : BitVec 2) : (s.latchCommand op).lost = s.lost := rfl
@[simp] theorem State.latchCommand_resultOpen (s : State) (op : BitVec 2) :
    (s.latchCommand op).resultOpen = s.resultOpen := rfl
@[simp] theorem State.latchCommand_plat (s : State) (op : BitVec 2) : (s.latchCommand op).plat = s.plat := rfl
@[simp] theorem State.latchCommand_others (s : State) (op : BitVec 2) : (s.latchCommand op).others = s.others := rfl
@[simp] theorem State.latchCommand_replies (s : State) (op : BitVec 2) :
    (s.latchCommand op).replies = s.replies := rfl
@[simp] theorem State.latchCommand_draws (s : State) (op : BitVec 2) : (s.latchCommand op).draws = s.draws := rfl
@[simp] theorem State.latchCommand_inputs (s : State) (op : BitVec 2) : (s.latchCommand op).inputs = s.inputs := rfl
@[simp] theorem State.latchCommand_obs (s : State) (op : BitVec 2) : (s.latchCommand op).obs = s.obs := rfl

/-! ### State.complete -/

@[simp] theorem State.complete_ctrlOp (s : State) : (s.complete).ctrlOp = s.ctrlOp := rfl
@[simp] theorem State.complete_status (s : State) : (s.complete).status = s.status.completed := rfl
@[simp] theorem State.complete_len (s : State) : (s.complete).len = s.len := rfl
@[simp] theorem State.complete_a (s : State) : (s.complete).a = s.a := rfl
@[simp] theorem State.complete_result (s : State) : (s.complete).result = s.cmd.cnt := rfl
@[simp] theorem State.complete_errpos (s : State) : (s.complete).errpos = s.errpos := rfl
@[simp] theorem State.complete_cmd (s : State) : (s.complete).cmd = s.cmd := rfl
@[simp] theorem State.complete_lz (s : State) : (s.complete).lz = s.lz := rfl
@[simp] theorem State.complete_rl (s : State) : (s.complete).rl = s.rl := rfl
@[simp] theorem State.complete_mem (s : State) : (s.complete).mem = s.mem := rfl
@[simp] theorem State.complete_lost (s : State) : (s.complete).lost = s.lost := rfl
@[simp] theorem State.complete_resultOpen (s : State) : (s.complete).resultOpen = false := rfl
@[simp] theorem State.complete_plat (s : State) : (s.complete).plat = s.plat := rfl
@[simp] theorem State.complete_others (s : State) : (s.complete).others = s.others := rfl
@[simp] theorem State.complete_replies (s : State) : (s.complete).replies = s.replies := rfl
@[simp] theorem State.complete_draws (s : State) : (s.complete).draws = s.draws := rfl
@[simp] theorem State.complete_inputs (s : State) : (s.complete).inputs = s.inputs := rfl
@[simp] theorem State.complete_obs (s : State) : (s.complete).obs = s.obs := rfl

/-! ### State.scrambleInternals -/

@[simp] theorem State.scrambleInternals_ctrlOp (s : State) : (s.scrambleInternals).ctrlOp = s.ctrlOp := rfl
@[simp] theorem State.scrambleInternals_status (s : State) : (s.scrambleInternals).status = s.status := rfl
@[simp] theorem State.scrambleInternals_len (s : State) : (s.scrambleInternals).len = s.len := rfl
@[simp] theorem State.scrambleInternals_a (s : State) : (s.scrambleInternals).a = s.a := rfl
@[simp] theorem State.scrambleInternals_result (s : State) : (s.scrambleInternals).result = s.result := rfl
@[simp] theorem State.scrambleInternals_errpos (s : State) : (s.scrambleInternals).errpos = s.errpos := rfl
@[simp] theorem State.scrambleInternals_mem (s : State) : (s.scrambleInternals).mem = s.mem := rfl
@[simp] theorem State.scrambleInternals_lost (s : State) : (s.scrambleInternals).lost = s.lost := rfl
@[simp] theorem State.scrambleInternals_resultOpen (s : State) :
    (s.scrambleInternals).resultOpen = s.resultOpen := rfl
@[simp] theorem State.scrambleInternals_plat (s : State) : (s.scrambleInternals).plat = s.plat := rfl
@[simp] theorem State.scrambleInternals_others (s : State) : (s.scrambleInternals).others = s.others := rfl
@[simp] theorem State.scrambleInternals_replies (s : State) : (s.scrambleInternals).replies = s.replies := rfl
@[simp] theorem State.scrambleInternals_draws (s : State) : (s.scrambleInternals).draws = s.draws + 1 := rfl
@[simp] theorem State.scrambleInternals_inputs (s : State) : (s.scrambleInternals).inputs = s.inputs := rfl
@[simp] theorem State.scrambleInternals_obs (s : State) : (s.scrambleInternals).obs = s.obs := rfl

/-! ### cachePosition -/

@[simp] theorem cachePosition_ctrlOp (s : State) : (cachePosition s).ctrlOp = s.ctrlOp := rfl
@[simp] theorem cachePosition_status (s : State) : (cachePosition s).status = s.status := rfl
@[simp] theorem cachePosition_len (s : State) : (cachePosition s).len = s.len := rfl
@[simp] theorem cachePosition_a (s : State) : (cachePosition s).a = s.a := rfl
@[simp] theorem cachePosition_result (s : State) : (cachePosition s).result = s.result := rfl
@[simp] theorem cachePosition_errpos (s : State) : (cachePosition s).errpos = s.errpos := rfl
@[simp] theorem cachePosition_cmd (s : State) : (cachePosition s).cmd = s.cmd := rfl
@[simp] theorem cachePosition_lz (s : State) : (cachePosition s).lz = { s.lz with p := s.a } := rfl
@[simp] theorem cachePosition_rl (s : State) : (cachePosition s).rl = s.rl := rfl
@[simp] theorem cachePosition_mem (s : State) : (cachePosition s).mem = s.mem := rfl
@[simp] theorem cachePosition_lost (s : State) : (cachePosition s).lost = s.lost := rfl
@[simp] theorem cachePosition_resultOpen (s : State) : (cachePosition s).resultOpen = s.resultOpen := rfl
@[simp] theorem cachePosition_plat (s : State) : (cachePosition s).plat = s.plat := rfl
@[simp] theorem cachePosition_others (s : State) : (cachePosition s).others = s.others := rfl
@[simp] theorem cachePosition_replies (s : State) : (cachePosition s).replies = s.replies := rfl
@[simp] theorem cachePosition_draws (s : State) : (cachePosition s).draws = s.draws := rfl
@[simp] theorem cachePosition_inputs (s : State) : (cachePosition s).inputs = s.inputs := rfl
@[simp] theorem cachePosition_obs (s : State) : (cachePosition s).obs = s.obs := rfl

/-! ### clearFlags -/

@[simp] theorem clearFlags_ctrlOp (s : State) : (clearFlags s).ctrlOp = s.ctrlOp := rfl
@[simp] theorem clearFlags_status (s : State) : (clearFlags s).status = s.status := rfl
@[simp] theorem clearFlags_len (s : State) : (clearFlags s).len = s.len := rfl
@[simp] theorem clearFlags_a (s : State) : (clearFlags s).a = s.a := rfl
@[simp] theorem clearFlags_result (s : State) : (clearFlags s).result = s.result := rfl
@[simp] theorem clearFlags_errpos (s : State) : (clearFlags s).errpos = s.errpos := rfl
@[simp] theorem clearFlags_cmd (s : State) : (clearFlags s).cmd = s.cmd := rfl
@[simp] theorem clearFlags_lz (s : State) : (clearFlags s).lz = { s.lz with flags := 0 } := rfl
@[simp] theorem clearFlags_rl (s : State) : (clearFlags s).rl = s.rl := rfl
@[simp] theorem clearFlags_mem (s : State) : (clearFlags s).mem = s.mem := rfl
@[simp] theorem clearFlags_lost (s : State) : (clearFlags s).lost = s.lost := rfl
@[simp] theorem clearFlags_resultOpen (s : State) : (clearFlags s).resultOpen = s.resultOpen := rfl
@[simp] theorem clearFlags_plat (s : State) : (clearFlags s).plat = s.plat := rfl
@[simp] theorem clearFlags_others (s : State) : (clearFlags s).others = s.others := rfl
@[simp] theorem clearFlags_replies (s : State) : (clearFlags s).replies = s.replies := rfl
@[simp] theorem clearFlags_draws (s : State) : (clearFlags s).draws = s.draws := rfl
@[simp] theorem clearFlags_inputs (s : State) : (clearFlags s).inputs = s.inputs := rfl
@[simp] theorem clearFlags_obs (s : State) : (clearFlags s).obs = s.obs := rfl

/-! ### endToken -/

@[simp] theorem endToken_ctrlOp (b : Bool) (k : BitVec 4) (s : State) : (endToken b k s).ctrlOp = s.ctrlOp := rfl
@[simp] theorem endToken_status (b : Bool) (k : BitVec 4) (s : State) : (endToken b k s).status = s.status := rfl
@[simp] theorem endToken_len (b : Bool) (k : BitVec 4) (s : State) : (endToken b k s).len = s.len := rfl
@[simp] theorem endToken_a (b : Bool) (k : BitVec 4) (s : State) : (endToken b k s).a = s.a := rfl
@[simp] theorem endToken_result (b : Bool) (k : BitVec 4) (s : State) : (endToken b k s).result = s.result := rfl
@[simp] theorem endToken_errpos (b : Bool) (k : BitVec 4) (s : State) : (endToken b k s).errpos = s.errpos := rfl
@[simp] theorem endToken_cmd (b : Bool) (k : BitVec 4) (s : State) : (endToken b k s).cmd = s.cmd := rfl
@[simp] theorem endToken_lz (b : Bool) (k : BitVec 4) (s : State) :
    (endToken b k s).lz = { s.lz.flagAcc b with stride := k } := rfl
@[simp] theorem endToken_rl (b : Bool) (k : BitVec 4) (s : State) : (endToken b k s).rl = s.rl := rfl
@[simp] theorem endToken_mem (b : Bool) (k : BitVec 4) (s : State) : (endToken b k s).mem = s.mem := rfl
@[simp] theorem endToken_lost (b : Bool) (k : BitVec 4) (s : State) : (endToken b k s).lost = s.lost := rfl
@[simp] theorem endToken_resultOpen (b : Bool) (k : BitVec 4) (s : State) :
    (endToken b k s).resultOpen = s.resultOpen := rfl
@[simp] theorem endToken_plat (b : Bool) (k : BitVec 4) (s : State) : (endToken b k s).plat = s.plat := rfl
@[simp] theorem endToken_others (b : Bool) (k : BitVec 4) (s : State) : (endToken b k s).others = s.others := rfl
@[simp] theorem endToken_replies (b : Bool) (k : BitVec 4) (s : State) : (endToken b k s).replies = s.replies := rfl
@[simp] theorem endToken_draws (b : Bool) (k : BitVec 4) (s : State) : (endToken b k s).draws = s.draws := rfl
@[simp] theorem endToken_inputs (b : Bool) (k : BitVec 4) (s : State) : (endToken b k s).inputs = s.inputs := rfl
@[simp] theorem endToken_obs (b : Bool) (k : BitVec 4) (s : State) : (endToken b k s).obs = s.obs := rfl

/-! ### closeGroup -/

@[simp] theorem closeGroup_ctrlOp (s : State) : (closeGroup s).ctrlOp = s.ctrlOp := rfl
@[simp] theorem closeGroup_status (s : State) : (closeGroup s).status = s.status := rfl
@[simp] theorem closeGroup_len (s : State) : (closeGroup s).len = s.len := rfl
@[simp] theorem closeGroup_a (s : State) : (closeGroup s).a = s.a := rfl
@[simp] theorem closeGroup_result (s : State) : (closeGroup s).result = s.result := rfl
@[simp] theorem closeGroup_errpos (s : State) : (closeGroup s).errpos = s.errpos := rfl
@[simp] theorem closeGroup_cmd (s : State) : (closeGroup s).cmd = s.cmd := rfl
@[simp] theorem closeGroup_lz (s : State) : (closeGroup s).lz = { s.lz with tok := 0 } := rfl
@[simp] theorem closeGroup_rl (s : State) : (closeGroup s).rl = s.rl := rfl
@[simp] theorem closeGroup_mem (s : State) : (closeGroup s).mem = s.mem := rfl
@[simp] theorem closeGroup_lost (s : State) : (closeGroup s).lost = s.lost := rfl
@[simp] theorem closeGroup_resultOpen (s : State) : (closeGroup s).resultOpen = s.resultOpen := rfl
@[simp] theorem closeGroup_plat (s : State) : (closeGroup s).plat = s.plat := rfl
@[simp] theorem closeGroup_others (s : State) : (closeGroup s).others = s.others := rfl
@[simp] theorem closeGroup_replies (s : State) : (closeGroup s).replies = s.replies := rfl
@[simp] theorem closeGroup_draws (s : State) : (closeGroup s).draws = s.draws := rfl
@[simp] theorem closeGroup_inputs (s : State) : (closeGroup s).inputs = s.inputs := rfl
@[simp] theorem closeGroup_obs (s : State) : (closeGroup s).obs = s.obs := rfl

/-! ### lzFind -/

@[simp] theorem lzFind_ctrlOp (s : State) : (lzFind s).ctrlOp = s.ctrlOp := rfl
@[simp] theorem lzFind_status (s : State) : (lzFind s).status = s.status := rfl
@[simp] theorem lzFind_len (s : State) : (lzFind s).len = s.len := rfl
@[simp] theorem lzFind_a (s : State) : (lzFind s).a = s.a := rfl
@[simp] theorem lzFind_result (s : State) : (lzFind s).result = s.result := rfl
@[simp] theorem lzFind_errpos (s : State) : (lzFind s).errpos = s.errpos := rfl
@[simp] theorem lzFind_cmd (s : State) : (lzFind s).cmd = s.cmd := rfl
@[simp] theorem lzFind_lz (s : State) : (lzFind s).lz = s.lz.find s.inByte s.cmd.n.toNat := rfl
@[simp] theorem lzFind_rl (s : State) : (lzFind s).rl = s.rl := rfl
@[simp] theorem lzFind_mem (s : State) : (lzFind s).mem = s.mem := rfl
@[simp] theorem lzFind_lost (s : State) : (lzFind s).lost = s.lost := rfl
@[simp] theorem lzFind_resultOpen (s : State) : (lzFind s).resultOpen = s.resultOpen := rfl
@[simp] theorem lzFind_plat (s : State) : (lzFind s).plat = s.plat := rfl
@[simp] theorem lzFind_others (s : State) : (lzFind s).others = s.others := rfl
@[simp] theorem lzFind_replies (s : State) : (lzFind s).replies = s.replies := rfl
@[simp] theorem lzFind_draws (s : State) : (lzFind s).draws = s.draws := rfl
@[simp] theorem lzFind_inputs (s : State) : (lzFind s).inputs = s.inputs := rfl
@[simp] theorem lzFind_obs (s : State) : (lzFind s).obs = s.obs := rfl

/-! ### lzAdvance -/

@[simp] theorem lzAdvance_ctrlOp (s : State) : (lzAdvance s).ctrlOp = s.ctrlOp := rfl
@[simp] theorem lzAdvance_status (s : State) : (lzAdvance s).status = s.status := rfl
@[simp] theorem lzAdvance_len (s : State) : (lzAdvance s).len = s.len := rfl
@[simp] theorem lzAdvance_a (s : State) : (lzAdvance s).a = s.a := rfl
@[simp] theorem lzAdvance_result (s : State) : (lzAdvance s).result = s.result := rfl
@[simp] theorem lzAdvance_errpos (s : State) : (lzAdvance s).errpos = s.errpos := rfl
@[simp] theorem lzAdvance_cmd (s : State) : (lzAdvance s).cmd = s.cmd := rfl
@[simp] theorem lzAdvance_lz (s : State) :
    (lzAdvance s).lz = { s.lz with i := s.lz.i + s.lz.stride.setWidth 32 } := rfl
@[simp] theorem lzAdvance_rl (s : State) : (lzAdvance s).rl = s.rl := rfl
@[simp] theorem lzAdvance_mem (s : State) : (lzAdvance s).mem = s.mem := rfl
@[simp] theorem lzAdvance_lost (s : State) : (lzAdvance s).lost = s.lost := rfl
@[simp] theorem lzAdvance_resultOpen (s : State) : (lzAdvance s).resultOpen = s.resultOpen := rfl
@[simp] theorem lzAdvance_plat (s : State) : (lzAdvance s).plat = s.plat := rfl
@[simp] theorem lzAdvance_others (s : State) : (lzAdvance s).others = s.others := rfl
@[simp] theorem lzAdvance_replies (s : State) : (lzAdvance s).replies = s.replies := rfl
@[simp] theorem lzAdvance_draws (s : State) : (lzAdvance s).draws = s.draws := rfl
@[simp] theorem lzAdvance_inputs (s : State) : (lzAdvance s).inputs = s.inputs := rfl
@[simp] theorem lzAdvance_obs (s : State) : (lzAdvance s).obs = s.obs := rfl

/-! ### lzInit -/

@[simp] theorem lzInit_ctrlOp (s : State) : (lzInit s).ctrlOp = s.ctrlOp := rfl
@[simp] theorem lzInit_status (s : State) : (lzInit s).status = s.status := rfl
@[simp] theorem lzInit_len (s : State) : (lzInit s).len = s.len := rfl
@[simp] theorem lzInit_a (s : State) : (lzInit s).a = s.a := rfl
@[simp] theorem lzInit_result (s : State) : (lzInit s).result = s.result := rfl
@[simp] theorem lzInit_errpos (s : State) : (lzInit s).errpos = s.errpos := rfl
@[simp] theorem lzInit_cmd (s : State) : (lzInit s).cmd = s.cmd := rfl
@[simp] theorem lzInit_lz (s : State) : (lzInit s).lz = { s.lz with i := 0, tok := 0, flags := 0 } := rfl
@[simp] theorem lzInit_rl (s : State) : (lzInit s).rl = s.rl := rfl
@[simp] theorem lzInit_mem (s : State) : (lzInit s).mem = s.mem := rfl
@[simp] theorem lzInit_lost (s : State) : (lzInit s).lost = s.lost := rfl
@[simp] theorem lzInit_resultOpen (s : State) : (lzInit s).resultOpen = s.resultOpen := rfl
@[simp] theorem lzInit_plat (s : State) : (lzInit s).plat = s.plat := rfl
@[simp] theorem lzInit_others (s : State) : (lzInit s).others = s.others := rfl
@[simp] theorem lzInit_replies (s : State) : (lzInit s).replies = s.replies := rfl
@[simp] theorem lzInit_draws (s : State) : (lzInit s).draws = s.draws := rfl
@[simp] theorem lzInit_inputs (s : State) : (lzInit s).inputs = s.inputs := rfl
@[simp] theorem lzInit_obs (s : State) : (lzInit s).obs = s.obs := rfl

/-! ### rlInit -/

@[simp] theorem rlInit_ctrlOp (s : State) : (rlInit s).ctrlOp = s.ctrlOp := rfl
@[simp] theorem rlInit_status (s : State) : (rlInit s).status = s.status := rfl
@[simp] theorem rlInit_len (s : State) : (rlInit s).len = s.len := rfl
@[simp] theorem rlInit_a (s : State) : (rlInit s).a = s.a := rfl
@[simp] theorem rlInit_result (s : State) : (rlInit s).result = s.result := rfl
@[simp] theorem rlInit_errpos (s : State) : (rlInit s).errpos = s.errpos := rfl
@[simp] theorem rlInit_cmd (s : State) : (rlInit s).cmd = s.cmd := rfl
@[simp] theorem rlInit_lz (s : State) : (rlInit s).lz = s.lz := rfl
@[simp] theorem rlInit_rl (s : State) : (rlInit s).rl = { s.rl with i := 0 } := rfl
@[simp] theorem rlInit_mem (s : State) : (rlInit s).mem = s.mem := rfl
@[simp] theorem rlInit_lost (s : State) : (rlInit s).lost = s.lost := rfl
@[simp] theorem rlInit_resultOpen (s : State) : (rlInit s).resultOpen = s.resultOpen := rfl
@[simp] theorem rlInit_plat (s : State) : (rlInit s).plat = s.plat := rfl
@[simp] theorem rlInit_others (s : State) : (rlInit s).others = s.others := rfl
@[simp] theorem rlInit_replies (s : State) : (rlInit s).replies = s.replies := rfl
@[simp] theorem rlInit_draws (s : State) : (rlInit s).draws = s.draws := rfl
@[simp] theorem rlInit_inputs (s : State) : (rlInit s).inputs = s.inputs := rfl
@[simp] theorem rlInit_obs (s : State) : (rlInit s).obs = s.obs := rfl

/-! ### rlMeasure -/

@[simp] theorem rlMeasure_ctrlOp (s : State) : (rlMeasure s).ctrlOp = s.ctrlOp := rfl
@[simp] theorem rlMeasure_status (s : State) : (rlMeasure s).status = s.status := rfl
@[simp] theorem rlMeasure_len (s : State) : (rlMeasure s).len = s.len := rfl
@[simp] theorem rlMeasure_a (s : State) : (rlMeasure s).a = s.a := rfl
@[simp] theorem rlMeasure_result (s : State) : (rlMeasure s).result = s.result := rfl
@[simp] theorem rlMeasure_errpos (s : State) : (rlMeasure s).errpos = s.errpos := rfl
@[simp] theorem rlMeasure_cmd (s : State) : (rlMeasure s).cmd = s.cmd := rfl
@[simp] theorem rlMeasure_lz (s : State) : (rlMeasure s).lz = s.lz := rfl
@[simp] theorem rlMeasure_rl (s : State) :
    (rlMeasure s).rl = { s.rl with r := BitVec.ofNat 7 (runLength s.inByte s.cmd.n.toNat s.rl.i.toNat) } := rfl
@[simp] theorem rlMeasure_mem (s : State) : (rlMeasure s).mem = s.mem := rfl
@[simp] theorem rlMeasure_lost (s : State) : (rlMeasure s).lost = s.lost := rfl
@[simp] theorem rlMeasure_resultOpen (s : State) : (rlMeasure s).resultOpen = s.resultOpen := rfl
@[simp] theorem rlMeasure_plat (s : State) : (rlMeasure s).plat = s.plat := rfl
@[simp] theorem rlMeasure_others (s : State) : (rlMeasure s).others = s.others := rfl
@[simp] theorem rlMeasure_replies (s : State) : (rlMeasure s).replies = s.replies := rfl
@[simp] theorem rlMeasure_draws (s : State) : (rlMeasure s).draws = s.draws := rfl
@[simp] theorem rlMeasure_inputs (s : State) : (rlMeasure s).inputs = s.inputs := rfl
@[simp] theorem rlMeasure_obs (s : State) : (rlMeasure s).obs = s.obs := rfl

/-! ### rlScanLit -/

@[simp] theorem rlScanLit_ctrlOp (s : State) : (rlScanLit s).ctrlOp = s.ctrlOp := rfl
@[simp] theorem rlScanLit_status (s : State) : (rlScanLit s).status = s.status := rfl
@[simp] theorem rlScanLit_len (s : State) : (rlScanLit s).len = s.len := rfl
@[simp] theorem rlScanLit_a (s : State) : (rlScanLit s).a = s.a := rfl
@[simp] theorem rlScanLit_result (s : State) : (rlScanLit s).result = s.result := rfl
@[simp] theorem rlScanLit_errpos (s : State) : (rlScanLit s).errpos = s.errpos := rfl
@[simp] theorem rlScanLit_cmd (s : State) : (rlScanLit s).cmd = s.cmd := rfl
@[simp] theorem rlScanLit_lz (s : State) : (rlScanLit s).lz = s.lz := rfl
@[simp] theorem rlScanLit_mem (s : State) : (rlScanLit s).mem = s.mem := rfl
@[simp] theorem rlScanLit_lost (s : State) : (rlScanLit s).lost = s.lost := rfl
@[simp] theorem rlScanLit_resultOpen (s : State) : (rlScanLit s).resultOpen = s.resultOpen := rfl
@[simp] theorem rlScanLit_plat (s : State) : (rlScanLit s).plat = s.plat := rfl
@[simp] theorem rlScanLit_others (s : State) : (rlScanLit s).others = s.others := rfl
@[simp] theorem rlScanLit_replies (s : State) : (rlScanLit s).replies = s.replies := rfl
@[simp] theorem rlScanLit_draws (s : State) : (rlScanLit s).draws = s.draws := rfl
@[simp] theorem rlScanLit_inputs (s : State) : (rlScanLit s).inputs = s.inputs := rfl
@[simp] theorem rlScanLit_obs (s : State) : (rlScanLit s).obs = s.obs := rfl

/-! ### rlAdvance -/

@[simp] theorem rlAdvance_ctrlOp (n : Nat) (s : State) : (rlAdvance n s).ctrlOp = s.ctrlOp := rfl
@[simp] theorem rlAdvance_status (n : Nat) (s : State) : (rlAdvance n s).status = s.status := rfl
@[simp] theorem rlAdvance_len (n : Nat) (s : State) : (rlAdvance n s).len = s.len := rfl
@[simp] theorem rlAdvance_a (n : Nat) (s : State) : (rlAdvance n s).a = s.a := rfl
@[simp] theorem rlAdvance_result (n : Nat) (s : State) : (rlAdvance n s).result = s.result := rfl
@[simp] theorem rlAdvance_errpos (n : Nat) (s : State) : (rlAdvance n s).errpos = s.errpos := rfl
@[simp] theorem rlAdvance_cmd (n : Nat) (s : State) : (rlAdvance n s).cmd = s.cmd := rfl
@[simp] theorem rlAdvance_lz (n : Nat) (s : State) : (rlAdvance n s).lz = s.lz := rfl
@[simp] theorem rlAdvance_rl (n : Nat) (s : State) :
    (rlAdvance n s).rl = { s.rl with i := s.rl.i + BitVec.ofNat 32 n } := rfl
@[simp] theorem rlAdvance_mem (n : Nat) (s : State) : (rlAdvance n s).mem = s.mem := rfl
@[simp] theorem rlAdvance_lost (n : Nat) (s : State) : (rlAdvance n s).lost = s.lost := rfl
@[simp] theorem rlAdvance_resultOpen (n : Nat) (s : State) : (rlAdvance n s).resultOpen = s.resultOpen := rfl
@[simp] theorem rlAdvance_plat (n : Nat) (s : State) : (rlAdvance n s).plat = s.plat := rfl
@[simp] theorem rlAdvance_others (n : Nat) (s : State) : (rlAdvance n s).others = s.others := rfl
@[simp] theorem rlAdvance_replies (n : Nat) (s : State) : (rlAdvance n s).replies = s.replies := rfl
@[simp] theorem rlAdvance_draws (n : Nat) (s : State) : (rlAdvance n s).draws = s.draws := rfl
@[simp] theorem rlAdvance_inputs (n : Nat) (s : State) : (rlAdvance n s).inputs = s.inputs := rfl
@[simp] theorem rlAdvance_obs (n : Nat) (s : State) : (rlAdvance n s).obs = s.obs := rfl

/-! ### stopOther -/

@[simp] theorem stopOther_ctrlOp (n : Nat) (s : State) : (stopOther n s).ctrlOp = s.ctrlOp := rfl
@[simp] theorem stopOther_status (n : Nat) (s : State) : (stopOther n s).status = s.status := rfl
@[simp] theorem stopOther_len (n : Nat) (s : State) : (stopOther n s).len = s.len := rfl
@[simp] theorem stopOther_a (n : Nat) (s : State) : (stopOther n s).a = s.a := rfl
@[simp] theorem stopOther_result (n : Nat) (s : State) : (stopOther n s).result = s.result := rfl
@[simp] theorem stopOther_errpos (n : Nat) (s : State) : (stopOther n s).errpos = s.errpos := rfl
@[simp] theorem stopOther_cmd (n : Nat) (s : State) : (stopOther n s).cmd = s.cmd := rfl
@[simp] theorem stopOther_lz (n : Nat) (s : State) : (stopOther n s).lz = s.lz := rfl
@[simp] theorem stopOther_rl (n : Nat) (s : State) : (stopOther n s).rl = s.rl := rfl
@[simp] theorem stopOther_mem (n : Nat) (s : State) : (stopOther n s).mem = s.mem := rfl
@[simp] theorem stopOther_lost (n : Nat) (s : State) : (stopOther n s).lost = s.lost := rfl
@[simp] theorem stopOther_resultOpen (n : Nat) (s : State) : (stopOther n s).resultOpen = s.resultOpen := rfl
@[simp] theorem stopOther_plat (n : Nat) (s : State) : (stopOther n s).plat = s.plat := rfl
@[simp] theorem stopOther_others (n : Nat) (s : State) :
    (stopOther n s).others = s.others.filter fun o => o.number ≠ n := rfl
@[simp] theorem stopOther_replies (n : Nat) (s : State) : (stopOther n s).replies = s.replies := rfl
@[simp] theorem stopOther_draws (n : Nat) (s : State) : (stopOther n s).draws = s.draws := rfl
@[simp] theorem stopOther_inputs (n : Nat) (s : State) : (stopOther n s).inputs = s.inputs := rfl
@[simp] theorem stopOther_obs (n : Nat) (s : State) : (stopOther n s).obs = s.obs := rfl

/-! ### State.observe -/

@[simp] theorem State.observe_ctrlOp (s : State) (o : Observation) : (s.observe o).ctrlOp = s.ctrlOp := rfl
@[simp] theorem State.observe_status (s : State) (o : Observation) : (s.observe o).status = s.status := rfl
@[simp] theorem State.observe_len (s : State) (o : Observation) : (s.observe o).len = s.len := rfl
@[simp] theorem State.observe_a (s : State) (o : Observation) : (s.observe o).a = s.a := rfl
@[simp] theorem State.observe_result (s : State) (o : Observation) : (s.observe o).result = s.result := rfl
@[simp] theorem State.observe_errpos (s : State) (o : Observation) : (s.observe o).errpos = s.errpos := rfl
@[simp] theorem State.observe_cmd (s : State) (o : Observation) : (s.observe o).cmd = s.cmd := rfl
@[simp] theorem State.observe_lz (s : State) (o : Observation) : (s.observe o).lz = s.lz := rfl
@[simp] theorem State.observe_rl (s : State) (o : Observation) : (s.observe o).rl = s.rl := rfl
@[simp] theorem State.observe_mem (s : State) (o : Observation) : (s.observe o).mem = s.mem := rfl
@[simp] theorem State.observe_lost (s : State) (o : Observation) : (s.observe o).lost = s.lost := rfl
@[simp] theorem State.observe_resultOpen (s : State) (o : Observation) :
    (s.observe o).resultOpen = s.resultOpen := rfl
@[simp] theorem State.observe_plat (s : State) (o : Observation) : (s.observe o).plat = s.plat := rfl
@[simp] theorem State.observe_others (s : State) (o : Observation) : (s.observe o).others = s.others := rfl
@[simp] theorem State.observe_replies (s : State) (o : Observation) : (s.observe o).replies = s.replies := rfl
@[simp] theorem State.observe_draws (s : State) (o : Observation) : (s.observe o).draws = s.draws := rfl
@[simp] theorem State.observe_inputs (s : State) (o : Observation) : (s.observe o).inputs = s.inputs := rfl
@[simp] theorem State.observe_obs (s : State) (o : Observation) : (s.observe o).obs = s.obs ++ [o] := rfl

/-! ### State.takeReply -/

@[simp] theorem State.takeReply_ctrlOp (s : State) : (s.takeReply).ctrlOp = s.ctrlOp := by
  unfold State.takeReply; split <;> rfl
@[simp] theorem State.takeReply_status (s : State) : (s.takeReply).status = s.status := by
  unfold State.takeReply; split <;> rfl
@[simp] theorem State.takeReply_len (s : State) : (s.takeReply).len = s.len := by
  unfold State.takeReply; split <;> rfl
@[simp] theorem State.takeReply_a (s : State) : (s.takeReply).a = s.a := by
  unfold State.takeReply; split <;> rfl
@[simp] theorem State.takeReply_result (s : State) : (s.takeReply).result = s.result := by
  unfold State.takeReply; split <;> rfl
@[simp] theorem State.takeReply_errpos (s : State) : (s.takeReply).errpos = s.errpos := by
  unfold State.takeReply; split <;> rfl
@[simp] theorem State.takeReply_cmd (s : State) : (s.takeReply).cmd = s.cmd := by
  unfold State.takeReply; split <;> rfl
@[simp] theorem State.takeReply_lz (s : State) : (s.takeReply).lz = s.lz := by
  unfold State.takeReply; split <;> rfl
@[simp] theorem State.takeReply_rl (s : State) : (s.takeReply).rl = s.rl := by
  unfold State.takeReply; split <;> rfl
@[simp] theorem State.takeReply_mem (s : State) : (s.takeReply).mem = s.mem := by
  unfold State.takeReply; split <;> rfl
@[simp] theorem State.takeReply_lost (s : State) : (s.takeReply).lost = s.lost := by
  unfold State.takeReply; split <;> rfl
@[simp] theorem State.takeReply_resultOpen (s : State) : (s.takeReply).resultOpen = s.resultOpen := by
  unfold State.takeReply; split <;> rfl
@[simp] theorem State.takeReply_plat (s : State) : (s.takeReply).plat = s.plat := by
  unfold State.takeReply; split <;> rfl
@[simp] theorem State.takeReply_others (s : State) : (s.takeReply).others = s.others := by
  unfold State.takeReply; split <;> rfl
@[simp] theorem State.takeReply_inputs (s : State) : (s.takeReply).inputs = s.inputs := by
  unfold State.takeReply; split <;> rfl
@[simp] theorem State.takeReply_obs (s : State) : (s.takeReply).obs = s.obs := by
  unfold State.takeReply; split <;> rfl

/-! ### State.abandonCommand -/

@[simp] theorem State.abandonCommand_ctrlOp (s : State) : (s.abandonCommand).ctrlOp = s.ctrlOp := by
  unfold State.abandonCommand; split <;> rfl
@[simp] theorem State.abandonCommand_status (s : State) : (s.abandonCommand).status = s.status := by
  unfold State.abandonCommand; split <;> rfl
@[simp] theorem State.abandonCommand_len (s : State) : (s.abandonCommand).len = s.len := by
  unfold State.abandonCommand; split <;> rfl
@[simp] theorem State.abandonCommand_a (s : State) : (s.abandonCommand).a = s.a := by
  unfold State.abandonCommand; split <;> rfl
@[simp] theorem State.abandonCommand_result (s : State) : (s.abandonCommand).result = s.result := by
  unfold State.abandonCommand; split <;> rfl
@[simp] theorem State.abandonCommand_errpos (s : State) : (s.abandonCommand).errpos = s.errpos := by
  unfold State.abandonCommand; split <;> rfl
@[simp] theorem State.abandonCommand_cmd (s : State) : (s.abandonCommand).cmd = s.cmd := by
  unfold State.abandonCommand; split <;> rfl
@[simp] theorem State.abandonCommand_lz (s : State) : (s.abandonCommand).lz = s.lz := by
  unfold State.abandonCommand; split <;> rfl
@[simp] theorem State.abandonCommand_rl (s : State) : (s.abandonCommand).rl = s.rl := by
  unfold State.abandonCommand; split <;> rfl
@[simp] theorem State.abandonCommand_resultOpen (s : State) : (s.abandonCommand).resultOpen = s.resultOpen := by
  unfold State.abandonCommand; split <;> rfl
@[simp] theorem State.abandonCommand_plat (s : State) : (s.abandonCommand).plat = s.plat := by
  unfold State.abandonCommand; split <;> rfl
@[simp] theorem State.abandonCommand_others (s : State) : (s.abandonCommand).others = s.others := by
  unfold State.abandonCommand; split <;> rfl
@[simp] theorem State.abandonCommand_replies (s : State) : (s.abandonCommand).replies = s.replies := by
  unfold State.abandonCommand; split <;> rfl
@[simp] theorem State.abandonCommand_inputs (s : State) : (s.abandonCommand).inputs = s.inputs := by
  unfold State.abandonCommand; split <;> rfl
@[simp] theorem State.abandonCommand_obs (s : State) : (s.abandonCommand).obs = s.obs := by
  unfold State.abandonCommand; split <;> rfl

/-! ### State.afterRead -/

@[simp] theorem State.afterRead_ctrlOp (s : State) (r : Reg) : (s.afterRead r).ctrlOp = s.ctrlOp := by
  unfold State.afterRead; split <;> rfl
@[simp] theorem State.afterRead_status (s : State) (r : Reg) : (s.afterRead r).status = s.status := by
  unfold State.afterRead; split <;> rfl
@[simp] theorem State.afterRead_len (s : State) (r : Reg) : (s.afterRead r).len = s.len := by
  unfold State.afterRead; split <;> rfl
@[simp] theorem State.afterRead_a (s : State) (r : Reg) : (s.afterRead r).a = s.a := by
  unfold State.afterRead; split <;> rfl
@[simp] theorem State.afterRead_result (s : State) (r : Reg) : (s.afterRead r).result = s.result := by
  unfold State.afterRead; split <;> rfl
@[simp] theorem State.afterRead_errpos (s : State) (r : Reg) : (s.afterRead r).errpos = s.errpos := by
  unfold State.afterRead; split <;> rfl
@[simp] theorem State.afterRead_cmd (s : State) (r : Reg) : (s.afterRead r).cmd = s.cmd := by
  unfold State.afterRead; split <;> rfl
@[simp] theorem State.afterRead_lz (s : State) (r : Reg) : (s.afterRead r).lz = s.lz := by
  unfold State.afterRead; split <;> rfl
@[simp] theorem State.afterRead_rl (s : State) (r : Reg) : (s.afterRead r).rl = s.rl := by
  unfold State.afterRead; split <;> rfl
@[simp] theorem State.afterRead_mem (s : State) (r : Reg) : (s.afterRead r).mem = s.mem := by
  unfold State.afterRead; split <;> rfl
@[simp] theorem State.afterRead_lost (s : State) (r : Reg) : (s.afterRead r).lost = s.lost := by
  unfold State.afterRead; split <;> rfl
@[simp] theorem State.afterRead_resultOpen (s : State) (r : Reg) : (s.afterRead r).resultOpen = s.resultOpen := by
  unfold State.afterRead; split <;> rfl
@[simp] theorem State.afterRead_plat (s : State) (r : Reg) : (s.afterRead r).plat = s.plat := by
  unfold State.afterRead; split <;> rfl
@[simp] theorem State.afterRead_others (s : State) (r : Reg) : (s.afterRead r).others = s.others := by
  unfold State.afterRead; split <;> rfl
@[simp] theorem State.afterRead_replies (s : State) (r : Reg) : (s.afterRead r).replies = s.replies := by
  unfold State.afterRead; split <;> rfl
@[simp] theorem State.afterRead_inputs (s : State) (r : Reg) : (s.afterRead r).inputs = s.inputs := by
  unfold State.afterRead; split <;> rfl
@[simp] theorem State.afterRead_obs (s : State) (r : Reg) : (s.afterRead r).obs = s.obs := by
  unfold State.afterRead; split <;> rfl

/-! ### turnOther -/

@[simp] theorem turnOther_ctrlOp (n : Nat) (s : State) : (turnOther n s).ctrlOp = s.ctrlOp := by
  unfold turnOther; split <;> rfl
@[simp] theorem turnOther_status (n : Nat) (s : State) : (turnOther n s).status = s.status := by
  unfold turnOther; split <;> rfl
@[simp] theorem turnOther_len (n : Nat) (s : State) : (turnOther n s).len = s.len := by
  unfold turnOther; split <;> rfl
@[simp] theorem turnOther_a (n : Nat) (s : State) : (turnOther n s).a = s.a := by
  unfold turnOther; split <;> rfl
@[simp] theorem turnOther_result (n : Nat) (s : State) : (turnOther n s).result = s.result := by
  unfold turnOther; split <;> rfl
@[simp] theorem turnOther_errpos (n : Nat) (s : State) : (turnOther n s).errpos = s.errpos := by
  unfold turnOther; split <;> rfl
@[simp] theorem turnOther_cmd (n : Nat) (s : State) : (turnOther n s).cmd = s.cmd := by
  unfold turnOther; split <;> rfl
@[simp] theorem turnOther_lz (n : Nat) (s : State) : (turnOther n s).lz = s.lz := by
  unfold turnOther; split <;> rfl
@[simp] theorem turnOther_rl (n : Nat) (s : State) : (turnOther n s).rl = s.rl := by
  unfold turnOther; split <;> rfl
@[simp] theorem turnOther_resultOpen (n : Nat) (s : State) : (turnOther n s).resultOpen = s.resultOpen := by
  unfold turnOther; split <;> rfl
@[simp] theorem turnOther_plat (n : Nat) (s : State) : (turnOther n s).plat = s.plat := by
  unfold turnOther; split <;> rfl
@[simp] theorem turnOther_others (n : Nat) (s : State) : (turnOther n s).others = s.others := by
  unfold turnOther; split <;> rfl
@[simp] theorem turnOther_replies (n : Nat) (s : State) : (turnOther n s).replies = s.replies := by
  unfold turnOther; split <;> rfl
@[simp] theorem turnOther_inputs (n : Nat) (s : State) : (turnOther n s).inputs = s.inputs := by
  unfold turnOther; split <;> rfl
@[simp] theorem turnOther_obs (n : Nat) (s : State) : (turnOther n s).obs = s.obs := by
  unfold turnOther; split <;> rfl

/-! ### rlPrepare -/

@[simp] theorem rlPrepare_ctrlOp (s : State) : (rlPrepare s).ctrlOp = s.ctrlOp := by
  unfold rlPrepare; split <;> rfl
@[simp] theorem rlPrepare_status (s : State) : (rlPrepare s).status = s.status := by
  unfold rlPrepare; split <;> rfl
@[simp] theorem rlPrepare_len (s : State) : (rlPrepare s).len = s.len := by
  unfold rlPrepare; split <;> rfl
@[simp] theorem rlPrepare_a (s : State) : (rlPrepare s).a = s.a := by
  unfold rlPrepare; split <;> rfl
@[simp] theorem rlPrepare_result (s : State) : (rlPrepare s).result = s.result := by
  unfold rlPrepare; split <;> rfl
@[simp] theorem rlPrepare_errpos (s : State) : (rlPrepare s).errpos = s.errpos := by
  unfold rlPrepare; split <;> rfl
@[simp] theorem rlPrepare_cmd (s : State) : (rlPrepare s).cmd = s.cmd := by
  unfold rlPrepare; split <;> rfl
@[simp] theorem rlPrepare_lz (s : State) : (rlPrepare s).lz = s.lz := by
  unfold rlPrepare; split <;> rfl
@[simp] theorem rlPrepare_mem (s : State) : (rlPrepare s).mem = s.mem := by
  unfold rlPrepare; split <;> rfl
@[simp] theorem rlPrepare_lost (s : State) : (rlPrepare s).lost = s.lost := by
  unfold rlPrepare; split <;> rfl
@[simp] theorem rlPrepare_resultOpen (s : State) : (rlPrepare s).resultOpen = s.resultOpen := by
  unfold rlPrepare; split <;> rfl
@[simp] theorem rlPrepare_plat (s : State) : (rlPrepare s).plat = s.plat := by
  unfold rlPrepare; split <;> rfl
@[simp] theorem rlPrepare_others (s : State) : (rlPrepare s).others = s.others := by
  unfold rlPrepare; split <;> rfl
@[simp] theorem rlPrepare_replies (s : State) : (rlPrepare s).replies = s.replies := by
  unfold rlPrepare; split <;> rfl
@[simp] theorem rlPrepare_draws (s : State) : (rlPrepare s).draws = s.draws := by
  unfold rlPrepare; split <;> rfl
@[simp] theorem rlPrepare_inputs (s : State) : (rlPrepare s).inputs = s.inputs := by
  unfold rlPrepare; split <;> rfl
@[simp] theorem rlPrepare_obs (s : State) : (rlPrepare s).obs = s.obs := by
  unfold rlPrepare; split <;> rfl

/-! ### lzLoopControl -/

@[simp] theorem lzLoopControl_ctrlOp (s : State) : (lzLoopControl s).ctrlOp = s.ctrlOp := by
  unfold lzLoopControl; split <;> rfl
@[simp] theorem lzLoopControl_len (s : State) : (lzLoopControl s).len = s.len := by
  unfold lzLoopControl; split <;> rfl
@[simp] theorem lzLoopControl_a (s : State) : (lzLoopControl s).a = s.a := by
  unfold lzLoopControl; split <;> rfl
@[simp] theorem lzLoopControl_errpos (s : State) : (lzLoopControl s).errpos = s.errpos := by
  unfold lzLoopControl; split <;> rfl
@[simp] theorem lzLoopControl_cmd (s : State) : (lzLoopControl s).cmd = s.cmd := by
  unfold lzLoopControl; split <;> rfl
@[simp] theorem lzLoopControl_lz (s : State) : (lzLoopControl s).lz = s.lz := by
  unfold lzLoopControl; split <;> rfl
@[simp] theorem lzLoopControl_rl (s : State) : (lzLoopControl s).rl = s.rl := by
  unfold lzLoopControl; split <;> rfl
@[simp] theorem lzLoopControl_mem (s : State) : (lzLoopControl s).mem = s.mem := by
  unfold lzLoopControl; split <;> rfl
@[simp] theorem lzLoopControl_lost (s : State) : (lzLoopControl s).lost = s.lost := by
  unfold lzLoopControl; split <;> rfl
@[simp] theorem lzLoopControl_plat (s : State) : (lzLoopControl s).plat = s.plat := by
  unfold lzLoopControl; split <;> rfl
@[simp] theorem lzLoopControl_others (s : State) : (lzLoopControl s).others = s.others := by
  unfold lzLoopControl; split <;> rfl
@[simp] theorem lzLoopControl_replies (s : State) : (lzLoopControl s).replies = s.replies := by
  unfold lzLoopControl; split <;> rfl
@[simp] theorem lzLoopControl_draws (s : State) : (lzLoopControl s).draws = s.draws := by
  unfold lzLoopControl; split <;> rfl
@[simp] theorem lzLoopControl_inputs (s : State) : (lzLoopControl s).inputs = s.inputs := by
  unfold lzLoopControl; split <;> rfl
@[simp] theorem lzLoopControl_obs (s : State) : (lzLoopControl s).obs = s.obs := by
  unfold lzLoopControl; split <;> rfl

/-! ### rlLoopControl -/

@[simp] theorem rlLoopControl_ctrlOp (s : State) : (rlLoopControl s).ctrlOp = s.ctrlOp := by
  unfold rlLoopControl; split <;> rfl
@[simp] theorem rlLoopControl_len (s : State) : (rlLoopControl s).len = s.len := by
  unfold rlLoopControl; split <;> rfl
@[simp] theorem rlLoopControl_a (s : State) : (rlLoopControl s).a = s.a := by
  unfold rlLoopControl; split <;> rfl
@[simp] theorem rlLoopControl_errpos (s : State) : (rlLoopControl s).errpos = s.errpos := by
  unfold rlLoopControl; split <;> rfl
@[simp] theorem rlLoopControl_cmd (s : State) : (rlLoopControl s).cmd = s.cmd := by
  unfold rlLoopControl; split <;> rfl
@[simp] theorem rlLoopControl_lz (s : State) : (rlLoopControl s).lz = s.lz := by
  unfold rlLoopControl; split <;> rfl
@[simp] theorem rlLoopControl_rl (s : State) : (rlLoopControl s).rl = s.rl := by
  unfold rlLoopControl; split <;> rfl
@[simp] theorem rlLoopControl_mem (s : State) : (rlLoopControl s).mem = s.mem := by
  unfold rlLoopControl; split <;> rfl
@[simp] theorem rlLoopControl_lost (s : State) : (rlLoopControl s).lost = s.lost := by
  unfold rlLoopControl; split <;> rfl
@[simp] theorem rlLoopControl_plat (s : State) : (rlLoopControl s).plat = s.plat := by
  unfold rlLoopControl; split <;> rfl
@[simp] theorem rlLoopControl_others (s : State) : (rlLoopControl s).others = s.others := by
  unfold rlLoopControl; split <;> rfl
@[simp] theorem rlLoopControl_replies (s : State) : (rlLoopControl s).replies = s.replies := by
  unfold rlLoopControl; split <;> rfl
@[simp] theorem rlLoopControl_draws (s : State) : (rlLoopControl s).draws = s.draws := by
  unfold rlLoopControl; split <;> rfl
@[simp] theorem rlLoopControl_inputs (s : State) : (rlLoopControl s).inputs = s.inputs := by
  unfold rlLoopControl; split <;> rfl
@[simp] theorem rlLoopControl_obs (s : State) : (rlLoopControl s).obs = s.obs := by
  unfold rlLoopControl; split <;> rfl

end Sys2Proof.Machine
end

