-- ==== Sys2Proof/Laws/Memory.lean ====
section
/-! SUPPORT. The memory: a read after a write, and the canonical form, which every memory operation keeps. -/

namespace Sys2Proof.Machine

open Sys2Proof

/-! ### Spans -/

theorem Span.holds_iff {p : Config.Span} {x : Nat} : p.holds x = true ↔ p.lo ≤ x ∧ x < p.hi := by
  unfold Config.Span.holds; simp

theorem Span.holds_false_iff {p : Config.Span} {x : Nat} : p.holds x = false ↔ x < p.lo ∨ p.hi ≤ x := by
  rw [← Bool.not_eq_true, Span.holds_iff]; omega

/-- Two spans overlap exactly where some element lies in both. -/
theorem Span.overlaps_iff {p q : Config.Span} :
    p.overlaps q = true ↔ ∃ x, p.holds x = true ∧ q.holds x = true := by
  simp only [Span.holds_iff]
  unfold Config.Span.overlaps
  simp only [Bool.and_eq_true, decide_eq_true_eq]
  constructor
  · rintro ⟨⟨⟨h1, h2⟩, h3⟩, h4⟩
    exact ⟨max p.lo q.lo, by omega, by omega⟩
  · rintro ⟨x, h1, h2⟩
    omega

@[simp] theorem State.heldOutput_lo (s : State) : s.heldOutput.lo = s.plat.outBase + s.cmd.a0.toNat := rfl
@[simp] theorem State.heldOutput_hi (s : State) :
    s.heldOutput.hi = s.plat.outBase + s.plat.sinkCapacity.toNat := rfl
@[simp] theorem State.heldInput_lo (s : State) : s.heldInput.lo = s.plat.inBase := rfl
@[simp] theorem State.heldInput_hi (s : State) : s.heldInput.hi = s.plat.inBase + s.cmd.n.toNat := rfl

/-! ### The list of cells -/

theorem Memory.byteAt_setByte_same (m : Memory) (addr : Nat) (v : Byte) :
    Memory.byteAt (Memory.setByte m addr v) addr = some v := by
  induction m with
  | nil => simp [Memory.setByte, Memory.byteAt]
  | cons c m ih =>
    obtain ⟨b, w⟩ := c
    unfold Memory.setByte
    split
    · simp [Memory.byteAt]
    · split
      · simp [Memory.byteAt]
      · have : b ≠ addr := by omega
        simp [Memory.byteAt, this, ih]

theorem Memory.byteAt_setByte_other (m : Memory) {addr x : Nat} (v : Byte) (h : x ≠ addr) :
    Memory.byteAt (Memory.setByte m addr v) x = Memory.byteAt m x := by
  induction m with
  | nil => simp [Memory.setByte, Memory.byteAt, h.symm]
  | cons c m ih =>
    obtain ⟨b, w⟩ := c
    unfold Memory.setByte
    split
    · simp [Memory.byteAt, h.symm]
    · split
      · subst_vars; simp [Memory.byteAt, h.symm]
      · simp [Memory.byteAt, ih]

theorem Memory.byteAt_forget (m : Memory) (p : Config.Span) (x : Nat) :
    Memory.byteAt (Memory.forget m p) x = if p.holds x then none else Memory.byteAt m x := by
  induction m with
  | nil => simp [Memory.forget, Memory.byteAt]
  | cons c m ih =>
    obtain ⟨b, w⟩ := c
    have ih' : Memory.byteAt (List.filter (fun c => !p.holds c.1) m) x = _ := ih
    by_cases hb : b = x
    · subst hb
      by_cases hp : p.holds b
      · simp [Memory.forget, hp, ih']
      · simp [Memory.forget, Memory.byteAt, hp]
    · by_cases hp : p.holds b
      · simp [Memory.forget, Memory.byteAt, hp, ih', hb]
      · simp [Memory.forget, Memory.byteAt, hp, ih', hb]

theorem Memory.risesFrom_mono {m : Memory} {lo lo' : Nat} (h : lo' ≤ lo) (hm : Memory.risesFrom lo m = true) :
    Memory.risesFrom lo' m = true := by
  cases m with
  | nil => rfl
  | cons c m =>
    simp only [Memory.risesFrom, Bool.and_eq_true, decide_eq_true_eq] at *
    exact ⟨by omega, hm.2⟩

theorem Memory.risesFrom_setByte {m : Memory} {lo addr : Nat} (v : Byte) (h : lo ≤ addr)
    (hm : Memory.risesFrom lo m = true) : Memory.risesFrom lo (Memory.setByte m addr v) = true := by
  induction m generalizing lo with
  | nil => simpa [Memory.setByte, Memory.risesFrom] using h
  | cons c m ih =>
    obtain ⟨b, w⟩ := c
    simp only [Memory.risesFrom, Bool.and_eq_true, decide_eq_true_eq] at hm
    unfold Memory.setByte
    split
    · simp only [Memory.risesFrom, Bool.and_eq_true, decide_eq_true_eq]
      exact ⟨h, by omega, hm.2⟩
    · split
      · subst_vars; simp only [Memory.risesFrom, Bool.and_eq_true, decide_eq_true_eq]; exact ⟨h, hm.2⟩
      · simp only [Memory.risesFrom, Bool.and_eq_true, decide_eq_true_eq]
        exact ⟨hm.1, ih (by omega) hm.2⟩

theorem Memory.risesFrom_forget {m : Memory} {lo : Nat} (p : Config.Span) (hm : Memory.risesFrom lo m = true) :
    Memory.risesFrom lo (Memory.forget m p) = true := by
  induction m generalizing lo with
  | nil => rfl
  | cons c m ih =>
    obtain ⟨b, w⟩ := c
    simp only [Memory.risesFrom, Bool.and_eq_true, decide_eq_true_eq] at hm
    have htail := ih hm.2
    by_cases hp : p.holds b
    · simpa [Memory.forget, hp] using Memory.risesFrom_mono (by omega) htail
    · have hshape : Memory.forget ((b, w) :: m) p = (b, w) :: Memory.forget m p := by simp [Memory.forget, hp]
      rw [hshape]
      simpa [Memory.risesFrom] using And.intro hm.1 htail

theorem Memory.wf_setByte {m : Memory} (addr : Nat) (v : Byte) (hm : Memory.wf m = true) :
    Memory.wf (Memory.setByte m addr v) = true := Memory.risesFrom_setByte v (Nat.zero_le _) hm

theorem Memory.wf_forget {m : Memory} (p : Config.Span) (hm : Memory.wf m = true) :
    Memory.wf (Memory.forget m p) = true := Memory.risesFrom_forget p hm

theorem State.reset_mem_wf : Memory.wf State.reset.mem = true := rfl

/-! ### A byte of the state -/

/-- A byte depends on the memory and on the lost ranges only. -/
theorem State.byteAt_congr {s t : State} (hm : t.mem = s.mem) (hl : t.lost = s.lost) (addr : Nat) :
    t.byteAt addr = s.byteAt addr := by simp [State.byteAt, hm, hl]

theorem State.byteAt_writeByte_same (s : State) (addr : Nat) (v : Byte) :
    (s.writeByte addr v).byteAt addr = v := by
  simp [State.byteAt, Memory.byteAt_setByte_same]

theorem State.byteAt_writeByte_other (s : State) {addr x : Nat} (v : Byte) (h : x ≠ addr) :
    (s.writeByte addr v).byteAt x = s.byteAt x := by
  simp [State.byteAt, Memory.byteAt_setByte_other _ _ h]

theorem epochAt_filter {ls : List Lost} {p : Config.Span} {addr : Nat} (h : p.holds addr = false) :
    epochAt (ls.filter fun l => !p.covers l.span) addr = epochAt ls addr := by
  induction ls with
  | nil => rfl
  | cons l ls ih =>
    by_cases hc : p.covers l.span
    · have hl : l.span.holds addr = false := by
        simp only [Config.Span.covers, Config.Span.holds, Bool.and_eq_true, Bool.and_eq_false_iff,
          decide_eq_true_eq, decide_eq_false_iff_not] at *
        omega
      simp [hc, ih, epochAt, hl]
    · simp [hc, epochAt, ih]

/-- Outside the lost range every byte reads as before. -/
theorem State.byteAt_loseSpan_outside (s : State) {p : Config.Span} {addr : Nat} (h : p.holds addr = false) :
    (s.loseSpan p).byteAt addr = s.byteAt addr := by
  simp [State.byteAt, Memory.byteAt_forget, h, epochAt, epochAt_filter h]

/-- Inside it every byte is a free value of a new epoch. -/
theorem State.byteAt_loseSpan_inside (s : State) {p : Config.Span} {addr : Nat} (h : p.holds addr = true) :
    (s.loseSpan p).byteAt addr = Config.freeByte (s.draws + 1) addr := by
  simp [State.byteAt, Memory.byteAt_forget, h, epochAt]

theorem State.byteAt_takeReply (s : State) (addr : Nat) : s.takeReply.byteAt addr = s.byteAt addr :=
  State.byteAt_congr (by simp) (by simp) addr

/-! ### Runs of bytes -/

theorem State.bytesFrom_congr {s t : State} {addr n : Nat}
    (h : ∀ x, addr ≤ x → x < addr + n → t.byteAt x = s.byteAt x) : t.bytesFrom addr n = s.bytesFrom addr n := by
  induction n generalizing addr with
  | zero => rfl
  | succ n ih =>
    simp only [State.bytesFrom]
    rw [h addr (Nat.le_refl _) (by omega), ih fun x hx hx' => h x (by omega) (by omega)]

@[simp] theorem State.length_bytesFrom (s : State) (addr n : Nat) : (s.bytesFrom addr n).length = n := by
  induction n generalizing addr with
  | zero => rfl
  | succ n ih => simp [State.bytesFrom, ih]

theorem State.bytesFrom_add (s : State) (addr m n : Nat) :
    s.bytesFrom addr (m + n) = s.bytesFrom addr m ++ s.bytesFrom (addr + m) n := by
  induction m generalizing addr with
  | zero => simp [State.bytesFrom]
  | succ m ih =>
    rw [Nat.succ_add, State.bytesFrom, State.bytesFrom, ih, List.cons_append, Nat.add_right_comm, Nat.add_assoc]

theorem State.getElem?_bytesFrom (s : State) {addr n j : Nat} (h : j < n) :
    (s.bytesFrom addr n)[j]? = some (s.byteAt (addr + j)) := by
  induction n generalizing addr j with
  | zero => omega
  | succ n ih =>
    cases j with
    | zero => simp [State.bytesFrom]
    | succ j =>
      simp only [State.bytesFrom, List.getElem?_cons_succ]
      rw [ih (by omega), Nat.add_right_comm, Nat.add_assoc]

theorem State.writeBytes_wf (s : State) (addr : Nat) (bytes : List Byte) (h : Memory.wf s.mem = true) :
    Memory.wf (s.writeBytes addr bytes).mem = true := by
  induction bytes generalizing s addr with
  | nil => exact h
  | cons v vs ih => exact ih _ _ (Memory.wf_setByte addr v h)

/-- A run of writes leaves every byte outside it alone. -/
theorem State.byteAt_writeBytes_outside (s : State) {addr x : Nat} (bytes : List Byte)
    (h : x < addr ∨ addr + bytes.length ≤ x) : (s.writeBytes addr bytes).byteAt x = s.byteAt x := by
  induction bytes generalizing s addr with
  | nil => rfl
  | cons v vs ih =>
    simp only [List.length_cons] at h
    rw [State.writeBytes, ih _ (by omega), State.byteAt_writeByte_other _ _ (by omega)]

/-- A run of writes puts each byte at its address. -/
theorem State.byteAt_writeBytes_inside (s : State) {addr j : Nat} (bytes : List Byte) (h : j < bytes.length) :
    (s.writeBytes addr bytes).byteAt (addr + j) = bytes[j] := by
  induction bytes generalizing s addr j with
  | nil => simp at h
  | cons v vs ih =>
    cases j with
    | zero =>
      rw [State.writeBytes, State.byteAt_writeBytes_outside _ _ (by omega)]
      simpa using State.byteAt_writeByte_same s addr v
    | succ j =>
      rw [State.writeBytes, show addr + (j + 1) = addr + 1 + j by omega, ih _ (by simpa using h)]
      rfl

/-- A run of writes changes the memory only. -/
theorem State.writeBytes_eq (s : State) (addr : Nat) (bytes : List Byte) :
    s.writeBytes addr bytes = { s with mem := (s.writeBytes addr bytes).mem } := by
  induction bytes generalizing s addr with
  | nil => rfl
  | cons v vs ih => rw [State.writeBytes, ih]; rfl

end Sys2Proof.Machine
end

