-- ==== Sys2Proof/Laws/Decoders.lean ====
section
/-! SUPPORT. How the reference decoders (41_lzss.md R188, 42_rle.md R230) read a stream that grows: one item more, and a
flag byte patched. -/

namespace Sys2Proof.Machine

set_option Elab.async false

open Sys2Proof

/-! ### Runs of bytes as maps -/

theorem State.bytesFrom_eq_map (s : State) (addr n : Nat) :
    s.bytesFrom addr n = (List.range n).map fun k => s.byteAt (addr + k) := by
  induction n generalizing addr with
  | zero => rfl
  | succ n ih =>
    rw [State.bytesFrom, ih, List.range_succ_eq_map, List.map_cons, List.map_map]
    congr 1
    apply List.map_congr_left
    intro k _
    simp only [Function.comp]
    congr 1; omega

theorem State.inBytes_eq_map (s : State) (n : Nat) : s.inBytes 0 n = (List.range n).map s.inByte := by
  rw [State.inBytes, State.bytesFrom_eq_map]
  apply List.map_congr_left
  intro k _
  unfold State.inByte
  congr 1

theorem State.getElem?_outBytes (s : State) {p n j : Nat} :
    (s.outBytes p n)[j]? = if j < n then some (s.outByte (p + j)) else none := by
  unfold State.outBytes State.outByte
  split
  · rw [State.getElem?_bytesFrom _ ‹_›]; congr 2; omega
  · rw [List.getElem?_eq_none]; simp; omega

/-! ### The fields of a match token -/

/-- A match token's two bytes read back (30_encoding.md R108). -/
theorem matchBytes_read (dist : BitVec 12) (len : BitVec 4) :
    matchDist (matchByte0 dist len) (matchByte1 dist) = dist ∧ matchLen (matchByte0 dist len) = len := by
  have hd := dist.isLt
  have hs := len.isLt
  constructor
  · apply BitVec.eq_of_toNat_eq
    simp only [matchDist, matchByte0, matchByte1, BitVec.toNat_append, BitVec.extractLsb'_toNat,
      Nat.shiftRight_eq_div_pow]
    rw [← Nat.shiftLeft_add_eq_or_of_lt (by omega), ← Nat.shiftLeft_add_eq_or_of_lt (by omega)]
    simp only [Nat.shiftLeft_eq]
    omega
  · apply BitVec.eq_of_toNat_eq
    simp only [matchLen, matchByte0, BitVec.toNat_append, BitVec.extractLsb'_toNat, Nat.shiftRight_eq_div_pow]
    rw [← Nat.shiftLeft_add_eq_or_of_lt (by omega)]
    simp only [Nat.shiftLeft_eq]
    omega

/-- The multiplexer writes one bit of the flag byte (41_lzss.md R180). -/
theorem setFlagBit_getLsbD (f : Byte) {t : Nat} (ht : t ≤ 7) (b : Bool) (j : Nat) :
    (setFlagBit f t b).getLsbD j = if j = 7 - t then b else f.getLsbD j := by
  by_cases hj : j < 8
  · have h : ∀ t < 8, ∀ j < 8, (0x80#8 >>> t).getLsbD j = decide (j = 7 - t) := by decide
    have h := h t (by omega) j hj
    unfold setFlagBit
    cases b <;> simp only [if_true, Bool.false_eq_true, if_false, BitVec.getLsbD_or, BitVec.getLsbD_and,
      BitVec.getLsbD_not, h] <;> split <;> simp_all
  · rw [BitVec.getLsbD_of_ge _ _ (by omega), BitVec.getLsbD_of_ge _ _ (by omega), if_neg (by omega)]

/-! ### Copying a match -/

/-- A match whose source agrees with the input continues the input (41_lzss.md R186). -/
theorem copyMatch_input {inp : Nat → Byte} {i d : Nat} (hd1 : 1 ≤ d) (hd2 : d ≤ i) (l : Nat)
    (hc : ∀ k, k < l → inp (i - d + k) = inp (i + k)) :
    copyMatch d l ((List.range i).map inp) = some ((List.range (i + l)).map inp) := by
  induction l generalizing i with
  | zero => rfl
  | succ l ih =>
    have hne : ¬(d = 0 ∨ ((List.range i).map inp).length < d) := by simp; omega
    rw [copyMatch, if_neg hne]
    have h0 := hc 0 (by omega)
    have e : (List.range i).map inp ++ [((List.range i).map inp).getD (((List.range i).map inp).length - d) 0] =
        (List.range (i + 1)).map inp := by
      rw [List.range_succ, List.map_append]
      congr 1
      simp only [List.length_map, List.length_range, List.map_cons, List.map_nil]
      rw [List.getD_eq_getElem _ _ (by simp; omega)]
      simpa using h0
    have hi' : d ≤ i + 1 := by omega
    rw [e, ih (i := i + 1) hi' ?_]
    · rw [show i + 1 + l = i + (l + 1) by omega]
    · intro k hk
      have := hc (k + 1) (by omega)
      rw [show i + 1 - d + k = i - d + (k + 1) by omega, this]
      congr 1; omega

theorem copyMatch_prefix {d l : Nat} {out out' : List Byte} (h : copyMatch d l out = some out') : out <+: out' := by
  induction l generalizing out with
  | zero => simp [copyMatch] at h; subst h; exact List.prefix_rfl
  | succ l ih =>
    rw [copyMatch] at h
    split at h
    · simp at h
    · exact (List.prefix_append _ _).trans (ih h)

/-! ### The LZSS decoder, item by item -/

theorem lzReplayFrom_flagByte {k : Nat} {r : LzReplay} {b : Byte} {bs : List Byte} (h8 : 8 ≤ r.tok) :
    lzReplayFrom k r (b :: bs) = lzReplayFrom (k + 1) { r with flag := b, flagAt := k, tok := 0 } bs := by
  rw [lzReplayFrom.eq_def]; exact if_pos h8

theorem lzReplayFrom_literal {k : Nat} {r : LzReplay} {b : Byte} {bs : List Byte} (h8 : ¬8 ≤ r.tok)
    (hf : r.flag.getLsbD (7 - r.tok) = true) :
    lzReplayFrom k r (b :: bs) = lzReplayFrom (k + 1) { r with out := r.out ++ [b], tok := r.tok + 1 } bs := by
  rw [lzReplayFrom.eq_def]; simp only []; rw [if_neg h8, if_pos hf]

theorem lzReplayFrom_match {k : Nat} {r : LzReplay} {b b1 : Byte} {bs out : List Byte} (h8 : ¬8 ≤ r.tok)
    (hf : ¬r.flag.getLsbD (7 - r.tok) = true)
    (ho : copyMatch (matchDist b b1).toNat (matchLen b).toNat r.out = some out) :
    lzReplayFrom k r (b :: b1 :: bs) = lzReplayFrom (k + 2) { r with out := out, tok := r.tok + 1 } bs := by
  rw [lzReplayFrom.eq_def]; simp only []; rw [if_neg h8, if_neg hf]; simp only [ho]

/-- Reading on where the bytes go on. -/
theorem lzReplayFrom_append {k : Nat} {r r' : LzReplay} {bs : List Byte} (cs : List Byte)
    (h : lzReplayFrom k r bs = some r') : lzReplayFrom k r (bs ++ cs) = lzReplayFrom (k + bs.length) r' cs := by
  fun_induction lzReplayFrom k r bs with
  | case1 => simp at h; simp [h]
  | case2 k r b bs h8 ih => rw [List.cons_append, lzReplayFrom_flagByte h8, ih h]; congr 1; simp; omega
  | case3 k r b bs h8 hf ih => rw [List.cons_append, lzReplayFrom_literal h8 hf, ih h]; congr 1; simp; omega
  | case4 => simp at h
  | case5 => simp at h
  | case6 k r b h8 hf b1 bs out ho ih =>
    rw [List.cons_append, List.cons_append, lzReplayFrom_match h8 hf ho, ih h]; congr 1; simp; omega

theorem lzReplayFrom_prefix {k : Nat} {r r' : LzReplay} {bs : List Byte} (h : lzReplayFrom k r bs = some r') :
    r.out <+: r'.out := by
  fun_induction lzReplayFrom k r bs with
  | case1 => simp at h; subst h; exact List.prefix_rfl
  | case2 k r b bs h8 ih => exact ih h
  | case3 k r b bs h8 hf ih => exact (List.prefix_append _ _).trans (ih h)
  | case4 => simp at h
  | case5 => simp at h
  | case6 k r b h8 hf b1 bs out ho ih => exact (copyMatch_prefix ho).trans (ih h)

/-- The flag byte in hand is the one it started with, or the byte of the stream at its index. -/
theorem lzReplayFrom_flag {k : Nat} {r r' : LzReplay} {bs : List Byte} (h : lzReplayFrom k r bs = some r') :
    (r'.flagAt = r.flagAt ∧ r'.flag = r.flag ∧ r.tok ≤ r'.tok) ∨
    (k ≤ r'.flagAt ∧ r'.flagAt < k + bs.length ∧ bs[r'.flagAt - k]? = some r'.flag) := by
  fun_induction lzReplayFrom k r bs with
  | case1 => simp at h; subst h; simp
  | case2 k r b bs h8 ih =>
    right
    rcases ih h with ⟨a, e, _⟩ | ⟨a, l, e⟩
    · simp at a e; rw [a, e]; simp
    · refine ⟨by omega, by simp; omega, ?_⟩
      rw [show r'.flagAt - k = (r'.flagAt - (k + 1)) + 1 by omega, List.getElem?_cons_succ]; exact e
  | case3 k r b bs h8 hf ih =>
    rcases ih h with ⟨a, e, l⟩ | ⟨a, l, e⟩
    · exact .inl ⟨a, e, by simp at l; omega⟩
    · refine .inr ⟨by omega, by simp; omega, ?_⟩
      rw [show r'.flagAt - k = (r'.flagAt - (k + 1)) + 1 by omega, List.getElem?_cons_succ]; exact e
  | case4 => simp at h
  | case5 => simp at h
  | case6 k r b h8 hf b1 bs out ho ih =>
    rcases ih h with ⟨a, e, l⟩ | ⟨a, l, e⟩
    · exact .inl ⟨a, e, by simp at l; omega⟩
    · refine .inr ⟨by omega, by simp; omega, ?_⟩
      rw [show r'.flagAt - k = (r'.flagAt - (k + 2)) + 1 + 1 by omega, List.getElem?_cons_succ,
        List.getElem?_cons_succ]
      exact e

/-- Two flag bytes say the same of the first `t` tokens of a group. -/
def agreeBits (f g : Byte) (t : Nat) : Prop := ∀ j, j < t → j ≤ 7 → f.getLsbD (7 - j) = g.getLsbD (7 - j)

/-- Another flag byte in hand from the start changes nothing that was read, if it agrees on the tokens read. -/
theorem lzReplayFrom_flagHeld {k : Nat} {r r' : LzReplay} {bs : List Byte} (h : lzReplayFrom k r bs = some r')
    (hk : r'.flagAt < k) {f : Byte} (hf : agreeBits f r'.flag r'.tok) :
    lzReplayFrom k { r with flag := f } bs = some { r' with flag := f } := by
  fun_induction lzReplayFrom k r bs with
  | case1 => simp at h; subst h; rw [lzReplayFrom]
  | case2 k r b bs h8 ih => rcases lzReplayFrom_flag h with ⟨a, _⟩ | ⟨a, _⟩ <;> simp at a <;> omega
  | case3 k r b bs h8 hf' ih =>
    rcases lzReplayFrom_flag h with ⟨a, e, l⟩ | ⟨a, _⟩
    · have := hf r.tok (by simp at l; omega) (by omega)
      rw [e] at this; simp at this
      rw [lzReplayFrom_literal (r := { r with flag := f }) h8 (by simp [this, hf'])]
      exact ih h (by omega)
    · omega
  | case4 => simp at h
  | case5 => simp at h
  | case6 k r b h8 hf' b1 bs out ho ih =>
    rcases lzReplayFrom_flag h with ⟨a, e, l⟩ | ⟨a, _⟩
    · have := hf r.tok (by simp at l; omega) (by omega)
      rw [e] at this; simp at this
      rw [lzReplayFrom_match (r := { r with flag := f }) h8 (by simp [this, hf']) ho]
      exact ih h (by omega)
    · omega

/-- Patching the current group's flag byte (41_lzss.md R182) changes nothing that was read, if it agrees on the tokens
read. -/
theorem lzReplayFrom_patched {k : Nat} {r r' : LzReplay} {bs : List Byte} (h : lzReplayFrom k r bs = some r')
    (hk : k ≤ r'.flagAt) (h0 : r.flagAt < k ∨ 8 ≤ r.tok ∧ r.flagAt ≤ k) (hne : r'.flagAt < k + bs.length) {f : Byte}
    (hf : agreeBits f r'.flag r'.tok) :
    lzReplayFrom k r (bs.set (r'.flagAt - k) f) = some { r' with flag := f } := by
  fun_induction lzReplayFrom k r bs with
  | case1 => simp at hne; omega
  | case2 k r b bs h8 ih =>
    by_cases e : r'.flagAt = k
    · rw [show r'.flagAt - k = 0 by omega, List.set_cons_zero, lzReplayFrom_flagByte h8]
      exact lzReplayFrom_flagHeld h (by omega) hf
    · rw [show r'.flagAt - k = (r'.flagAt - (k + 1)) + 1 by omega, List.set_cons_succ, lzReplayFrom_flagByte h8]
      exact ih h (by omega) (by simp) (by simp at hne; omega)
  | case3 k r b bs h8 hf' ih =>
    have : r.flagAt < k := by omega
    have hlt : k + 1 ≤ r'.flagAt := by
      rcases lzReplayFrom_flag h with ⟨a, _⟩ | ⟨a, _⟩
      · simp at a; omega
      · omega
    rw [show r'.flagAt - k = (r'.flagAt - (k + 1)) + 1 by omega, List.set_cons_succ, lzReplayFrom_literal h8 hf']
    exact ih h hlt (by left; simp; omega) (by simp at hne; omega)
  | case4 => simp at h
  | case5 => simp at h
  | case6 k r b h8 hf' b1 bs out ho ih =>
    have : r.flagAt < k := by omega
    have hlt : k + 2 ≤ r'.flagAt := by
      rcases lzReplayFrom_flag h with ⟨a, _⟩ | ⟨a, _⟩
      · simp at a; omega
      · omega
    rw [show r'.flagAt - k = (r'.flagAt - (k + 2)) + 1 + 1 by omega, List.set_cons_succ, List.set_cons_succ,
      lzReplayFrom_match h8 hf' ho]
    exact ih h hlt (by left; simp; omega) (by simp at hne; omega)

/-- A stream that is read whole, and puts out `n` bytes, is what the decoder with length `n` gives. -/
theorem lzDecodeWith_of_replay {k n fuel : Nat} {r r' : LzReplay} {bs : List Byte} (h : lzReplayFrom k r bs = some r')
    (hn : r'.out.length = n) (hfuel : bs.length ≤ fuel) :
    lzDecodeWith n fuel r.out r.flag r.tok bs = some r'.out := by
  fun_induction lzReplayFrom k r bs generalizing fuel with
  | case1 k r => simp at h; subst h; unfold lzDecodeWith; rw [if_pos (by omega)]
  | case2 k r b bs h8 ih =>
    have hp := lzReplayFrom_prefix h
    unfold lzDecodeWith
    split
    · have := hp.eq_of_length_le (by simp; omega)
      simp at this; rw [this]
    · cases fuel with
      | zero => simp at hfuel
      | succ fuel => exact ih h (by simpa using hfuel)
  | case3 k r b bs h8 hf' ih =>
    have hp := (List.prefix_append _ _).trans (lzReplayFrom_prefix h)
    unfold lzDecodeWith
    split
    · rw [hp.eq_of_length_le (by omega)]
    · cases fuel with
      | zero => simp at hfuel
      | succ fuel => exact ih h (by simpa using hfuel)
  | case4 => simp at h
  | case5 => simp at h
  | case6 k r b h8 hf' b1 bs out ho ih =>
    have hp := (copyMatch_prefix ho).trans (lzReplayFrom_prefix h)
    unfold lzDecodeWith
    split
    · rw [hp.eq_of_length_le (by omega)]
    · cases fuel with
      | zero => simp at hfuel
      | succ fuel => simp only [ho]; exact ih h (by simp at hfuel; omega)

/-! ### The RLE decoder, packet by packet -/

theorem rleDecodeWith_cons (fuel : Nat) (c : Byte) (bs : List Byte) :
    rleDecodeWith (fuel + 1) (c :: bs) =
      if c.getLsbD 7 then
        match bs with
        | [] => none
        | v :: rest => (rleDecodeWith fuel rest).map (List.replicate (c.toNat % 128) v ++ ·)
      else if bs.length < c.toNat then none
      else (rleDecodeWith fuel (bs.drop c.toNat)).map (bs.take c.toNat ++ ·) := by
  cases bs <;> rfl

@[simp] theorem rleDecodeWith_nil (fuel : Nat) : rleDecodeWith fuel [] = some [] := by cases fuel <;> rfl

theorem rleDecodeWith_mono {fuel fuel' : Nat} {bs out : List Byte} (h : rleDecodeWith fuel bs = some out)
    (hf : fuel ≤ fuel') : rleDecodeWith fuel' bs = some out := by
  induction fuel generalizing bs out fuel' with
  | zero =>
    cases bs with
    | nil => simpa using h
    | cons c bs => simp [rleDecodeWith] at h
  | succ fuel ih =>
    cases bs with
    | nil => simpa using h
    | cons c bs =>
      obtain ⟨f, rfl⟩ : ∃ f, fuel' = f + 1 := ⟨fuel' - 1, by omega⟩
      rw [rleDecodeWith_cons] at h ⊢
      split at h
      · rename_i hc
        rw [if_pos hc]
        cases bs with
        | nil => simp at h
        | cons v rest =>
          simp only [Option.map_eq_some_iff] at h ⊢
          obtain ⟨o, h1, h2⟩ := h
          exact ⟨o, ih h1 (by omega), h2⟩
      · rename_i hc
        rw [if_neg hc]
        split at h
        · simp at h
        · rename_i hl
          rw [if_neg hl]
          simp only [Option.map_eq_some_iff] at h ⊢
          obtain ⟨o, h1, h2⟩ := h
          exact ⟨o, ih h1 (by omega), h2⟩

/-- Two streams one after the other decode to the two outputs one after the other. -/
theorem rleDecodeWith_append {f1 f2 : Nat} {bs cs o1 o2 : List Byte} (h1 : rleDecodeWith f1 bs = some o1)
    (h2 : rleDecodeWith f2 cs = some o2) : rleDecodeWith (f1 + f2) (bs ++ cs) = some (o1 ++ o2) := by
  induction f1 generalizing bs o1 with
  | zero =>
    cases bs with
    | nil => simp at h1; subst h1; simpa using h2
    | cons c bs => simp [rleDecodeWith] at h1
  | succ f1 ih =>
    cases bs with
    | nil => simp at h1; subst h1; exact rleDecodeWith_mono h2 (by omega)
    | cons c bs =>
      rw [show f1 + 1 + f2 = (f1 + f2) + 1 by omega, List.cons_append, rleDecodeWith_cons]
      rw [rleDecodeWith_cons] at h1
      split at h1
      · rename_i hc
        rw [if_pos hc]
        cases bs with
        | nil => simp at h1
        | cons v rest =>
          simp only [Option.map_eq_some_iff, List.cons_append] at h1 ⊢
          obtain ⟨o, h1, h3⟩ := h1
          exact ⟨_, ih h1, by rw [← h3, List.append_assoc]⟩
      · rename_i hc
        rw [if_neg hc]
        split at h1
        · simp at h1
        · rename_i hl
          rw [if_neg (by rw [List.length_append]; omega)]
          simp only [Option.map_eq_some_iff] at h1 ⊢
          obtain ⟨o, h1, h3⟩ := h1
          rw [List.drop_append_of_le_length (by omega), List.take_append_of_le_length (by omega)]
          exact ⟨_, ih h1, by rw [← h3, List.append_assoc]⟩

/-- The control byte of a run packet read back (30_encoding.md R110). -/
theorem runControl_read (r : BitVec 7) : (runControl r).getLsbD 7 = true ∧ (runControl r).toNat % 128 = r.toNat := by
  have hr := r.isLt
  constructor
  · rw [runControl, BitVec.getLsbD_append]; rfl
  · simp only [runControl, BitVec.toNat_append]
    rw [← Nat.shiftLeft_add_eq_or_of_lt (by omega)]
    simp only [Nat.shiftLeft_eq]
    omega

/-- The control byte of a literal packet read back (30_encoding.md R111). -/
theorem literalControl_read (l : BitVec 7) :
    (literalControl l).getLsbD 7 = false ∧ (literalControl l).toNat = l.toNat := by
  constructor
  · rw [literalControl, BitVec.getLsbD_append]; rfl
  · rw [literalControl, BitVec.toNat_append, ← Nat.shiftLeft_add_eq_or_of_lt l.isLt]
    simp

end Sys2Proof.Machine
end

