-- ==== Sys2Proof/Laws/Ops.lean ====
section
/-! SUPPORT. What each shared operation can do, said once: error entry, the sink's append and patch, the start of a
command, reset. Later proofs cite these and do not unfold the operations. -/

namespace Sys2Proof.Machine

open Sys2Proof

/-! ### Flow -/

@[simp] theorem Flow.andThen_going (s : State) (f : State → Flow) : (Flow.going s).andThen f = f s := rfl
@[simp] theorem Flow.andThen_ended (s : State) (f : State → Flow) : (Flow.ended s).andThen f = .ended s := rfl
@[simp] theorem Flow.andThen_faulted (r : Fault) (f : State → Flow) : (Flow.faulted r).andThen f = .faulted r := rfl
@[simp] theorem Flow.map_going (s : State) (f : State → State) : (Flow.going s).map f = .going (f s) := rfl
@[simp] theorem Flow.map_ended (s : State) (f : State → State) : (Flow.ended s).map f = .ended s := rfl
@[simp] theorem Flow.map_faulted (r : Fault) (f : State → State) : (Flow.faulted r).map f = .faulted r := rfl
@[simp] theorem Flow.outcome_going (s : State) : (Flow.going s).outcome = .next s := rfl
@[simp] theorem Flow.outcome_ended (s : State) : (Flow.ended s).outcome = .next s := rfl
@[simp] theorem Flow.outcome_faulted (r : Fault) : (Flow.faulted r).outcome = .fault r := rfl

/-! ### Error entry -/

@[simp] theorem raiseError_status (e : Raise) (s : State) : (raiseError e s).status = Status.failed e.cause := rfl

theorem raiseError_illegalCommand (s : State) :
    raiseError .illegalCommand s = { s with status := Status.failed .illegalCommand } := rfl

theorem raiseError_lengthError (s : State) :
    raiseError .lengthError s = { s with status := Status.failed .lengthError } := rfl

@[simp] theorem Status.failed_busy (c : Cause) : (Status.failed c).busy = false := rfl

theorem Status.failed_consistent {c : Cause} (h : c ≠ .none) : (Status.failed c).Consistent :=
  ⟨by simp, by simp [Status.failed], by simpa [Status.failed] using h⟩

/-- Everything a sink failure does to a state whose command it ends. -/
theorem raiseError_sinkWriteFailure_failedAt (s : State) (p : Word) :
    FailedAt s (raiseError (.sinkWriteFailure p) s) p := by
  refine ⟨rfl, rfl, rfl, rfl, rfl, rfl, rfl, rfl, rfl, rfl, rfl, rfl, rfl, fun addr h => ?_⟩
  exact State.byteAt_loseSpan_outside s h

theorem raiseError_sinkWriteFailure_a (s : State) (p : Word) :
    (raiseError (.sinkWriteFailure p) s).a = s.a := rfl

theorem raiseError_mem_wf {e : Raise} {s : State} (h : Memory.wf s.mem = true) :
    Memory.wf (raiseError e s).mem = true := by
  cases e with
  | sinkWriteFailure p => exact Memory.wf_forget _ h
  | illegalCommand => exact h
  | lengthError => exact h

/-- A failure seen from an earlier state of the same command, whose output range is the same. -/
theorem FailedAt.from_earlier {s t u : State} {p : Word} (hst : SameCommand s t)
    (hb : bytesKeptBut s t s.heldOutput) (h : FailedAt t u p) : FailedAt s u p := by
  have hheld : t.heldOutput = s.heldOutput := by
    simp [State.heldOutput, State.outputSpan, hst.plat, hst.a0]
  refine ⟨h.errpos, h.status, h.result.trans hst.result, h.resultOpen, h.ctrlOp.trans hst.ctrlOp,
    h.len.trans hst.len, h.op.trans hst.op, h.n.trans hst.n, h.a0.trans hst.a0, h.plat.trans hst.plat,
    h.others.trans hst.others, h.inputs.trans hst.inputs, h.obs.trans hst.obs, fun addr ha => ?_⟩
  rw [h.bytes addr (by rw [hheld]; exact ha), hb addr ha]

/-! ### Frames compose -/

theorem SameCommand.refl (s : State) : SameCommand s s :=
  ⟨rfl, rfl, rfl, rfl, rfl, rfl, rfl, rfl, rfl, rfl, rfl, rfl, rfl, rfl⟩

theorem SameCommand.trans {s t u : State} (h : SameCommand s t) (k : SameCommand t u) : SameCommand s u :=
  ⟨k.ctrlOp.trans h.ctrlOp, k.status.trans h.status, k.len.trans h.len, k.result.trans h.result,
   k.resultOpen.trans h.resultOpen, k.errpos.trans h.errpos, k.op.trans h.op, k.n.trans h.n, k.a0.trans h.a0,
   k.lost.trans h.lost, k.plat.trans h.plat, k.others.trans h.others,
   k.inputs.trans h.inputs, k.obs.trans h.obs⟩

theorem SameCommand.takeReply (s : State) : SameCommand s s.takeReply := by
  constructor <;> simp

theorem SameCommand.countBytes (s : State) (n : Nat) : SameCommand s (s.countBytes n) := by
  constructor <;> simp

theorem SameCommand.heldOutput {s t : State} (h : SameCommand s t) : t.heldOutput = s.heldOutput := by
  simp [State.heldOutput, State.outputSpan, h.plat, h.a0]

theorem SameCommand.heldInput {s t : State} (h : SameCommand s t) : t.heldInput = s.heldInput := by
  simp [State.heldInput, State.inputSpan, h.plat, h.n]

/-! ### Append -/

/-- The state after one accepted append. -/
def State.appendOne (v : Byte) (s : State) : State :=
  { s.takeReply.writeByte (s.plat.outBase + s.a.toNat) v with a := s.a + 1 }

/-- The state after a run of accepted appends. -/
def State.appendAll : List Byte → State → State
  | [], s => s
  | v :: vs, s => State.appendAll vs (s.appendOne v)

theorem SameCommand.appendOne (s : State) (v : Byte) : SameCommand s (s.appendOne v) := by
  constructor <;> simp [State.appendOne]

theorem SameCommand.appendAll (s : State) (vs : List Byte) : SameCommand s (s.appendAll vs) := by
  induction vs generalizing s with
  | nil => exact SameCommand.refl s
  | cons v vs ih => exact (SameCommand.appendOne s v).trans (ih _)

@[simp] theorem State.appendOne_a (s : State) (v : Byte) : (s.appendOne v).a = s.a + 1 := rfl
@[simp] theorem State.appendOne_plat (s : State) (v : Byte) : (s.appendOne v).plat = s.plat := by simp [State.appendOne]
@[simp] theorem State.appendOne_cmd (s : State) (v : Byte) : (s.appendOne v).cmd = s.cmd := by simp [State.appendOne]
@[simp] theorem State.appendOne_lz (s : State) (v : Byte) : (s.appendOne v).lz = s.lz := by simp [State.appendOne]
@[simp] theorem State.appendOne_rl (s : State) (v : Byte) : (s.appendOne v).rl = s.rl := by simp [State.appendOne]
@[simp] theorem State.appendOne_status (s : State) (v : Byte) : (s.appendOne v).status = s.status := by
  simp [State.appendOne]
@[simp] theorem State.appendOne_mem (s : State) (v : Byte) :
    (s.appendOne v).mem = Memory.setByte s.mem (s.plat.outBase + s.a.toNat) v := by simp [State.appendOne]

@[simp] theorem State.appendAll_cmd (s : State) (vs : List Byte) : (s.appendAll vs).cmd = s.cmd := by
  induction vs generalizing s with
  | nil => rfl
  | cons v vs ih => simp [State.appendAll, ih]
@[simp] theorem State.appendAll_lz (s : State) (vs : List Byte) : (s.appendAll vs).lz = s.lz := by
  induction vs generalizing s with
  | nil => rfl
  | cons v vs ih => simp [State.appendAll, ih]
@[simp] theorem State.appendAll_rl (s : State) (vs : List Byte) : (s.appendAll vs).rl = s.rl := by
  induction vs generalizing s with
  | nil => rfl
  | cons v vs ih => simp [State.appendAll, ih]
@[simp] theorem State.appendAll_plat (s : State) (vs : List Byte) : (s.appendAll vs).plat = s.plat := by
  induction vs generalizing s with
  | nil => rfl
  | cons v vs ih => simp [State.appendAll, ih]
@[simp] theorem State.appendAll_status (s : State) (vs : List Byte) : (s.appendAll vs).status = s.status := by
  induction vs generalizing s with
  | nil => rfl
  | cons v vs ih => simp [State.appendAll, ih]

theorem State.byteAt_appendOne (s : State) (v : Byte) (x : Nat) :
    (s.appendOne v).byteAt x = if x = s.plat.outBase + s.a.toNat then v else s.byteAt x := by
  have hw : (s.appendOne v).byteAt x = (s.takeReply.writeByte (s.plat.outBase + s.a.toNat) v).byteAt x :=
    State.byteAt_congr (by simp [State.appendOne]) (by simp [State.appendOne]) x
  rw [hw]
  split
  · subst_vars; exact State.byteAt_writeByte_same _ _ _
  · rw [State.byteAt_writeByte_other _ _ (by assumption), State.byteAt_takeReply]

theorem State.appendOne_mem_wf {s : State} (v : Byte) (h : Memory.wf s.mem = true) :
    Memory.wf (s.appendOne v).mem = true := by
  rw [State.appendOne_mem]; exact Memory.wf_setByte _ _ h

/-- Everything a single append can do: it is accepted, or it fails at `A` with the failing write not performed
(43_sink.md R261). It never faults. -/
theorem sinkAppend_cases (v : Byte) (s : State) :
    (sinkAppend v s = .going (s.appendOne v) ∧ s.a.toNat < s.plat.sinkCapacity.toNat) ∨
    ∃ t, sinkAppend v s = .ended t ∧ FailedAt s t s.a ∧ t.a = s.a ∧ (Memory.wf s.mem = true → Memory.wf t.mem = true) := by
  unfold sinkAppend
  split
  · exact .inr ⟨_, rfl, raiseError_sinkWriteFailure_failedAt s s.a, rfl, raiseError_mem_wf⟩
  · split
    · refine .inr ⟨_, rfl, ?_, by simp [raiseError_sinkWriteFailure_a], fun h => raiseError_mem_wf (by simpa using h)⟩
      exact (raiseError_sinkWriteFailure_failedAt s.takeReply s.a).from_earlier (SameCommand.takeReply s)
        fun addr _ => State.byteAt_takeReply s addr
    · exact .inl ⟨rfl, by omega⟩

/-- An accepted append. -/
theorem sinkAppend_accepted {s : State} (v : Byte) (h : s.acceptsAppend) : sinkAppend v s = .going (s.appendOne v) := by
  unfold sinkAppend
  rw [if_neg (by have := h.1; omega), if_neg (by simp [h.2])]
  rfl

/-- Acceptance depends on the platform, the append pointer, the settled answers and the draws only. -/
theorem State.acceptsAppends_congr {k : Nat} {s t : State} (ha : t.a = s.a) (hp : t.plat = s.plat)
    (hr : t.replies = s.replies) (hd : t.draws = s.draws) : State.acceptsAppends k t ↔ State.acceptsAppends k s := by
  induction k generalizing s t with
  | zero => exact Iff.rfl
  | succ k ih =>
    have hrefuse : t.sinkRefuses .append t.a.toNat = s.sinkRefuses .append s.a.toNat := by
      unfold State.sinkRefuses; rw [hr, hd, ha]
    unfold State.acceptsAppends State.acceptsAppend
    rw [hrefuse]
    refine and_congr (by rw [ha, hp]) (ih (by simp [ha]) (by simp [hp]) ?_ ?_)
    · show t.takeReply.replies = s.takeReply.replies
      unfold State.takeReply; rw [hr]; split <;> simp_all
    · show t.takeReply.draws = s.takeReply.draws
      unfold State.takeReply; rw [hr, hd]; split <;> simp_all

theorem State.acceptsAppends_appendOne {k : Nat} {s : State} (v : Byte) (h : State.acceptsAppends (k + 1) s) :
    State.acceptsAppends k (s.appendOne v) :=
  (State.acceptsAppends_congr (k := k) (s := { s.takeReply with a := s.a + 1 }) (t := s.appendOne v)
    rfl (by simp) rfl rfl).mpr h.2

/-- An accepted run of appends (43_sink.md R260). -/
theorem sinkAppendAll_accepted {s : State} {vs : List Byte} (h : State.acceptsAppends vs.length s) :
    sinkAppendAll vs s = .going (s.appendAll vs) := by
  induction vs generalizing s with
  | nil => rfl
  | cons v vs ih =>
    rw [sinkAppendAll, sinkAppend_accepted v h.1]
    exact ih (State.acceptsAppends_appendOne v h)

/-- Appending one byte and then more is appending them all. -/
theorem sinkAppend_andThen_all (v : Byte) (vs : List Byte) (s : State) :
    (sinkAppend v s).andThen (sinkAppendAll vs) = sinkAppendAll (v :: vs) s := rfl

theorem sinkAppendAll_one (v : Byte) (s : State) : sinkAppendAll [v] s = sinkAppend v s := by
  rw [sinkAppendAll]; cases sinkAppend v s <;> rfl

theorem sinkAppend_andThen_one (v w : Byte) (s : State) :
    (sinkAppend v s).andThen (sinkAppend w) = sinkAppendAll [v, w] s := by
  rw [sinkAppendAll]
  cases sinkAppend v s with
  | going t => exact (sinkAppendAll_one w t).symm
  | ended t => rfl
  | faulted r => rfl

/-- Where the appended bytes stand, as long as they stay inside `OUT`. -/
theorem State.appendAll_facts {s : State} (vs : List Byte) (hfit : s.a.toNat + vs.length < 2 ^ 32) :
    (s.appendAll vs).a.toNat = s.a.toNat + vs.length ∧
    (∀ x, x < s.plat.outBase + s.a.toNat ∨ s.plat.outBase + s.a.toNat + vs.length ≤ x →
      (s.appendAll vs).byteAt x = s.byteAt x) ∧
    (∀ j (hj : j < vs.length), (s.appendAll vs).byteAt (s.plat.outBase + s.a.toNat + j) = vs[j]) ∧
    (Memory.wf s.mem = true → Memory.wf (s.appendAll vs).mem = true) := by
  induction vs generalizing s with
  | nil => exact ⟨rfl, fun _ _ => rfl, fun j hj => absurd hj (by simp), id⟩
  | cons v vs ih =>
    simp only [List.length_cons] at hfit
    have ha : (s.appendOne v).a.toNat = s.a.toNat + 1 := by
      rw [State.appendOne_a, BitVec.toNat_add]; simp; omega
    obtain ⟨h1, h2, h3, h4⟩ := ih (s := s.appendOne v) (by omega)
    simp only [State.appendOne_plat, ha] at h1 h2 h3
    refine ⟨by simp only [State.appendAll, List.length_cons]; omega, fun x hx => ?_, fun j hj => ?_,
      fun h => h4 (State.appendOne_mem_wf v h)⟩
    · simp only [List.length_cons] at hx
      rw [State.appendAll, h2 x (by omega), State.byteAt_appendOne, if_neg (by omega)]
    · cases j with
      | zero =>
        rw [State.appendAll, h2 _ (by omega), State.byteAt_appendOne, if_pos (by omega)]; rfl
      | succ j =>
        have := h3 j (by simpa using hj)
        rw [State.appendAll, show s.plat.outBase + s.a.toNat + (j + 1) = s.plat.outBase + (s.a.toNat + 1) + j by omega,
          this]
        rfl

/-- Everything a run of appends can do: all are accepted, inside `OUT`; or one fails and the command ends there
(60_exceptions.md R288). It never faults. -/
theorem sinkAppendAll_cases (vs : List Byte) (s : State) (ha0 : s.cmd.a0.toNat ≤ s.a.toNat) :
    (sinkAppendAll vs s = .going (s.appendAll vs) ∧
      (vs = [] ∨ s.a.toNat + vs.length ≤ s.plat.sinkCapacity.toNat)) ∨
    ∃ t k, k < vs.length ∧ sinkAppendAll vs s = .ended t ∧ FailedAt s t (s.a + BitVec.ofNat 32 k) ∧
      t.a = s.a + BitVec.ofNat 32 k ∧ (k = 0 ∨ s.a.toNat + k ≤ s.plat.sinkCapacity.toNat) ∧
      (Memory.wf s.mem = true → Memory.wf t.mem = true) := by
  induction vs generalizing s with
  | nil => exact .inl ⟨rfl, .inl rfl⟩
  | cons v vs ih =>
    rcases sinkAppend_cases v s with ⟨hgo, hcap⟩ | ⟨t, hend, hfail, hta, hwf⟩
    · have hlt := s.plat.sinkCapacity.isLt
      have ha : (s.appendOne v).a.toNat = s.a.toNat + 1 := by
        rw [State.appendOne_a, BitVec.toNat_add]; simp; omega
      have hstep : sinkAppendAll (v :: vs) s = sinkAppendAll vs (s.appendOne v) := by rw [sinkAppendAll, hgo]; rfl
      rcases ih (s.appendOne v) (by rw [State.appendOne_cmd, ha]; omega) with ⟨h, hfit⟩ | ⟨t, k, hk, hend, hfail, hta, hpos0, hwf⟩
      · refine .inl ⟨hstep.trans h, .inr ?_⟩
        rw [ha] at hfit
        rcases hfit with rfl | hfit
        · simp only [List.length_cons, List.length_nil]; omega
        · simp only [List.length_cons]; rw [State.appendOne_plat] at hfit; omega
      · have hpos : (s.appendOne v).a + BitVec.ofNat 32 k = s.a + BitVec.ofNat 32 (k + 1) := by
          rw [State.appendOne_a, BitVec.add_assoc]
          congr 1
          apply BitVec.eq_of_toNat_eq
          simp [Nat.add_comm]
        have hk1 : s.a.toNat + (k + 1) ≤ s.plat.sinkCapacity.toNat := by
          rw [ha, State.appendOne_plat] at hpos0; omega
        refine .inr ⟨t, k + 1, by simpa using hk, hstep.trans hend, ?_, by rw [hta, hpos], .inr hk1,
          fun h => hwf (State.appendOne_mem_wf v h)⟩
        rw [hpos] at hfail
        refine hfail.from_earlier (SameCommand.appendOne s v) fun addr haddr => ?_
        rw [State.byteAt_appendOne, if_neg]
        rintro rfl
        simp [State.heldOutput, State.outputSpan, Config.Span.holds] at haddr
        omega
    · refine .inr ⟨t, 0, by simp, by rw [sinkAppendAll, hend]; rfl, ?_, ?_, .inl rfl, hwf⟩
      · simpa using hfail
      · simpa using hta

/-! ### Patch -/

/-- The state after an accepted patch. -/
def State.patchOne (p : Word) (v : Byte) (s : State) : State :=
  s.takeReply.writeByte (s.plat.outBase + p.toNat) v

theorem SameCommand.patchOne (s : State) (p : Word) (v : Byte) : SameCommand s (s.patchOne p v) := by
  constructor <;> simp [State.patchOne]

@[simp] theorem State.patchOne_a (s : State) (p : Word) (v : Byte) : (s.patchOne p v).a = s.a := by
  simp [State.patchOne]
@[simp] theorem State.patchOne_cmd (s : State) (p : Word) (v : Byte) : (s.patchOne p v).cmd = s.cmd := by
  simp [State.patchOne]
@[simp] theorem State.patchOne_lz (s : State) (p : Word) (v : Byte) : (s.patchOne p v).lz = s.lz := by
  simp [State.patchOne]
@[simp] theorem State.patchOne_rl (s : State) (p : Word) (v : Byte) : (s.patchOne p v).rl = s.rl := by
  simp [State.patchOne]
@[simp] theorem State.patchOne_plat (s : State) (p : Word) (v : Byte) : (s.patchOne p v).plat = s.plat := by
  simp [State.patchOne]
@[simp] theorem State.patchOne_status (s : State) (p : Word) (v : Byte) : (s.patchOne p v).status = s.status := by
  simp [State.patchOne]

theorem State.byteAt_patchOne (s : State) (p : Word) (v : Byte) (x : Nat) :
    (s.patchOne p v).byteAt x = if x = s.plat.outBase + p.toNat then v else s.byteAt x := by
  unfold State.patchOne
  split
  · subst_vars; exact State.byteAt_writeByte_same _ _ _
  · rw [State.byteAt_writeByte_other _ _ (by assumption), State.byteAt_takeReply]

theorem State.patchOne_mem_wf {s : State} (p : Word) (v : Byte) (h : Memory.wf s.mem = true) :
    Memory.wf (s.patchOne p v).mem = true := by
  simpa [State.patchOne] using Memory.wf_setByte _ v h

/-- Everything a patch can do: it faults at or above `A`, is accepted below it, or fails with nothing written
(43_sink.md R262). -/
theorem sinkPatch_cases (p : Word) (v : Byte) (s : State) :
    (sinkPatch p v s = .faulted .patchNotBelowEnd ∧ s.a.toNat ≤ p.toNat) ∨
    (sinkPatch p v s = .going (s.patchOne p v) ∧ p.toNat < s.a.toNat) ∨
    ∃ t, sinkPatch p v s = .ended t ∧ p.toNat < s.a.toNat ∧ FailedAt s t p ∧ t.a = s.a ∧
      (Memory.wf s.mem = true → Memory.wf t.mem = true) := by
  unfold sinkPatch
  split
  · exact .inl ⟨rfl, by assumption⟩
  · split
    · refine .inr (.inr ⟨_, rfl, by omega, ?_, by simp [raiseError_sinkWriteFailure_a],
        fun h => raiseError_mem_wf (by simpa using h)⟩)
      exact (raiseError_sinkWriteFailure_failedAt s.takeReply p).from_earlier (SameCommand.takeReply s)
        fun addr _ => State.byteAt_takeReply s addr
    · exact .inr (.inl ⟨rfl, by omega⟩)

/-! ### Start -/

/-- Everything a start with a legal command word can do (40_commands.md R140, R141, R149). -/
theorem startEncoder_cases (op : BitVec 2) (enter : State → State) (s : State) :
    (startEncoder op enter s = .refused .registerWriteWhileBusy ∧ s.status.busy = true) ∨
    (startEncoder op enter s = .next (raiseError .lengthError (s.storeOp op).clearStatus) ∧ s.status.busy = false ∧
      s.plat.inSize.toNat < s.len.toNat) ∨
    (∃ r, startEncoder op enter s = .refused r ∧ s.status.busy = false ∧ s.launchRefusal = some r) ∨
    (startEncoder op enter s = .next (enter ((s.storeOp op).clearStatus.latchCommand op)) ∧ s.status.busy = false ∧
      s.len.toNat ≤ s.plat.inSize.toNat ∧ s.launchRefusal = none) := by
  unfold startEncoder
  split
  · exact .inl ⟨rfl, by assumption⟩
  · split
    · exact .inr (.inl ⟨rfl, by simp_all, by assumption⟩)
    · split
      · exact .inr (.inr (.inl ⟨_, rfl, by simp_all, by assumption⟩))
      · exact .inr (.inr (.inr ⟨rfl, by simp_all, by omega, by assumption⟩))

/-! ### Reset -/

/-- The reset input leaves no command running, and every byte outside an abandoned command's output range alone
(70_reset_and_hazards.md R310, R312). -/
theorem resetInput_bytes (s : State) :
    (s.status.busy = false → bytesKept s (resetInput s)) ∧ bytesKeptBut s (resetInput s) s.heldOutput := by
  have hmem : (resetInput s).mem = s.abandonCommand.mem := rfl
  have hlost : (resetInput s).lost = s.abandonCommand.lost := rfl
  constructor
  · intro hb addr
    rw [State.byteAt_congr hmem hlost]
    simp [State.abandonCommand, hb]
  · intro addr ha
    rw [State.byteAt_congr hmem hlost]
    unfold State.abandonCommand
    split
    · exact State.byteAt_loseSpan_outside s ha
    · rfl

end Sys2Proof.Machine
end

