-- ==== Sys2Proof/Laws/Engine.lean ====
section
/-! SUPPORT. What the rows of the streams and one engine step can do, said once. -/

namespace Sys2Proof.Machine

open Sys2Proof

/-! ### The rows that append -/

/-- What a row does after its bytes are appended (41_lzss.md R178, R179; 42_rle.md R224, R226). -/
def afterAppend : Instr → State → State
  | .lzLit _, t => endToken true 1 (t.countBytes 1)
  | .lzMatch _ len, t => endToken false len (t.countBytes 2)
  | .rlRun r _, t => rlAdvance r.toNat (t.countBytes 2)
  | .rlLit bytes, t => rlAdvance bytes.length (t.countBytes (1 + bytes.length))
  | .encodeLzss, t => t
  | .encodeRle, t => t
  | .reservedOp2, t => t
  | .reservedOp3, t => t
  | .illegalRes _ _, t => t
  | .noCommand _ _, t => t
  | .lzFlag _, t => t

theorem exec_lzLit_eq (v : Byte) (s : State) :
    exec (.lzLit v) s = ((sinkAppendAll (encodeBytes (.lzLit v)) s).map (afterAppend (.lzLit v))).outcome := by
  show execLzLit v s = _
  rw [execLzLit, show encodeBytes (.lzLit v) = [v] from rfl, sinkAppendAll_one]
  rfl

theorem exec_lzMatch_eq (d : BitVec 12) (l : BitVec 4) (s : State) :
    exec (.lzMatch d l) s =
      ((sinkAppendAll (encodeBytes (.lzMatch d l)) s).map (afterAppend (.lzMatch d l))).outcome := by
  show execLzMatch d l s = _
  rw [execLzMatch, sinkAppend_andThen_one]
  rfl

theorem exec_rlRun_eq (r : BitVec 7) (v : Byte) (s : State) :
    exec (.rlRun r v) s = ((sinkAppendAll (encodeBytes (.rlRun r v)) s).map (afterAppend (.rlRun r v))).outcome := by
  show execRlRun r v s = _
  rw [execRlRun, sinkAppend_andThen_one]
  rfl

theorem exec_rlLit_eq (bs : List Byte) (s : State) :
    exec (.rlLit bs) s = ((sinkAppendAll (encodeBytes (.rlLit bs)) s).map (afterAppend (.rlLit bs))).outcome := by
  show execRlLit bs s = _
  rw [execRlLit, sinkAppend_andThen_all]
  rfl

theorem SameCommand.endToken (b : Bool) (k : BitVec 4) (s : State) : SameCommand s (endToken b k s) := by
  constructor <;> simp
theorem SameCommand.rlAdvance (n : Nat) (s : State) : SameCommand s (rlAdvance n s) := by
  constructor <;> simp

theorem SameCommand.afterAppend (i : Instr) (s : State) : SameCommand s (afterAppend i s) := by
  cases i with
  | lzLit v => exact (SameCommand.countBytes s 1).trans (SameCommand.endToken _ _ _)
  | lzMatch d l => exact (SameCommand.countBytes s 2).trans (SameCommand.endToken _ _ _)
  | rlRun r v => exact (SameCommand.countBytes s 2).trans (SameCommand.rlAdvance _ _)
  | rlLit bs => exact (SameCommand.countBytes s _).trans (SameCommand.rlAdvance _ _)
  | encodeLzss => exact SameCommand.refl s
  | encodeRle => exact SameCommand.refl s
  | reservedOp2 => exact SameCommand.refl s
  | reservedOp3 => exact SameCommand.refl s
  | illegalRes _ _ => exact SameCommand.refl s
  | noCommand _ _ => exact SameCommand.refl s
  | lzFlag _ => exact SameCommand.refl s

@[simp] theorem afterAppend_a (i : Instr) (s : State) : (afterAppend i s).a = s.a := by cases i <;> rfl
@[simp] theorem afterAppend_mem (i : Instr) (s : State) : (afterAppend i s).mem = s.mem := by cases i <;> rfl
@[simp] theorem afterAppend_lost (i : Instr) (s : State) : (afterAppend i s).lost = s.lost := by cases i <;> rfl
@[simp] theorem afterAppend_plat (i : Instr) (s : State) : (afterAppend i s).plat = s.plat := by cases i <;> rfl
@[simp] theorem afterAppend_status (i : Instr) (s : State) : (afterAppend i s).status = s.status := by
  cases i <;> rfl

/-- The rows that append, told apart from the commit and the command words. -/
def Instr.appends : Instr → Bool
  | .lzLit _ => true
  | .lzMatch _ _ => true
  | .rlRun _ _ => true
  | .rlLit _ => true
  | .encodeLzss => false
  | .encodeRle => false
  | .reservedOp2 => false
  | .reservedOp3 => false
  | .illegalRes _ _ => false
  | .noCommand _ _ => false
  | .lzFlag _ => false

theorem exec_appends_eq {i : Instr} (h : Instr.appends i = true) (s : State) :
    exec i s = ((sinkAppendAll (encodeBytes i) s).map (afterAppend i)).outcome := by
  cases i with
  | lzLit v => exact exec_lzLit_eq v s
  | lzMatch d l => exact exec_lzMatch_eq d l s
  | rlRun r v => exact exec_rlRun_eq r v s
  | rlLit bs => exact exec_rlLit_eq bs s
  | encodeLzss => exact absurd h (by simp [Instr.appends])
  | encodeRle => exact absurd h (by simp [Instr.appends])
  | reservedOp2 => exact absurd h (by simp [Instr.appends])
  | reservedOp3 => exact absurd h (by simp [Instr.appends])
  | illegalRes _ _ => exact absurd h (by simp [Instr.appends])
  | noCommand _ _ => exact absurd h (by simp [Instr.appends])
  | lzFlag _ => exact absurd h (by simp [Instr.appends])

theorem encodeBytes_ne_nil {i : Instr} (h : Instr.appends i = true) : encodeBytes i ≠ [] := by
  cases i <;> simp_all [Instr.appends, encodeBytes, encode]

/-- Everything a row that appends can do: it goes through, inside `OUT`, or it fails at one of its bytes. -/
theorem exec_appends_cases {i : Instr} (h : Instr.appends i = true) {s : State} (ha0 : s.cmd.a0.toNat ≤ s.a.toNat) :
    (exec i s = .next (afterAppend i (s.appendAll (encodeBytes i))) ∧
      s.a.toNat + (encodeBytes i).length ≤ s.plat.sinkCapacity.toNat) ∨
    ∃ t k, k < (encodeBytes i).length ∧ exec i s = .next t ∧ FailedAt s t (s.a + BitVec.ofNat 32 k) ∧
      t.a = s.a + BitVec.ofNat 32 k ∧ (k = 0 ∨ s.a.toNat + k ≤ s.plat.sinkCapacity.toNat) ∧
      (Memory.wf s.mem = true → Memory.wf t.mem = true) := by
  rcases sinkAppendAll_cases (encodeBytes i) s ha0 with ⟨hgo, hfit⟩ | ⟨t, k, hk, hend, hfail, hta, hpos, hwf⟩
  · refine .inl ⟨by rw [exec_appends_eq h, hgo]; rfl, hfit.resolve_left (encodeBytes_ne_nil h)⟩
  · exact .inr ⟨t, k, hk, by rw [exec_appends_eq h, hend]; rfl, hfail, hta, hpos, hwf⟩

/-! ### The commit -/

theorem SameCommand.closeGroup (s : State) : SameCommand s (closeGroup s) := by
  constructor <;> simp

/-- Everything the commit can do (41_lzss.md R182). -/
theorem exec_lzFlag_cases (f : Byte) (s : State) :
    (exec (.lzFlag f) s = .fault .patchNotBelowEnd ∧ s.a.toNat ≤ s.lz.p.toNat) ∨
    (exec (.lzFlag f) s = .next (closeGroup (s.patchOne s.lz.p f)) ∧ s.lz.p.toNat < s.a.toNat) ∨
    ∃ t, exec (.lzFlag f) s = .next t ∧ s.lz.p.toNat < s.a.toNat ∧ FailedAt s t s.lz.p ∧ t.a = s.a ∧
      (Memory.wf s.mem = true → Memory.wf t.mem = true) := by
  have heq : exec (.lzFlag f) s = ((sinkPatch s.lz.p f s).map closeGroup).outcome := rfl
  rcases sinkPatch_cases s.lz.p f s with ⟨h, hp⟩ | ⟨h, hp⟩ | ⟨t, h, hp, hfail, hta, hwf⟩
  · exact .inl ⟨by rw [heq, h]; rfl, hp⟩
  · exact .inr (.inl ⟨by rw [heq, h]; rfl, hp⟩)
  · exact .inr (.inr ⟨t, by rw [heq, h]; rfl, hp, hfail, hta, hwf⟩)

/-! ### The opening of a group -/

/-- The state with a group open: as it is, or with a new placeholder appended (41_lzss.md R172). -/
def lzOpened (s : State) : State :=
  if s.lz.tok = 0 then clearFlags (((cachePosition s).appendOne 0).countBytes 1) else s

theorem SameCommand.lzOpened (s : State) : SameCommand s (lzOpened s) := by
  unfold Machine.lzOpened
  split
  · constructor <;> simp [State.appendOne]
  · exact SameCommand.refl s

/-- Everything the opening of a group can do. -/
theorem lzOpenIfNeeded_cases (s : State) :
    (lzOpenIfNeeded s = .next (lzOpened s) ∧
      (s.lz.tok = 0 → s.a.toNat < s.plat.sinkCapacity.toNat)) ∨
    ∃ t, s.lz.tok = 0 ∧ lzOpenIfNeeded s = .next t ∧ FailedAt s t s.a ∧ t.a = s.a ∧
      (Memory.wf s.mem = true → Memory.wf t.mem = true) := by
  unfold lzOpenIfNeeded lzOpened lzOpenGroup
  split
  · rename_i htok
    rcases sinkAppend_cases 0 (cachePosition s) with ⟨h, hcap⟩ | ⟨t, h, hfail, hta, hwf⟩
    · exact .inl ⟨by rw [show (0x00 : Byte) = 0 from rfl, h]; rfl, fun _ => by simpa using hcap⟩
    · refine .inr ⟨t, htok, by rw [show (0x00 : Byte) = 0 from rfl, h]; rfl, ?_, by simpa using hta,
        fun hm => hwf (by simpa using hm)⟩
      exact FailedAt.from_earlier (t := cachePosition s) (by constructor <;> simp)
        (fun addr _ => State.byteAt_congr (by simp) (by simp) addr) (by simpa using hfail)
  · exact .inl ⟨rfl, fun h => absurd h (by assumption)⟩

/-! ### While the command runs -/

theorem whileBusy_next_busy {t : State} {f : State → Host.Outcome State Fault Refusal} (h : t.status.busy = true) :
    whileBusy (.next t) f = f t := by simp [whileBusy, h]

theorem whileBusy_next_idle {t : State} {f : State → Host.Outcome State Fault Refusal} (h : t.status.busy = false) :
    whileBusy (.next t) f = .next t := by simp [whileBusy, h]

theorem FailedAt.idle {s t : State} {p : Word} (h : FailedAt s t p) : t.status.busy = false := by
  rw [h.status]; rfl

/-! ### The search -/

/-- A candidate changes only the search's own registers. -/
theorem LzRegs.tryCandidate_eq (inp : Nat → Byte) (lz : LzRegs) (c : Nat) :
    ∃ s j b bs, lz.tryCandidate inp c = { lz with s := s, j := j, bestLen := b, bestStart := bs } := by
  unfold LzRegs.tryCandidate LzRegs.compare
  split
  · split <;> exact ⟨_, _, _, _, rfl⟩
  · exact ⟨_, _, _, _, rfl⟩

theorem LzRegs.foldl_tryCandidate_eq (inp : Nat → Byte) (cs : List Nat) (lz : LzRegs) :
    ∃ s j b bs, cs.foldl (LzRegs.tryCandidate inp) lz =
      { lz with s := s, j := j, bestLen := b, bestStart := bs } := by
  induction cs generalizing lz with
  | nil => exact ⟨_, _, _, _, rfl⟩
  | cons c cs ih =>
    obtain ⟨_, _, _, _, h⟩ := LzRegs.tryCandidate_eq inp lz c
    obtain ⟨s, j, b, bs, h'⟩ := ih (lz.tryCandidate inp c)
    exact ⟨s, j, b, bs, by rw [List.foldl_cons, h', h]⟩

/-- `LZ_FIND` changes only the search's own registers (41_lzss.md R173). -/
theorem LzRegs.find_eq (inp : Nat → Byte) (n : Nat) (lz : LzRegs) :
    ∃ m s j b bs d, lz.find inp n =
      { lz with max := m, s := s, j := j, bestLen := b, bestStart := bs, dist := d } := by
  obtain ⟨s, j, b, bs, h⟩ := LzRegs.foldl_tryCandidate_eq inp (candidates lz.i.toNat) (lz.startSearch n)
  exact ⟨_, s, j, b, bs, _, by rw [LzRegs.find, h]; rfl⟩

@[simp] theorem LzRegs.find_i (inp : Nat → Byte) (n : Nat) (lz : LzRegs) : (lz.find inp n).i = lz.i := by
  obtain ⟨_, _, _, _, _, _, h⟩ := LzRegs.find_eq inp n lz; rw [h]
@[simp] theorem LzRegs.find_stride (inp : Nat → Byte) (n : Nat) (lz : LzRegs) :
    (lz.find inp n).stride = lz.stride := by
  obtain ⟨_, _, _, _, _, _, h⟩ := LzRegs.find_eq inp n lz; rw [h]
@[simp] theorem LzRegs.find_flags (inp : Nat → Byte) (n : Nat) (lz : LzRegs) : (lz.find inp n).flags = lz.flags := by
  obtain ⟨_, _, _, _, _, _, h⟩ := LzRegs.find_eq inp n lz; rw [h]
@[simp] theorem LzRegs.find_tok (inp : Nat → Byte) (n : Nat) (lz : LzRegs) : (lz.find inp n).tok = lz.tok := by
  obtain ⟨_, _, _, _, _, _, h⟩ := LzRegs.find_eq inp n lz; rw [h]
@[simp] theorem LzRegs.find_p (inp : Nat → Byte) (n : Nat) (lz : LzRegs) : (lz.find inp n).p = lz.p := by
  obtain ⟨_, _, _, _, _, _, h⟩ := LzRegs.find_eq inp n lz; rw [h]

/-! ### The token -/

theorem lzToken_appends (s : State) : Instr.appends (lzToken s) = true := by
  unfold lzToken; split <;> rfl

theorem rlPacket_appends (s : State) : Instr.appends (rlPacket s) = true := by
  unfold rlPacket; split <;> rfl

theorem SameCommand.lzFind (s : State) : SameCommand s (lzFind s) := by
  constructor <;> simp

theorem SameCommand.lzAdvance (s : State) : SameCommand s (lzAdvance s) := by
  constructor <;> simp

theorem SameCommand.rlPrepare (s : State) : SameCommand s (rlPrepare s) := by
  constructor <;> simp

/-! ### One LZSS iteration -/

/-- The state after the token of an iteration is appended. -/
def lzEmitted (s : State) : State :=
  afterAppend (lzToken (lzFind s)) ((lzFind s).appendAll (encodeBytes (lzToken (lzFind s))))

/-- The state after an iteration's commit. -/
def lzCommitted (s : State) : State :=
  if lzGroupEnds s then closeGroup (s.patchOne s.lz.p s.lz.flags) else s

theorem SameCommand.lzEmitted (s : State) : SameCommand s (lzEmitted s) :=
  (SameCommand.lzFind s).trans ((SameCommand.appendAll _ _).trans (SameCommand.afterAppend _ _))

theorem SameCommand.lzCommitted (s : State) : SameCommand s (lzCommitted s) := by
  unfold Machine.lzCommitted
  split
  · exact (SameCommand.patchOne s _ _).trans (SameCommand.closeGroup _)
  · exact SameCommand.refl s

/-- The whole iteration, where nothing fails. -/
def lzIterated (s : State) : State := lzCommitted (lzAdvance (lzEmitted (lzOpened s)))

theorem SameCommand.lzIterated (s : State) : SameCommand s (lzIterated s) :=
  (SameCommand.lzOpened s).trans ((SameCommand.lzEmitted _).trans
    ((SameCommand.lzAdvance _).trans (SameCommand.lzCommitted _)))

end Sys2Proof.Machine
end

