-- ==== Sys2Proof/Laws/Search.lean ====
section
/-! SUPPORT. What the match finder computes (41_lzss.md R173 to R176), said once: the common run of two positions, and
the best candidate after any part of the window. -/

namespace Sys2Proof.Machine

open Sys2Proof

/-! ### The common run -/

theorem commonLen_le (inp : Nat → Byte) (c i k : Nat) : commonLen inp c i k ≤ k := by
  induction k generalizing c i with
  | zero => simp [commonLen]
  | succ k ih =>
    rw [commonLen]
    split
    · have := ih (c + 1) (i + 1); omega
    · omega

theorem commonLen_agree (inp : Nat → Byte) (c i k : Nat) : agree inp c i (commonLen inp c i k) := by
  induction k generalizing c i with
  | zero => intro k hk; simp [commonLen] at hk
  | succ k ih =>
    rw [commonLen]
    split
    · intro j hj
      cases j with
      | zero => simpa
      | succ j =>
        have := ih (c + 1) (i + 1) j (by omega)
        rwa [show c + (j + 1) = c + 1 + j by omega, show i + (j + 1) = i + 1 + j by omega]
    · intro j hj; omega

theorem le_commonLen (inp : Nat → Byte) (c i k j : Nat) (hj : j ≤ k) (h : agree inp c i j) :
    j ≤ commonLen inp c i k := by
  induction k generalizing c i j with
  | zero => omega
  | succ k ih =>
    cases j with
    | zero => omega
    | succ j =>
      rw [commonLen, if_pos (by simpa using h 0 (by omega))]
      have := ih (c + 1) (i + 1) j (by omega) fun m hm => by
        have := h (m + 1) (by omega)
        rwa [show c + (m + 1) = c + 1 + m by omega, show i + (m + 1) = i + 1 + m by omega] at this
      omega

/-! ### The best candidate -/

/-- What the search has found after the candidates from `lo` to `hi - 1` (41_lzss.md R174): the longest common run, and
the smallest candidate that has it. -/
structure Best (inp : Nat → Byte) (i m lo hi : Nat) (lz : LzRegs) : Prop where
  i_eq : lz.i.toNat = i
  max_eq : lz.max.toNat = m
  le : lz.bestLen.toNat ≤ m
  top : ∀ c, lo ≤ c → c < hi → commonLen inp c i m ≤ lz.bestLen.toNat
  best : 1 ≤ lz.bestLen.toNat → lo ≤ lz.bestStart.toNat ∧ lz.bestStart.toNat < hi ∧
    commonLen inp lz.bestStart.toNat i m = lz.bestLen.toNat ∧
    ∀ c, lo ≤ c → c < lz.bestStart.toNat → commonLen inp c i m < lz.bestLen.toNat

theorem Best.step {inp : Nat → Byte} {i m lo hi : Nat} {lz : LzRegs} (h : Best inp i m lo hi lz) (hm : m ≤ 15)
    (hlo : lo ≤ hi) (hhi : hi < 2 ^ 32) (hpos : 1 ≤ m) : Best inp i m lo (hi + 1) (lz.tryCandidate inp hi) := by
  obtain ⟨h1, h2, h3, h4, h5⟩ := h
  unfold LzRegs.tryCandidate
  rw [h1, h2]
  have hc : commonLen inp hi i m ≤ m := commonLen_le _ _ _ _
  have hcn : (BitVec.ofNat 4 (commonLen inp hi i m)).toNat = commonLen inp hi i m := by simp; omega
  have hs : (BitVec.ofNat 32 hi).toNat = hi := by simp; omega
  split
  · unfold LzRegs.compare
    simp only [hcn]
    split
    · refine ⟨h1, h2, by simpa [hcn] using hc, ?_, ?_⟩
      · intro c hc1 hc2
        simp only [hcn]
        rcases Nat.lt_succ_iff_lt_or_eq.mp hc2 with h | h
        · have := h4 c hc1 h; omega
        · subst h; omega
      · intro _
        simp only [hcn, hs]
        refine ⟨hlo, by omega, trivial, fun c hc1 hc2 => ?_⟩
        have := h4 c hc1 hc2; omega
    · refine ⟨h1, h2, h3, ?_, ?_⟩
      · intro c hc1 hc2
        rcases Nat.lt_succ_iff_lt_or_eq.mp hc2 with h | h
        · exact h4 c hc1 h
        · subst h; simp; omega
      · intro hb; obtain ⟨a, b, c, d⟩ := h5 hb; exact ⟨a, by simp; omega, c, d⟩
  · rename_i hne
    have hz : commonLen inp hi i m = 0 := by
      cases m with
      | zero => omega
      | succ m => rw [commonLen, if_neg hne]
    refine ⟨h1, h2, h3, ?_, ?_⟩
    · intro c hc1 hc2
      rcases Nat.lt_succ_iff_lt_or_eq.mp hc2 with h | h
      · exact h4 c hc1 h
      · subst h; omega
    · intro hb; obtain ⟨a, b, c, d⟩ := h5 hb; exact ⟨a, by simp; omega, c, d⟩

theorem Best.fold {inp : Nat → Byte} {i m lo : Nat} (k : Nat) {hi : Nat} {lz : LzRegs} (h : Best inp i m lo hi lz)
    (hm : m ≤ 15) (hlo : lo ≤ hi) (hhi : hi + k ≤ 2 ^ 32) (hpos : 1 ≤ m) :
    Best inp i m lo (hi + k) ((List.range' hi k).foldl (LzRegs.tryCandidate inp) lz) := by
  induction k generalizing hi lz with
  | zero => exact h
  | succ k ih =>
    rw [List.range'_succ, List.foldl_cons, show hi + (k + 1) = hi + 1 + k by omega]
    exact ih (h.step hm hlo (by omega) hpos) (by omega) (by omega)

/-- The whole search, before the distance is taken (41_lzss.md R174). -/
theorem LzRegs.search_best (inp : Nat → Byte) (n : Nat) (lz : LzRegs) (h : lz.i.toNat < n) :
    Best inp lz.i.toNat (min 15 (n - lz.i.toNat)) (lz.i.toNat - windowSize lz.i.toNat) lz.i.toNat
      ((candidates lz.i.toNat).foldl (LzRegs.tryCandidate inp) (lz.startSearch n)) := by
  have hle : windowSize lz.i.toNat ≤ lz.i.toNat := Nat.min_le_left _ _
  have hmx : (lz.startSearch n).max.toNat = min 15 (n - lz.i.toNat) := by
    simp [LzRegs.startSearch, Config.lookahead]
  have h0 : Best inp lz.i.toNat (min 15 (n - lz.i.toNat)) (lz.i.toNat - windowSize lz.i.toNat)
      (lz.i.toNat - windowSize lz.i.toNat) (lz.startSearch n) :=
    ⟨rfl, hmx, by simp [LzRegs.startSearch], fun c h1 h2 => by omega, by simp [LzRegs.startSearch]⟩
  have := h0.fold (windowSize lz.i.toNat) (by omega) (Nat.le_refl _) (by have := lz.i.isLt; omega) (by omega)
  rwa [Nat.sub_add_cancel hle] at this

/-- What `LZ_FIND` leaves (41_lzss.md R174, R176): the best of the window, and its distance. -/
theorem LzRegs.find_best (inp : Nat → Byte) (n : Nat) (lz : LzRegs) (h : lz.i.toNat < n) :
    Best inp lz.i.toNat (min 15 (n - lz.i.toNat)) (lz.i.toNat - windowSize lz.i.toNat) lz.i.toNat (lz.find inp n) ∧
    (1 ≤ (lz.find inp n).bestLen.toNat →
      (lz.find inp n).dist.toNat = lz.i.toNat - (lz.find inp n).bestStart.toNat) := by
  have hb := LzRegs.search_best inp n lz h
  refine ⟨⟨hb.i_eq, hb.max_eq, hb.le, hb.top, hb.best⟩, fun h1 => ?_⟩
  have hbest := hb.best h1
  have hi : ((candidates lz.i.toNat).foldl (LzRegs.tryCandidate inp) (lz.startSearch n)).i.toNat = lz.i.toNat :=
    hb.i_eq
  show (LzRegs.takeDistance _).dist.toNat = _ - (LzRegs.takeDistance _).bestStart.toNat
  simp only [LzRegs.takeDistance, BitVec.toNat_ofNat, hi]
  have : windowSize lz.i.toNat ≤ 4095 := Nat.min_le_right _ _
  omega

end Sys2Proof.Machine
end

