-- ==== Sys2Proof/Laws/LzIteration.lean ====
section
/-! SUPPORT. Everything one LZSS engine step can do (41_lzss.md R170), said once: `lzIteration_cases`. It goes through,
with the facts of `LzFacts`, or a sink write fails at a position of the command's own output. -/

namespace Sys2Proof.Machine

open Sys2Proof

/-! ### Staying within a command -/

/-- The command's frame and every byte outside its output range are kept, and so is the memory's form. -/
structure Within (s t : State) : Prop where
  same : SameCommand s t
  bytes : bytesKeptBut s t s.heldOutput
  wf : Memory.wf s.mem = true → Memory.wf t.mem = true

theorem Within.trans {s t u : State} (h : Within s t) (k : Within t u) : Within s u :=
  ⟨h.same.trans k.same, fun x hx => by rw [k.bytes x (by rw [h.same.heldOutput]; exact hx), h.bytes x hx],
    fun w => k.wf (h.wf w)⟩

theorem Within.of_mem {s t : State} (h : SameCommand s t) (hm : t.mem = s.mem) : Within s t :=
  ⟨h, fun x _ => State.byteAt_congr hm h.lost x, fun w => by rw [hm]; exact w⟩

theorem Within.failed {s t u : State} {p : Word} (h : Within s t) (f : FailedAt t u p) : FailedAt s u p :=
  f.from_earlier h.same h.bytes

theorem heldOutput_outside {s : State} {x : Nat} (h : s.heldOutput.holds x = false) :
    x < s.plat.outBase + s.cmd.a0.toNat ∨ s.plat.outBase + s.plat.sinkCapacity.toNat ≤ x := by
  simpa using Span.holds_false_iff.mp h

theorem Within.appendAll {s : State} (vs : List Byte) (ha0 : s.cmd.a0.toNat ≤ s.a.toNat)
    (hfit : s.a.toNat + vs.length ≤ s.plat.sinkCapacity.toNat) : Within s (s.appendAll vs) := by
  have hlt := s.plat.sinkCapacity.isLt
  obtain ⟨_, h2, _, h4⟩ := State.appendAll_facts (s := s) vs (by omega)
  refine ⟨SameCommand.appendAll s vs, fun x hx => h2 x ?_, h4⟩
  have := heldOutput_outside hx
  omega

/-- A command's input bytes are kept by what stays within it, its spaces being apart (70_reset_and_hazards.md R319). -/
theorem CommandInv.inByte_kept {s t : State} (hc : CommandInv s) (h : bytesKeptBut s t s.heldOutput)
    (hp : t.plat = s.plat) {k : Nat} (hk : k < s.cmd.n.toNat) : t.inByte k = s.inByte k := by
  unfold State.inByte
  rw [hp]
  refine h _ ?_
  by_contra hne
  have h1 := Span.holds_iff.mp (by simpa using hne : s.heldOutput.holds (s.plat.inBase + k) = true)
  have : s.heldInput.overlaps s.heldOutput = true :=
    Span.overlaps_iff.mpr ⟨s.plat.inBase + k, Span.holds_iff.mpr (by simp; omega), Span.holds_iff.mpr h1⟩
  rw [hc.apart] at this
  exact absurd this (by decide)

/-! ### The opening of a group -/

theorem lzOpened_facts {s : State} (ha0 : s.cmd.a0.toNat ≤ s.a.toNat)
    (hc : s.lz.tok = 0 → s.a.toNat < s.plat.sinkCapacity.toNat) :
    Within s (lzOpened s) ∧ (lzOpened s).a.toNat = s.a.toNat + (if s.lz.tok = 0 then 1 else 0) ∧
    (lzOpened s).cmd = { s.cmd with cnt := s.cmd.cnt + (if s.lz.tok = 0 then 1 else 0) } ∧
    (lzOpened s).lz = (if s.lz.tok = 0 then { s.lz with p := s.a, flags := 0 } else s.lz) ∧
    (lzOpened s).rl = s.rl ∧
    ∀ x, x ≠ s.plat.outBase + s.a.toNat → (lzOpened s).byteAt x = s.byteAt x := by
  unfold lzOpened
  split
  · rename_i h
    have hlt := s.plat.sinkCapacity.isLt
    have hcap := hc h
    refine ⟨?_, ?_, by simp, by simp, by simp, fun x hx => ?_⟩
    · have h1 : Within s (cachePosition s) := Within.of_mem (by constructor <;> simp) rfl
      have h2 : Within (cachePosition s) ((cachePosition s).appendOne 0) := Within.appendAll [0] ha0 hcap
      exact h1.trans (h2.trans (Within.of_mem (by constructor <;> simp) rfl))
    · show (s.a + 1).toNat = _
      rw [BitVec.toNat_add]; simp; omega
    · rw [show (clearFlags (((cachePosition s).appendOne 0).countBytes 1)).byteAt x =
        ((cachePosition s).appendOne 0).byteAt x from State.byteAt_congr rfl rfl x, State.byteAt_appendOne,
        if_neg (by simpa using hx)]
      exact State.byteAt_congr rfl rfl x
  · exact ⟨Within.of_mem (SameCommand.refl s) rfl, rfl, by simp, rfl, rfl, fun _ _ => rfl⟩

/-! ### The token -/

/-- `bs` is the match token of a copy: `st` bytes, from `dist` bytes back (41_lzss.md R176, R179). -/
def Copies (s : State) (st : BitVec 4) (bs : List Byte) : Prop :=
  ∃ dist : BitVec 12, bs = [matchByte0 dist st, matchByte1 dist] ∧ 1 ≤ dist.toNat ∧ dist.toNat ≤ s.lz.i.toNat ∧
    ∀ k, k < st.toNat → s.inByte (s.lz.i.toNat - dist.toNat + k) = s.inByte (s.lz.i.toNat + k)

/-- The token's bytes and its stride (41_lzss.md R177 to R179): a literal of the scan position, stride 1, or a copy of
at least three bytes. -/
structure TokenOf (s : State) (literal : Bool) (st : BitVec 4) (bs : List Byte) : Prop where
  stride : 1 ≤ st.toNat
  inside : s.lz.i.toNat + st.toNat ≤ s.cmd.n.toNat
  ofLiteral : literal = true → st = 1 ∧ bs = [s.inByte s.lz.i.toNat]
  ofMatch : literal = false → 3 ≤ st.toNat ∧ Copies s st bs

theorem TokenOf.length {s : State} {literal : Bool} {st : BitVec 4} {bs : List Byte} (h : TokenOf s literal st bs) :
    bs.length = if literal then 1 else 2 := by
  cases literal with
  | true => rw [(h.ofLiteral rfl).2]; rfl
  | false => obtain ⟨_, hd, _⟩ := (h.ofMatch rfl).2; rw [hd]; rfl

/-- A token is one of the scan position, the length and the input bytes alone. -/
theorem TokenOf.congr {s t : State} {literal : Bool} {st : BitVec 4} {bs : List Byte} (h : TokenOf t literal st bs)
    (hi : t.lz.i = s.lz.i) (hn : t.cmd.n = s.cmd.n) (hsc : s.lz.i.toNat < s.cmd.n.toNat)
    (hin : ∀ k, k < s.cmd.n.toNat → t.inByte k = s.inByte k) : TokenOf s literal st bs := by
  obtain ⟨h1, h2, h3, h4⟩ := h
  rw [hi, hn] at h2
  refine ⟨h1, h2, fun hl => ?_, fun hl => ?_⟩
  · rw [← hin _ hsc, ← hi]; exact h3 hl
  · obtain ⟨q, d, hd1, hd2, hd3, hd4⟩ := h4 hl
    rw [hi] at hd3 hd4
    refine ⟨q, d, hd1, hd2, hd3, fun k hk => ?_⟩
    rw [← hin _ (by omega), ← hin _ (by omega)]
    exact hd4 k hk

theorem lzToken_cases {s : State} (h : s.lz.i.toNat < s.cmd.n.toNat) :
    ∃ literal st, TokenOf s literal st (encodeBytes (lzToken (lzFind s))) ∧
      ∀ t : State, afterAppend (lzToken (lzFind s)) t =
        endToken literal st (t.countBytes (encodeBytes (lzToken (lzFind s))).length) := by
  obtain ⟨hb, hd⟩ := LzRegs.find_best s.inByte s.cmd.n.toNat s.lz h
  have hmin : Config.minMatch = 3 := rfl
  have hlen : (lzFind s).lz.bestLen = (s.lz.find s.inByte s.cmd.n.toNat).bestLen := rfl
  have hdist : (lzFind s).lz.dist = (s.lz.find s.inByte s.cmd.n.toNat).dist := rfl
  by_cases hl : (lzFind s).lz.bestLen.toNat < Config.minMatch
  · refine ⟨true, 1, ⟨by decide, by simp; omega, fun _ => ⟨rfl, ?_⟩, by simp⟩, fun t => ?_⟩
    · unfold lzToken
      rw [if_pos hl]
      show [(lzFind s).inByte (lzFind s).lz.i.toNat] = _
      rw [show (lzFind s).lz.i = s.lz.i by simp, show (lzFind s).inByte s.lz.i.toNat = s.inByte s.lz.i.toNat from
        State.byteAt_congr rfl rfl _]
    · unfold lzToken; rw [if_pos hl]; rfl
  · have hl' := hl
    rw [hlen] at hl'
    obtain ⟨b1, b2, b3, _⟩ := hb.best (by omega)
    have hd' := hd (by omega)
    have hle := hb.le
    refine ⟨false, (lzFind s).lz.bestLen, ⟨by rw [hlen]; omega, by rw [hlen]; omega, by simp, fun _ =>
      ⟨by rw [hlen]; omega, (lzFind s).lz.dist, ?_, by rw [hdist]; omega, by rw [hdist]; omega, fun k hk => ?_⟩⟩,
      fun t => ?_⟩
    · unfold lzToken; rw [if_neg hl]; rfl
    · have := commonLen_agree s.inByte (s.lz.find s.inByte s.cmd.n.toNat).bestStart.toNat s.lz.i.toNat
        (min 15 (s.cmd.n.toNat - s.lz.i.toNat)) k (by rw [b3]; rw [hlen] at hk; exact hk)
      rw [← this, hdist, hd']; congr 1; omega
    · unfold lzToken; rw [if_neg hl]; rfl

/-- What a token that goes through leaves. -/
structure EmitFacts (s t : State) (literal : Bool) (st : BitVec 4) (bs : List Byte) : Prop where
  within : Within s t
  token : TokenOf s literal st bs
  fits : s.a.toNat + bs.length ≤ s.plat.sinkCapacity.toNat
  a : t.a.toNat = s.a.toNat + bs.length
  cnt : t.cmd.cnt = s.cmd.cnt + BitVec.ofNat 32 bs.length
  i : t.lz.i = s.lz.i
  tok : t.lz.tok = s.lz.tok + 1
  flags : t.lz.flags = setFlagBit s.lz.flags s.lz.tok.toNat literal
  p : t.lz.p = s.lz.p
  stride : t.lz.stride = st
  rl : t.rl = s.rl
  bytes : ∀ j (hj : j < bs.length), t.byteAt (s.plat.outBase + s.a.toNat + j) = bs[j]
  kept : bytesKeptOutside s t s.a.toNat bs.length

/-- Everything the search and its token can do (41_lzss.md R173, R177 to R179). -/
theorem lzEmit_cases {s : State} (h : s.lz.i.toNat < s.cmd.n.toNat) (ha0 : s.cmd.a0.toNat ≤ s.a.toNat) :
    (∃ t literal st bs, lzEmit s = .next t ∧ EmitFacts s t literal st bs) ∨
    ∃ t k, lzEmit s = .next t ∧ FailedAt s t (s.a + BitVec.ofNat 32 k) ∧ t.a = s.a + BitVec.ofNat 32 k ∧
      (s.a + BitVec.ofNat 32 k).toNat = s.a.toNat + k ∧ (Memory.wf s.mem = true → Memory.wf t.mem = true) := by
  have hlt := s.plat.sinkCapacity.isLt
  have wf0 : Within s (lzFind s) := Within.of_mem (SameCommand.lzFind s) rfl
  rcases exec_appends_cases (lzToken_appends (lzFind s)) (s := lzFind s) (by simpa using ha0) with
    ⟨he, hfit⟩ | ⟨t, k, hk, he, hf, hta, hpos, hwf⟩
  · left
    obtain ⟨literal, st, htok, hafter⟩ := lzToken_cases h
    have ha : (lzFind s).a = s.a := rfl
    have hp : (lzFind s).plat = s.plat := rfl
    have wa : Within (lzFind s) ((lzFind s).appendAll (encodeBytes (lzToken (lzFind s)))) :=
      Within.appendAll _ (by simpa using ha0) hfit
    obtain ⟨f1, f2, f3, _⟩ := State.appendAll_facts (s := lzFind s) (encodeBytes (lzToken (lzFind s)))
      (by rw [hp] at hfit; omega)
    refine ⟨_, literal, st, encodeBytes (lzToken (lzFind s)), he, ?_⟩
    rw [hafter]
    generalize encodeBytes (lzToken (lzFind s)) = bs at *
    have hby : ∀ x, (endToken literal st (((lzFind s).appendAll bs).countBytes bs.length)).byteAt x =
        ((lzFind s).appendAll bs).byteAt x := fun x => State.byteAt_congr rfl rfl x
    refine ⟨(wf0.trans wa).trans (Within.of_mem ((SameCommand.countBytes _ _).trans (SameCommand.endToken _ _ _)) rfl),
      htok, hfit, f1, ?_, ?_, ?_, ?_, ?_, ?_, ?_, fun j hj => ?_, fun x hx => ?_⟩
    · simp
    · simp [LzRegs.flagAcc]
    · simp [LzRegs.flagAcc]
    · simp [LzRegs.flagAcc]
    · simp [LzRegs.flagAcc]
    · simp [LzRegs.flagAcc]
    · simp
    · rw [hby]; exact f3 j hj
    · rw [hby, f2 x hx]; exact State.byteAt_congr rfl rfl x
  · right
    have hp : (s.a + BitVec.ofNat 32 k).toNat = s.a.toNat + k := by
      have := s.a.isLt
      simp only [lzFind_a, lzFind_plat] at hpos
      rw [BitVec.toNat_add, BitVec.toNat_ofNat]
      rcases hpos with rfl | hpos
      · simpa using this
      · rw [Nat.mod_eq_of_lt (by omega : k < 2 ^ 32)]; omega
    exact ⟨t, k, he, wf0.failed hf, hta, hp, hwf⟩

/-! ### The commit -/

/-- Everything the commit can do (41_lzss.md R182). -/
theorem lzCommitIfDue_cases (t : State) :
    (lzCommitIfDue t = .fault .patchNotBelowEnd ∧ t.a.toNat ≤ t.lz.p.toNat) ∨
    (lzCommitIfDue t = .next (lzCommitted t)) ∨
    ∃ u, lzCommitIfDue t = .next u ∧ t.lz.p.toNat < t.a.toNat ∧ FailedAt t u t.lz.p ∧ u.a = t.a ∧
      (Memory.wf t.mem = true → Memory.wf u.mem = true) := by
  unfold lzCommitIfDue lzCommitted
  split
  · rcases exec_lzFlag_cases t.lz.flags t with h | ⟨h, _⟩ | h
    · exact .inl h
    · exact .inr (.inl h)
    · exact .inr (.inr h)
  · exact .inr (.inl rfl)

theorem lzCommitted_facts {t : State} (h0 : t.cmd.a0.toNat ≤ t.lz.p.toNat) (h1 : t.lz.p.toNat < t.a.toNat)
    (h2 : t.a.toNat ≤ t.plat.sinkCapacity.toNat) :
    Within t (lzCommitted t) ∧ (lzCommitted t).a = t.a ∧ (lzCommitted t).cmd = t.cmd ∧ (lzCommitted t).rl = t.rl ∧
    (lzCommitted t).lz = (if lzGroupEnds t then { t.lz with tok := 0 } else t.lz) ∧
    ∀ x, (lzCommitted t).byteAt x =
      if lzGroupEnds t = true ∧ x = t.plat.outBase + t.lz.p.toNat then t.lz.flags else t.byteAt x := by
  unfold lzCommitted
  split
  · rename_i he
    have hb : ∀ x, (closeGroup (t.patchOne t.lz.p t.lz.flags)).byteAt x =
        if lzGroupEnds t = true ∧ x = t.plat.outBase + t.lz.p.toNat then t.lz.flags else t.byteAt x := fun x => by
      rw [show (closeGroup (t.patchOne t.lz.p t.lz.flags)).byteAt x = (t.patchOne t.lz.p t.lz.flags).byteAt x from
        State.byteAt_congr rfl rfl x, State.byteAt_patchOne]
      simp [he]
    refine ⟨⟨(SameCommand.patchOne _ _ _).trans (SameCommand.closeGroup _), fun x hx => ?_,
      fun w => State.patchOne_mem_wf _ _ w⟩, by simp, by simp, by simp, by simp, hb⟩
    rw [hb, if_neg]
    have := heldOutput_outside hx
    omega
  · rename_i he
    exact ⟨Within.of_mem (SameCommand.refl t) rfl, rfl, rfl, rfl, rfl, fun x => by rw [if_neg fun h => he h.1]⟩

/-! ### The whole iteration -/

/-- The token at hand closes its group (41_lzss.md R182): it is the eighth, or it ends the input. -/
def closesGroup (s : State) (st : BitVec 4) : Prop :=
  s.lz.tok.toNat = 7 ∨ s.cmd.n.toNat ≤ s.lz.i.toNat + st.toNat

/-- What an iteration that goes through leaves, before the loop's condition is tested. -/
structure LzFacts (s u : State) (literal : Bool) (st : BitVec 4) (bs : List Byte) : Prop where
  within : Within s u
  token : TokenOf s literal st bs
  a : u.a.toNat = s.a.toNat + (if s.lz.tok = 0 then 1 else 0) + bs.length
  fits : u.a.toNat ≤ s.plat.sinkCapacity.toNat
  cnt : u.cmd.cnt = s.cmd.cnt + (if s.lz.tok = 0 then 1 else 0) + BitVec.ofNat 32 bs.length
  i : u.lz.i.toNat = s.lz.i.toNat + st.toNat
  closed : closesGroup s st → u.lz.tok = 0
  leftOpen : ¬closesGroup s st → u.lz.tok.toNat = s.lz.tok.toNat + 1
  flags : u.lz.flags = setFlagBit (if s.lz.tok = 0 then 0 else s.lz.flags) s.lz.tok.toNat literal
  p : u.lz.p = if s.lz.tok = 0 then s.a else s.lz.p
  rl : u.rl = s.rl
  bytes : ∀ j (hj : j < bs.length),
    u.byteAt (s.plat.outBase + s.a.toNat + (if s.lz.tok = 0 then 1 else 0) + j) = bs[j]
  patched : closesGroup s st → u.byteAt (s.plat.outBase + u.lz.p.toNat) = u.lz.flags
  kept : ∀ q, q < s.a.toNat → (s.lz.tok ≠ 0 → q ≠ s.lz.p.toNat) →
    u.byteAt (s.plat.outBase + q) = s.byteAt (s.plat.outBase + q)

/-- Everything one LZSS iteration can do (41_lzss.md R170, 60_exceptions.md R288). -/
theorem lzIteration_cases {s : State} (hc : CommandInv s) (hz : LzInv s) (hb : s.status.busy = true) :
    (∃ u literal st bs, lzIteration s = .next (lzLoopControl u) ∧ LzFacts s u literal st bs) ∨
    ∃ t p, lzIteration s = .next t ∧ FailedAt s t p ∧ s.cmd.a0.toNat ≤ p.toNat ∧ p.toNat ≤ t.a.toNat ∧
      (Memory.wf s.mem = true → Memory.wf t.mem = true) := by
  have ha0 : s.cmd.a0.toNat ≤ s.a.toNat := by have := hc.position; omega
  have hlt := s.plat.sinkCapacity.isLt
  unfold lzIteration
  rcases lzOpenIfNeeded_cases s with ⟨ho, hcap⟩ | ⟨t, _, ho, hf, hta, hwf⟩
  rotate_left
  · refine .inr ⟨t, s.a, ?_, hf, ha0, by rw [hta], hwf⟩
    rw [ho, whileBusy_next_idle hf.idle, whileBusy_next_idle hf.idle, whileBusy_next_idle hf.idle]
  obtain ⟨w1, a1, c1, l1, r1, kept1⟩ := lzOpened_facts ha0 hcap
  rw [ho]
  generalize lzOpened s = o at *
  have b1 : o.status.busy = true := by rw [w1.same.status]; exact hb
  have hi1 : o.lz.i = s.lz.i := by rw [l1]; split <;> rfl
  have ht1 : o.lz.tok = s.lz.tok := by rw [l1]; split <;> rfl
  have ha01 : o.cmd.a0.toNat ≤ o.a.toNat := by rw [w1.same.a0, a1]; omega
  have hsc1 : o.lz.i.toNat < o.cmd.n.toNat := by rw [w1.same.n, hi1]; exact hz.scanning
  rw [whileBusy_next_busy b1]
  rcases lzEmit_cases hsc1 ha01 with ⟨e, literal, st, bs, he, f⟩ | ⟨t, k, he, hf, hta, hpos, hwf⟩
  rotate_left
  · refine .inr ⟨t, _, by rw [he, whileBusy_next_idle hf.idle, whileBusy_next_idle hf.idle], w1.failed hf, ?_,
      by rw [hta], fun w => hwf (w1.wf w)⟩
    rw [hpos]; rw [w1.same.a0] at ha01; omega
  rw [he]
  have b3 : e.status.busy = true := by rw [f.within.same.status]; exact b1
  rw [whileBusy_next_busy b3, lzAdvanceAndCommit]
  have w4 : Within s (lzAdvance e) := (w1.trans f.within).trans (Within.of_mem (SameCommand.lzAdvance _) rfl)
  have htoken : TokenOf s literal st bs := f.token.congr hi1 w1.same.n hz.scanning fun k hk =>
    hc.inByte_kept w1.bytes w1.same.plat hk
  have hi4 : (lzAdvance e).lz.i.toNat = s.lz.i.toNat + st.toNat := by
    show (e.lz.i + e.lz.stride.setWidth 32).toNat = _
    rw [f.stride, f.i, hi1, BitVec.toNat_add, BitVec.toNat_setWidth]
    have := s.cmd.n.isLt
    have := htoken.inside
    omega
  have htok4 : (lzAdvance e).lz.tok.toNat = s.lz.tok.toNat + 1 := by
    show e.lz.tok.toNat = _
    rw [f.tok, ht1, BitVec.toNat_add]
    have := hz.tokSmall
    simp; omega
  have hends : lzGroupEnds (lzAdvance e) = true ↔ closesGroup s st := by
    unfold lzGroupEnds closesGroup
    rw [Bool.or_eq_true, decide_eq_true_eq, decide_eq_true_eq, hi4, w4.same.n]
    refine or_congr ?_ Iff.rfl
    rw [← BitVec.toNat_inj, htok4]; simp
  have hA : (lzAdvance e).a.toNat = s.a.toNat + (if s.lz.tok = 0 then 1 else 0) + bs.length := by
    show e.a.toNat = _
    rw [f.a, a1]
  have hP : (lzAdvance e).lz.p = if s.lz.tok = 0 then s.a else s.lz.p := by
    show e.lz.p = _
    rw [f.p, l1]; split <;> rfl
  have hFl : (lzAdvance e).lz.flags = setFlagBit (if s.lz.tok = 0 then 0 else s.lz.flags) s.lz.tok.toNat literal := by
    show e.lz.flags = _
    rw [f.flags, ht1, l1]; split <;> rfl
  have hC : (lzAdvance e).cmd.cnt = s.cmd.cnt + (if s.lz.tok = 0 then 1 else 0) + BitVec.ofNat 32 bs.length := by
    show e.cmd.cnt = _
    rw [f.cnt, c1]
  have hR : (lzAdvance e).rl = s.rl := by
    show e.rl = _
    rw [f.rl, r1]
  have hcap4 : (lzAdvance e).a.toNat ≤ s.plat.sinkCapacity.toNat := by
    have := f.fits; rw [w1.same.plat, a1] at this; rw [hA]; exact this
  have hbl : 1 ≤ bs.length := by rw [htoken.length]; split <;> omega
  have hPlt : (lzAdvance e).lz.p.toNat < s.a.toNat + (if s.lz.tok = 0 then 1 else 0) := by
    rw [hP]
    split
    · omega
    · rename_i h; have := (hz.placeholder h).2; omega
  have hPge : s.cmd.a0.toNat ≤ (lzAdvance e).lz.p.toNat := by
    rw [hP]
    split
    · omega
    · rename_i h; exact (hz.placeholder h).1
  have hbytes : ∀ x, (lzAdvance e).byteAt x = e.byteAt x := fun x => State.byteAt_congr rfl rfl x
  have fb := f.bytes
  have fk := f.kept
  rw [w1.same.plat, a1] at fb
  unfold bytesKeptOutside at fk
  rw [w1.same.plat, a1] at fk
  simp only [← hbytes] at fb fk
  clear hbytes f he b3
  generalize lzAdvance e = v at *
  have b4 : v.status.busy = true := by rw [w4.same.status]; exact hb
  rcases lzCommitIfDue_cases v with ⟨_, hbad⟩ | h | ⟨t, h, hp, hf, hta, hwf⟩
  · omega
  · left
    obtain ⟨k1, k2, k3, k4, k5, k6⟩ := lzCommitted_facts (t := v) (by rw [w4.same.a0]; exact hPge) (by omega)
      (by rw [w4.same.plat]; exact hcap4)
    refine ⟨lzCommitted v, literal, st, bs, ?_, ?_⟩
    · rw [h, whileBusy_next_busy (by rw [k1.same.status]; exact b4)]
    generalize lzCommitted v = u at *
    refine ⟨w4.trans k1, htoken, by rw [k2]; exact hA, by rw [k2]; exact hcap4, by rw [k3]; exact hC, ?_, ?_, ?_, ?_, ?_,
      by rw [k4]; exact hR, ?_, ?_, ?_⟩
    · rw [k5]; split <;> exact hi4
    · intro hh; rw [k5, if_pos (hends.mpr hh)]
    · intro hh; rw [k5, if_neg fun h => hh (hends.mp h)]; exact htok4
    · rw [k5]; split <;> exact hFl
    · rw [k5]; split <;> exact hP
    · intro j hj
      rw [k6, if_neg]
      · have := fb j hj
        rw [← this]; congr 1; omega
      · rw [w4.same.plat]; intro hh; omega
    · intro hh
      have e1 : u.lz.p = v.lz.p := by rw [k5]; split <;> rfl
      have e2 : u.lz.flags = v.lz.flags := by rw [k5]; split <;> rfl
      rw [e1, e2, k6, if_pos ⟨hends.mpr hh, by rw [w4.same.plat]⟩]
    · intro q hq hne
      have hqp : q ≠ v.lz.p.toNat := by
        rw [hP]; split
        · omega
        · rename_i h; exact hne h
      rw [k6, if_neg (by rw [w4.same.plat]; intro hh; omega), fk _ (by omega), kept1 _ (by omega)]
  · refine .inr ⟨t, _, by rw [h, whileBusy_next_idle hf.idle], w4.failed hf, hPge, ?_, fun w => hwf (w4.wf w)⟩
    rw [hta]; omega

end Sys2Proof.Machine
end

