-- ==== Sys2Proof/Laws/Others.lean ====
section
/-! SUPPORT. What an event of another instance can do, said once (20_memory.md R87, 70_reset_and_hazards.md R318). -/

namespace Sys2Proof.Machine

open Sys2Proof

/-- A turn of another instance leaves every byte outside the ranges that it holds (log 17). -/
theorem turnOther_bytes (n : Nat) (s : State) (addr : Nat)
    (h : ∀ o ∈ s.others, o.number = n → (s.rangeSpan o.range).holds addr = false) :
    (turnOther n s).byteAt addr = s.byteAt addr := by
  unfold turnOther
  split
  · next o ho =>
    exact State.byteAt_loseSpan_outside s (h o (List.mem_of_find?_eq_some ho) (by simpa using List.find?_some ho))
  · rfl

/-- A range of `OUT` positions covers an input byte exactly where they share an address (log 26). -/
theorem rangeMeetsInput_iff {s : State} {p : Config.Span} {n : Nat} :
    s.rangeMeetsInput p n = true ↔
      ∃ x, s.plat.inBase ≤ x ∧ x < s.plat.inBase + n ∧ s.plat.outBase + p.lo ≤ x ∧ x < s.plat.outBase + p.hi ∧
        x < s.plat.outBase + s.plat.sinkCapacity.toNat := by
  unfold State.rangeMeetsInput State.rangeSpan State.inputSpan
  rw [Span.overlaps_iff]
  simp only [Span.holds_iff]
  exact ⟨fun ⟨x, h1, h2⟩ => ⟨x, by omega, by omega, by omega, by omega, by omega⟩,
    fun ⟨x, h1, h2, h3, h4, h5⟩ => ⟨x, by omega, by omega⟩⟩

/-- Where no instance's range covers an input byte, a turn leaves the input (20_memory.md R71; log 26). -/
theorem turnOther_inByte {s : State} {n k m : Nat} (h : (s.others.any fun o => s.rangeMeetsInput o.range m) = false)
    (hk : k < m) : (turnOther n s).inByte k = s.inByte k := by
  unfold State.inByte
  rw [turnOther_plat]
  refine turnOther_bytes n s _ fun o ho _ => ?_
  have h := List.any_eq_false.mp h o ho
  by_contra hne
  exact h (Span.overlaps_iff.mpr ⟨s.plat.inBase + k, by simpa using hne,
    Span.holds_iff.mpr ⟨Nat.le_add_right _ _, Nat.add_lt_add_left hk _⟩⟩)

theorem turnOther_mem_wf {s : State} (n : Nat) (h : Memory.wf s.mem = true) : Memory.wf (turnOther n s).mem = true := by
  unfold turnOther
  split
  · exact Memory.wf_forget _ h
  · exact h

/-- Everything an event of another instance can do. -/
theorem otherEvent_cases (e : OtherEvent) (s : State) :
    (∃ r, otherEvent e s = .refused r) ∨
    (∃ n p, e = .start n p ∧ 1 ≤ n ∧ n < s.plat.instances ∧ (∀ o ∈ s.others, o.number ≠ n) ∧ s.rangeHeld p = false ∧
      (s.status.busy = true → s.rangeMeetsInput p s.cmd.n.toNat = false) ∧
      otherEvent e s = .next { s with others := { number := n, range := p } :: s.others }) ∨
    (∃ n, e = .turn n ∧ otherEvent e s = .next (turnOther n s)) ∨
    ∃ n, e = .stop n ∧ otherEvent e s = .next (stopOther n s) := by
  cases e with
  | start n p =>
    simp only [otherEvent, startOther]
    split
    · exact .inl ⟨_, rfl⟩
    · split
      · exact .inl ⟨_, rfl⟩
      · split
        · exact .inl ⟨_, rfl⟩
        · split
          · exact .inl ⟨_, rfl⟩
          · rename_i h1 h2 h3 h4
            simp only [Bool.or_eq_true, decide_eq_true_eq, not_or] at h1
            refine .inr (.inl ⟨n, p, rfl, by omega, by omega, fun o ho hn => h2 ?_, by simpa using h3,
              by simpa using h4, rfl⟩)
            exact List.any_eq_true.mpr ⟨o, ho, by simpa using hn⟩
  | turn n => exact .inr (.inr (.inl ⟨n, rfl, rfl⟩))
  | stop n => exact .inr (.inr (.inr ⟨n, rfl, rfl⟩))

end Sys2Proof.Machine
end

