-- ==== Sys2Proof/Laws/PerInstr.lean ====
section
/-! SUPPORT. Per instruction: the format each row is encoded in (30_encoding.md R100). -/

namespace Sys2Proof.Laws.EncodingFormat

open Sys2Proof

/-- What an encoding looks like, by what stands before it (30_encoding.md R101, R105 to R107, R110, R111): a command is
one word, a flag byte or a literal token one byte, a match token two, a packet a control byte whose bit 7 says that one
byte follows, and otherwise 1 to 127. -/
def Shape : Expect → Code → Prop
  | .command, .word _ => True
  | .flagByte, .bytes [_] => True
  | .token true, .bytes [_] => True
  | .token false, .bytes [_, _] => True
  | .packet, .bytes (c :: bs) => 1 ≤ bs.length ∧ bs.length ≤ 127 ∧ (c.getLsbD 7 = true → bs.length = 1)
  | _, _ => False

/-- A well-formed instruction is encoded in its format. -/
def Statement (i : Instr) : Prop := i.wellFormed = true → Shape (expectOf i) (encode i)

theorem encodeLzss : Statement .encodeLzss := fun _ => trivial

theorem encodeRle : Statement .encodeRle := fun _ => trivial

theorem reservedOp2 : Statement .reservedOp2 := fun _ => trivial

theorem reservedOp3 : Statement .reservedOp3 := fun _ => trivial

theorem illegalRes (res : BitVec 29) (op : BitVec 2) : Statement (.illegalRes res op) := fun _ => trivial

theorem noCommand (res : BitVec 29) (op : BitVec 2) : Statement (.noCommand res op) := fun _ => trivial

theorem lzFlag (flags : Byte) : Statement (.lzFlag flags) := fun _ => trivial

theorem lzLit (v : Byte) : Statement (.lzLit v) := fun _ => trivial

theorem lzMatch (dist : BitVec 12) (len : BitVec 4) : Statement (.lzMatch dist len) := fun _ => trivial

theorem rlRun (r : BitVec 7) (v : Byte) : Statement (.rlRun r v) := by
  intro _
  exact ⟨Nat.le_refl 1, by simp, fun _ => rfl⟩

theorem rlLit (bytes : List Byte) : Statement (.rlLit bytes) := by
  intro h
  simp only [Instr.wellFormed, Bool.and_eq_true] at h
  refine ⟨of_decide_eq_true h.1, of_decide_eq_true h.2, fun h7 => ?_⟩
  rw [literalControl, BitVec.getLsbD_append] at h7
  simp at h7

end Sys2Proof.Laws.EncodingFormat
end

