-- ==== Sys2Proof/Laws/RlIteration.lean ====
section
/-! SUPPORT. Everything one RLE engine step can do (42_rle.md R220), said once: the run detector and the literal span in
closed form, and `rlIteration_cases`. -/

namespace Sys2Proof.Machine

open Sys2Proof

/-! ### The run detector -/

theorem runFrom_facts (inp : Nat → Byte) (n i k r : Nat) (h : runOf inp n i r) (hr : 1 ≤ r) :
    r ≤ runFrom inp n i k r ∧ runFrom inp n i k r ≤ r + k ∧ runOf inp n i (runFrom inp n i k r) ∧
    (runFrom inp n i k r < r + k → ¬runOf inp n i (runFrom inp n i k r + 1)) := by
  induction k generalizing r with
  | zero => simp [runFrom, h]
  | succ k ih =>
    rw [runFrom]
    split
    · rename_i hh
      have h' : runOf inp n i (r + 1) := ⟨by omega, fun j hj => by
        rcases Nat.lt_succ_iff_lt_or_eq.mp hj with hj | hj
        · exact h.2 j hj
        · rw [hj]; exact hh.2⟩
      obtain ⟨a, b, c, d⟩ := ih (r + 1) h' (by omega)
      exact ⟨by omega, by omega, c, fun hx => d (by omega)⟩
    · rename_i hh
      exact ⟨by omega, by omega, h, fun _ hx => hh ⟨by have := hx.1; omega, hx.2 r (by omega)⟩⟩

/-- The run detector's closed form (42_rle.md R222). -/
theorem runLength_facts (inp : Nat → Byte) (n i : Nat) (h : i < n) :
    1 ≤ runLength inp n i ∧ runLength inp n i ≤ 127 ∧ runOf inp n i (runLength inp n i) ∧
    (runLength inp n i < 127 → ¬runOf inp n i (runLength inp n i + 1)) := by
  have := runFrom_facts inp n i 126 1 ⟨by omega, fun k hk => by simp [show k = 0 by omega]⟩ (by omega)
  exact ⟨this.1, by have := this.2.1; show runFrom inp n i 126 1 ≤ 127; omega, this.2.2.1, this.2.2.2⟩

theorem runOf.mono {inp : Nat → Byte} {n i a b : Nat} (h : runOf inp n i b) (hab : a ≤ b) : runOf inp n i a :=
  ⟨by have := h.1; omega, fun k hk => h.2 k (by omega)⟩

theorem three_le_runLength (inp : Nat → Byte) (n i : Nat) (h : i < n) : 3 ≤ runLength inp n i ↔ runOf inp n i 3 := by
  obtain ⟨_, _, c, d⟩ := runLength_facts inp n i h
  constructor
  · intro h3; exact c.mono h3
  · intro h3
    by_contra hlt
    exact d (by omega) (h3.mono (by omega))

/-! ### The literal span -/

/-- `TRIPLE(e)` says that a run of three starts at `e` (42_rle.md R225). -/
theorem triple_iff (inp : Nat → Byte) (n e : Nat) : triple inp n e = true ↔ runOf inp n e 3 := by
  unfold triple runOf
  simp only [Bool.and_eq_true, decide_eq_true_eq]
  constructor
  · rintro ⟨⟨h1, h2⟩, h3⟩
    refine ⟨by omega, fun k hk => ?_⟩
    rcases (by omega : k = 0 ∨ k = 1 ∨ k = 2) with rfl | rfl | rfl
    · rfl
    · exact h2.symm
    · rw [h2, h3]
  · rintro ⟨h1, h2⟩
    have a := h2 1 (by omega)
    have b := h2 2 (by omega)
    exact ⟨⟨by omega, a.symm⟩, by rw [a, b]⟩

theorem spanFrom_facts (inp : Nat → Byte) (n k e : Nat) (h : e ≤ n) :
    e ≤ spanFrom inp n k e ∧ spanFrom inp n k e ≤ e + k ∧ spanFrom inp n k e ≤ n ∧
    (∀ x, e ≤ x → x < spanFrom inp n k e → triple inp n x = false) ∧
    (spanFrom inp n k e = e + k ∨ spanFrom inp n k e = n ∨ triple inp n (spanFrom inp n k e) = true) := by
  induction k generalizing e with
  | zero =>
    refine ⟨by simp [spanFrom], by simp [spanFrom], by simpa [spanFrom], fun x h1 h2 => ?_, by simp [spanFrom]⟩
    simp [spanFrom] at h2; omega
  | succ k ih =>
    rw [spanFrom]
    split
    · rename_i hh
      obtain ⟨a, b, c, d, f⟩ := ih (e + 1) (by omega)
      refine ⟨by omega, by omega, c, fun x h1 h2 => ?_, ?_⟩
      · by_cases hx : x = e
        · rw [hx]; exact hh.2
        · exact d x (by omega) h2
      · rcases f with f | f
        · left; omega
        · exact .inr f
    · rename_i hh
      refine ⟨by omega, by omega, h, fun x h1 h2 => by omega, ?_⟩
      by_cases h1 : e < n
      · right; right; simpa using fun h2 => hh ⟨h1, h2⟩
      · right; left; omega

/-- The literal span's closed form (42_rle.md R225). -/
theorem spanEnd_facts (inp : Nat → Byte) (n i : Nat) (h : i < n) :
    i < spanEnd inp n i ∧ spanEnd inp n i ≤ i + 127 ∧ spanEnd inp n i ≤ n ∧
    (∀ x, i < x → x < spanEnd inp n i → triple inp n x = false) ∧
    (spanEnd inp n i = i + 127 ∨ spanEnd inp n i = n ∨ triple inp n (spanEnd inp n i) = true) := by
  obtain ⟨a, b, c, d, f⟩ := spanFrom_facts inp n 126 (i + 1) (by omega)
  rw [show spanEnd inp n i = spanFrom inp n 126 (i + 1) from rfl]
  refine ⟨by omega, by omega, c, fun x h1 h2 => d x (by omega) h2, ?_⟩
  rcases f with f | f
  · left; omega
  · exact .inr f

/-! ### The packet -/

theorem rlMeasure_r (s : State) (h : s.rl.i.toNat < s.cmd.n.toNat) :
    (rlMeasure s).rl.r.toNat = runLength s.inByte s.cmd.n.toNat s.rl.i.toNat := by
  have := (runLength_facts s.inByte _ _ h).2.1
  show (BitVec.ofNat 7 _).toNat = _
  simp; omega

theorem rlScanLit_nat (s : State) (h : s.rl.i.toNat < s.cmd.n.toNat) :
    (rlScanLit s).rl.e.toNat = spanEnd s.inByte s.cmd.n.toNat s.rl.i.toNat ∧
    (rlScanLit s).rl.l.toNat = spanEnd s.inByte s.cmd.n.toNat s.rl.i.toNat - s.rl.i.toNat := by
  obtain ⟨a, b, c, _, _⟩ := spanEnd_facts s.inByte _ _ h
  have := s.cmd.n.isLt
  constructor
  · show (BitVec.ofNat 32 _).toNat = _
    simp; omega
  · show (BitVec.ofNat 7 _).toNat = _
    simp; omega

/-- The packet that stands next (42_rle.md R223). -/
theorem rlPacket_cases (s : State) (h : s.rl.i.toNat < s.cmd.n.toNat) :
    (rlPacket (rlPrepare s) =
        .rlRun (BitVec.ofNat 7 (runLength s.inByte s.cmd.n.toNat s.rl.i.toNat)) (s.inByte s.rl.i.toNat) ∧
      runOf s.inByte s.cmd.n.toNat s.rl.i.toNat 3) ∨
    (rlPacket (rlPrepare s) =
        .rlLit (s.inBytes s.rl.i.toNat (spanEnd s.inByte s.cmd.n.toNat s.rl.i.toNat - s.rl.i.toNat)) ∧
      ¬runOf s.inByte s.cmd.n.toNat s.rl.i.toNat 3) := by
  have e := rlMeasure_r s h
  have hib : (rlMeasure s).inByte = s.inByte := funext fun k => State.byteAt_congr rfl rfl _
  have hmin : Config.runMin = 3 := rfl
  unfold rlPrepare
  by_cases hr : rlIsRun (rlMeasure s) = true
  · have h3 : Config.runMin ≤ (rlMeasure s).rl.r.toNat := of_decide_eq_true hr
    rw [if_pos hr]
    refine .inl ⟨?_, (three_le_runLength _ _ _ h).mp (by omega)⟩
    unfold rlPacket
    rw [if_pos hr]
    show Instr.rlRun _ ((rlMeasure s).inByte _) = _
    rw [hib]; rfl
  · have h3 : ¬Config.runMin ≤ (rlMeasure s).rl.r.toNat := fun hh => hr (decide_eq_true hh)
    rw [if_neg hr]
    refine .inr ⟨?_, fun hh => h3 (by have := (three_le_runLength _ _ _ h).mpr hh; omega)⟩
    unfold rlPacket
    rw [if_neg (show ¬rlIsRun (rlScanLit (rlMeasure s)) = true from hr), (rlScanLit_nat (rlMeasure s) h).2, hib]
    show Instr.rlLit (State.bytesFrom _ _ _) = Instr.rlLit (State.bytesFrom _ _ _)
    congr 1
    exact State.bytesFrom_congr fun x _ _ => State.byteAt_congr rfl rfl x

/-! ### The whole iteration -/

/-- The bytes of the packet that covers `l` input bytes at the scan position (42_rle.md R224, R226), and where a literal
span may end (R225). -/
inductive PacketOf (s : State) (l : Nat) (bs : List Byte) : Prop where
  | run (three : 3 ≤ l) (run : runOf s.inByte s.cmd.n.toNat s.rl.i.toNat l)
    (eq : bs = [runControl (BitVec.ofNat 7 l), s.inByte s.rl.i.toNat])
  | lit (noRun : ¬runOf s.inByte s.cmd.n.toNat s.rl.i.toNat 3)
    (eq : bs = literalControl (BitVec.ofNat 7 l) :: s.inBytes s.rl.i.toNat l)
    (stop : l = 127 ∨ s.rl.i.toNat + l = s.cmd.n.toNat ∨ runOf s.inByte s.cmd.n.toNat (s.rl.i.toNat + l) 3)

/-- What an iteration that goes through leaves, before the loop's condition is tested. -/
structure RlFacts (s u : State) (l : Nat) (bs : List Byte) : Prop where
  within : Within s u
  pos : 1 ≤ l
  cap : l ≤ 127
  inside : s.rl.i.toNat + l ≤ s.cmd.n.toNat
  packet : PacketOf s l bs
  a : u.a.toNat = s.a.toNat + bs.length
  fits : u.a.toNat ≤ s.plat.sinkCapacity.toNat
  cnt : u.cmd.cnt = s.cmd.cnt + BitVec.ofNat 32 bs.length
  i : u.rl.i.toNat = s.rl.i.toNat + l
  lz : u.lz = s.lz
  bytes : ∀ j (hj : j < bs.length), u.byteAt (s.plat.outBase + s.a.toNat + j) = bs[j]
  kept : bytesKeptOutside s u s.a.toNat bs.length

/-- The packet of the scan position, its length in input bytes, and what follows it. -/
theorem rlPacket_facts {s : State} (hsc : s.rl.i.toNat < s.cmd.n.toNat) :
    ∃ l, 1 ≤ l ∧ l ≤ 127 ∧ s.rl.i.toNat + l ≤ s.cmd.n.toNat ∧
      PacketOf s l (encodeBytes (rlPacket (rlPrepare s))) ∧
      ∀ t, afterAppend (rlPacket (rlPrepare s)) t =
        rlAdvance l (t.countBytes (encodeBytes (rlPacket (rlPrepare s))).length) := by
  obtain ⟨a, b, c, _⟩ := runLength_facts s.inByte _ _ hsc
  obtain ⟨g1, g2, g3, _, g5⟩ := spanEnd_facts s.inByte _ _ hsc
  rcases rlPacket_cases s hsc with ⟨e, h3⟩ | ⟨e, h3⟩
  · refine ⟨runLength s.inByte s.cmd.n.toNat s.rl.i.toNat, a, b, c.1,
      .run ((three_le_runLength _ _ _ hsc).mpr h3) c (by rw [e]; rfl), fun t => ?_⟩
    rw [e]
    show rlAdvance (BitVec.ofNat 7 _).toNat _ = _
    rw [BitVec.toNat_ofNat, Nat.mod_eq_of_lt (by omega)]; rfl
  · refine ⟨spanEnd s.inByte s.cmd.n.toNat s.rl.i.toNat - s.rl.i.toNat, by omega, by omega, by omega,
      .lit h3 (by rw [e]; simp [encodeBytes, encode, State.inBytes]) ?_, fun t => ?_⟩
    · rcases g5 with g | g | g
      · left; omega
      · right; left; omega
      · right; right
        rw [show s.rl.i.toNat + (spanEnd s.inByte s.cmd.n.toNat s.rl.i.toNat - s.rl.i.toNat) =
          spanEnd s.inByte s.cmd.n.toNat s.rl.i.toNat by omega]
        exact (triple_iff _ _ _).mp g
    · rw [e]; simp [afterAppend, encodeBytes, encode, State.inBytes, Nat.add_comm]

/-- Everything one RLE iteration can do (42_rle.md R220, 60_exceptions.md R288). -/
theorem rlIteration_cases {s : State} (hb : s.status.busy = true) (hsc : s.rl.i.toNat < s.cmd.n.toNat)
    (ha0 : s.cmd.a0.toNat ≤ s.a.toNat) :
    (∃ u l bs, rlIteration s = .next (rlLoopControl u) ∧ RlFacts s u l bs) ∨
    ∃ t p, rlIteration s = .next t ∧ FailedAt s t p ∧ s.cmd.a0.toNat ≤ p.toNat ∧ p.toNat ≤ t.a.toNat ∧
      (Memory.wf s.mem = true → Memory.wf t.mem = true) := by
  have hlt := s.plat.sinkCapacity.isLt
  have hn := s.cmd.n.isLt
  unfold rlIteration rlEmit
  obtain ⟨l, k1, k2, k3, k4, k5⟩ := rlPacket_facts hsc
  have hap := rlPacket_appends (rlPrepare s)
  have wp : Within s (rlPrepare s) := Within.of_mem (SameCommand.rlPrepare s) (by simp)
  have eqa : (rlPrepare s).a = s.a := by simp
  have eqp : (rlPrepare s).plat = s.plat := by simp
  have eqc : (rlPrepare s).cmd = s.cmd := by simp
  have eqlz : (rlPrepare s).lz = s.lz := by simp
  have eqi : (rlPrepare s).rl.i = s.rl.i := by unfold rlPrepare; split <;> rfl
  have eqb : ∀ x, (rlPrepare s).byteAt x = s.byteAt x := fun x => State.byteAt_congr (by simp) (by simp) x
  generalize rlPrepare s = v at *
  rcases exec_appends_cases hap (s := v) (by rw [eqc, eqa]; exact ha0) with
    ⟨he, hfit⟩ | ⟨t, k, _, he, hf, hta, hpos, hwf⟩
  rotate_left
  · right
    have hp : (v.a + BitVec.ofNat 32 k).toNat = s.a.toNat + k := by
      rw [eqa] at *
      rw [eqp] at hpos
      rw [BitVec.toNat_add, BitVec.toNat_ofNat]
      have := s.a.isLt
      rcases hpos with rfl | hpos
      · simpa using this
      · rw [Nat.mod_eq_of_lt (by omega : k < 2 ^ 32)]; omega
    exact ⟨t, _, by rw [he, whileBusy_next_idle hf.idle], wp.failed hf, by rw [hp]; omega, by rw [hta],
      fun w => hwf (wp.wf w)⟩
  left
  rw [he]
  obtain ⟨f1, f2, f3, _⟩ := State.appendAll_facts (s := v) (encodeBytes (rlPacket v)) (by rw [eqp] at hfit; omega)
  have wa : Within v (v.appendAll (encodeBytes (rlPacket v))) :=
    Within.appendAll _ (by rw [eqc, eqa]; exact ha0) hfit
  rw [k5]
  generalize encodeBytes (rlPacket v) = bs at *
  have hcmd : (v.appendAll bs).cmd = s.cmd := by simp [eqc]
  have hrl : (v.appendAll bs).rl.i = s.rl.i := by simp [eqi]
  have hlz : (v.appendAll bs).lz = s.lz := by simp [eqlz]
  generalize v.appendAll bs = w at *
  have wz : Within w (rlAdvance l (w.countBytes bs.length)) :=
    Within.of_mem ((SameCommand.countBytes _ _).trans (SameCommand.rlAdvance _ _)) rfl
  have hby : ∀ x, (rlAdvance l (w.countBytes bs.length)).byteAt x = w.byteAt x := fun x =>
    State.byteAt_congr rfl rfl x
  have wt := (wp.trans wa).trans wz
  refine ⟨rlAdvance l (w.countBytes bs.length), l, bs, by rw [whileBusy_next_busy (by rw [wt.same.status]; exact hb)],
    wt, k1, k2, k3, k4, ?_, ?_, ?_, ?_, hlz, fun j hj => ?_, fun x hx => ?_⟩
  · show w.a.toNat = _
    rw [f1, eqa]
  · show w.a.toNat ≤ _
    rw [f1, ← eqp]; exact hfit
  · show w.cmd.cnt + _ = _
    rw [hcmd]
  · show (w.rl.i + BitVec.ofNat 32 l).toNat = _
    rw [hrl, BitVec.toNat_add, BitVec.toNat_ofNat]; omega
  · rw [hby]; have := f3 j hj; rw [eqa, eqp] at this; exact this
  · rw [hby, f2 x (by rw [eqa, eqp]; exact hx), eqb]

end Sys2Proof.Machine
end

