-- ==== Sys2Proof/Tests/Slice0.lean ====
section
/-! SUPPORT. Tests and witnesses. Expected values are those of 95_test_vectors.md or are worked out by hand from the
rules; each docstring says which. -/

namespace Sys2Proof.Tests

open Sys2Proof Sys2Proof.Machine

/-! ### Helpers -/

/-- The next state, if there is one. -/
def nextOf (o : Host.Outcome State Fault Refusal) : Option State :=
  match o with
  | .next s => some s
  | .fault _ => none
  | .refused _ => none

/-- The reason of a refusal, if it is one. -/
def refusalOf (o : Host.Outcome State Fault Refusal) : Option Refusal :=
  match o with
  | .next _ => none
  | .fault _ => none
  | .refused r => some r

/-- The bytes a run of an LZSS or RLE command left at the start of `OUT`, its result and its `STATUS` word. -/
def report (n : Nat) (s : State) : List Byte × Word × Word := (s.outBytes 0 n, s.result, s.status.word)

/-- A small platform: 130 bytes of `IN` at 0, 200 bytes of `OUT` at 1000. -/
def plat : Config.Platform := { inSize := 130, sinkCapacity := 200, inBase := 0, outBase := 1000, instances := 3 }

/-- Idle, with `IN` holding `bytes`, `LEN` their number, and 200 sink writes to be accepted. -/
def idle (bytes : List Byte) : State :=
  { State.reset.writeBytes 0 bytes with
    plat := plat, len := BitVec.ofNat 32 bytes.length, replies := List.replicate 200 false }

/-- A command of codec `op` over `bytes` in progress, with `out` appended from `OUT[0]`. -/
def busy (op : BitVec 2) (bytes out : List Byte) : State :=
  { (idle bytes).writeBytes 1000 out with
    ctrlOp := op, status := { busy := true, done := false, err := false, cause := .none }
    a := BitVec.ofNat 32 out.length
    cmd := { op := op, n := BitVec.ofNat 32 bytes.length, a0 := 0, cnt := BitVec.ofNat 32 out.length } }

/-- LZ-3 of 95_test_vectors.md before its fourth and last token: three literals in the open group. -/
def lzMid : State :=
  { busy 0b00#2 [1, 2, 3, 1, 2, 3] [0, 1, 2, 3] with
    lz := { State.reset.lz with i := 3, tok := 3, flags := 0xE0, p := 0 } }

/-- RL-3 of 95_test_vectors.md before its second and last packet. -/
def rlMid : State :=
  { busy 0b01#2 [0x41, 0x41, 0x41, 0x41, 0x42] [0x84, 0x41] with rl := { State.reset.rl with i := 4 } }

/-- LZ-3 before its first token. -/
def lzStart : State := busy 0b00#2 [1, 2, 3, 1, 2, 3] []

/-- RL-3 before its first packet. -/
def rlStart : State := busy 0b01#2 [0x41, 0x41, 0x41, 0x41, 0x42] []

/-! ### Well-formedness: each check refuses an ill-formed instruction -/

theorem test_wellFormed_illegalRes_zero : (Instr.illegalRes 0 1).wellFormed = false := by decide
theorem test_wellFormed_match_length : (Instr.lzMatch 1 2).wellFormed = false := by decide
theorem test_wellFormed_match_distance : (Instr.lzMatch 0 3).wellFormed = false := by decide
theorem test_wellFormed_run : (Instr.rlRun 2 0).wellFormed = false := by decide
theorem test_wellFormed_literal_empty : (Instr.rlLit []).wellFormed = false := by decide
theorem test_wellFormed_literal_long : (Instr.rlLit (List.replicate 128 0)).wellFormed = false := by decide +kernel

/-- `INSTANCES` is at least 1 (R9). -/
theorem test_platform_legal :
    platformAtReset.legal = true ∧ ({ plat with instances := 0 } : Config.Platform).legal = false := by decide

/-- R35: `BUSY` is bit 0; 95_test_vectors.md: done is 0x2, and the three errors are 0x14, 0x24 and 0x34. -/
theorem test_status_words :
    (Status.running Status.idle).word = 1 ∧ (Status.completed Status.idle).word = 0x2 ∧
    (Status.failed .sinkWriteFailure).word = 0x14 ∧ (Status.failed .illegalCommand).word = 0x24 ∧
    (Status.failed .lengthError).word = 0x34 := by decide

/-! ### Decoding: words written out from the encodings of 30_encoding.md -/

/-- CMD-4 to CMD-7 (R142 to R145): bit 0 is `START`, bits 2:1 are `OP`. -/
theorem test_decode_commands :
    decodeCmd 0b00000000000000000000000000000_00_1#32 = .encodeLzss ∧
    decodeCmd 0b00000000000000000000000000000_01_1#32 = .encodeRle ∧
    decodeCmd 0b00000000000000000000000000000_10_1#32 = .reservedOp2 ∧
    decodeCmd 0b00000000000000000000000000000_11_1#32 = .reservedOp3 := by decide

/-- CMD-8, CMD-9, CMD-3 (R103): `RES` is bits 31:3. -/
theorem test_decode_res :
    decodeCmd 0b00000000000000000000000000001_00_1#32 = .illegalRes 1 0 ∧
    decodeCmd 0b10000000000000000000000000000_01_1#32 = .illegalRes 0x10000000 1 ∧
    decodeCmd 0b11111111111111111111111111111_11_0#32 = .noCommand 0x1FFFFFFF 3 := by decide

/-- LZ-3: flag byte `E0`, literal `01`; each leaves the bytes after it (R105, R106). -/
theorem test_decode_flag_and_literal :
    decodeStream .flagByte [0b11100000, 0x01] = .ok (.lzFlag 0xE0, [0x01]) ∧
    decodeStream (.token true) [0b00000001, 0x02] = .ok (.lzLit 1, [0x02]) := by decide

/-- LZ-7's `04 01` is distance 16, length 4; LZ-13's `F3 FF` is distance 4095, length 3 (R107, R108). -/
theorem test_decode_match :
    decodeStream (.token false) [0b0000_0100, 0b00000001] = .ok (.lzMatch 16 4, []) ∧
    decodeStream (.token false) [0b1111_0011, 0b11111111] = .ok (.lzMatch 4095 3, []) := by decide

/-- RL-3: `84 41` is a run of 4; RL-10: `02 41 41` is a literal packet of 2 (R110, R111). -/
theorem test_decode_packets :
    decodeStream .packet [0b1_0000100, 0x41, 0x01] = .ok (.rlRun 4 0x41, [0x01]) ∧
    decodeStream .packet [0b0_0000010, 0x41, 0x41, 0x83] = .ok (.rlLit [0x41, 0x41], [0x83]) := by decide

/-- The encodings of R113 are refused by name. -/
theorem test_decode_never_produced :
    decodeStream (.token false) [0x12, 0x00] = .error .neverProducedMatchLength ∧
    decodeStream (.token false) [0x0F, 0x00] = .error .neverProducedMatchDistance ∧
    decodeStream .packet [0x82, 0x41] = .error .neverProducedRun ∧
    decodeStream .packet [0x00, 0x41] = .error .neverProducedEmptyLiteral ∧
    decodeStream .packet [0x03, 0x41] = .error .truncated := by decide

/-- The words of the opcode table's numbering: the first byte is the low one. -/
theorem test_decodeTableWord :
    decodeTableWord 32 0x00000003 = some .encodeRle ∧ decodeTableWord 16 0x0104 = some (.lzMatch 16 4) ∧
    decodeTableWord 8 0x83 = some (.rlRun 3 0) ∧ decodeTableWord 8 0x01 = some (.rlLit [0]) := by decide +kernel

/-! ### Commands -/

/-- CMD-3: `OP` is stored, `STATUS` unchanged, and `CTRL` reads 6. -/
theorem test_noCommand :
    (nextOf (step { idle [] with inputs := [.host (.wr 0x00 .word 0xFFFFFFFE)] })).map
      (fun t => (t.ctrlWord, t.status)) = some (6, Status.idle) := by decide

/-- CMD-6: `STATUS` 0x24, `CTRL` reads 4, `RESULT` stays. -/
theorem test_reservedOp2 :
    (nextOf (exec .reservedOp2 { idle [] with result := 6 })).map
      (fun t => (t.status.word, t.ctrlWord, t.result)) = some (0x24, 4, 6) := by decide

/-- CMD-7. -/
theorem test_reservedOp3 :
    (nextOf (exec .reservedOp3 (idle []))).map (fun t => (t.status.word, t.ctrlWord)) = some (0x24, 6) := by decide

/-- CMD-9, and CMD-11: an illegal command is reported before a length error. -/
theorem test_illegalRes :
    (nextOf (exec (decodeCmd 0x80000003) { idle [] with len := 131 })).map
      (fun t => (t.status.word, t.ctrlWord)) = some (0x24, 2) := by decide

/-- CMD-10: `LEN = IN_SIZE + 1`. -/
theorem test_encodeLzss_length :
    (nextOf (exec .encodeLzss { idle [] with len := 131 })).map
      (fun t => (t.status.word, t.ctrlWord)) = some (0x34, 0) := by decide

/-- The start of LZ-3 latches `N` and `A0`, and sets `BUSY` (R140). -/
theorem test_encodeLzss :
    (nextOf (exec .encodeLzss { idle [1, 2, 3, 1, 2, 3] with a := 5 })).map
      (fun t => (t.cmd, t.status.word, t.lz.i)) = some ({ op := 0, n := 6, a0 := 5, cnt := 0 }, 1, 0) := by decide

/-- CMD-13: `LEN = 0` completes at once. -/
theorem test_encodeRle_empty :
    (nextOf (exec .encodeRle { idle [] with a := 5, result := 9 })).map
      (fun t => (t.status.word, t.ctrlWord, t.result, t.a)) = some (2, 2, 0, 5) := by decide

/-! ### The stream rows and the sink -/

/-- SK-1, SK-2, SK-3: the last byte that can be appended, and the one after it. -/
theorem test_sink_append :
    (nextOf (sinkAppend 0x42 { idle [] with a := 199 }).outcome).map
      (fun t => (t.a, t.outByte 199, t.status)) = some (200, 0x42, Status.idle) ∧
    (nextOf (sinkAppend 0x43 { idle [] with a := 200 }).outcome).map
      (fun t => (t.a, t.errpos, t.status.word)) = some (200, 200, 0x14) := by decide

/-- SK-4 and SK-7. -/
theorem test_sink_patch :
    (nextOf (sinkPatch 0x10 0xE0 { idle [] with a := 0x16 }).outcome).map
      (fun t => (t.a, t.outByte 0x10)) = some (0x16, 0xE0) ∧
    (nextOf (sinkPatch 0x10 0xE0 { idle [] with a := 0x16, replies := [true] }).outcome).map
      (fun t => (t.a, t.errpos, t.status.word)) = some (0x16, 0x10, 0x14) := by decide

/-- R178, R180: the third token's flag bit is bit 5. -/
theorem test_lzLit :
    (nextOf (exec (.lzLit 0x41) { lzStart with lz := { lzStart.lz with tok := 2, flags := 0x80 } })).map
      (fun t => (t.outByte 0, t.a, t.cmd.cnt, t.lz.flags, t.lz.tok, t.lz.stride)) =
      some (0x41, 1, 1, 0xA0, 3, 1) := by decide

/-- R179 on LZ-7's second match: `04 01`, low byte first. -/
theorem test_lzMatch :
    (nextOf (exec (.lzMatch 16 4) { lzStart with lz := { lzStart.lz with tok := 2, flags := 0xFF } })).map
      (fun t => (t.outBytes 0 2, t.a, t.cmd.cnt, t.lz.flags, t.lz.tok, t.lz.stride)) =
      some ([0x04, 0x01], 2, 2, 0xDF, 3, 4) := by decide

/-- R182: the placeholder is patched, `A` stays, the group is closed. -/
theorem test_lzFlag :
    (nextOf (exec (.lzFlag 0xE0) lzMid)).map (fun t => (t.outBytes 0 4, t.a, t.cmd.cnt, t.lz.tok)) =
      some ([0xE0, 1, 2, 3], 4, 4, 0) := by decide

/-- RL-7's packet: a run of 127. -/
theorem test_rlRun :
    (nextOf (exec (.rlRun 127 0x55) rlStart)).map (fun t => (t.outBytes 0 2, t.a, t.cmd.cnt, t.rl.i)) =
      some ([0xFF, 0x55], 2, 2, 127) := by decide

/-- RL-21's packet: bytes with bit 7 set are data. -/
theorem test_rlLit :
    (nextOf (exec (.rlLit [0x80, 0x81]) rlStart)).map (fun t => (t.outBytes 0 3, t.a, t.cmd.cnt, t.rl.i)) =
      some ([0x02, 0x80, 0x81], 3, 3, 2) := by decide

/-- LZ-3's last engine step: match, commit, completion (`E0 01 02 03 33 00`, `RESULT` 6). -/
theorem test_lz3_last_step :
    (nextOf (step lzMid)).map (report 6) = some ([0xE0, 0x01, 0x02, 0x03, 0x33, 0x00], 6, 2) := by decide

/-- RL-3's last engine step (`84 41 01 42`, `RESULT` 4). -/
theorem test_rl3_last_step :
    (nextOf (step rlMid)).map (report 4) = some ([0x84, 0x41, 0x01, 0x42], 4, 2) := by decide

/-- LZ-2, one engine step: `80 41`, `RESULT` 2. -/
theorem test_lz2 :
    (nextOf (step (busy 0b00#2 [0x41] []))).map (report 2) = some ([0x80, 0x41], 2, 2) := by decide

/-- RL-16, one engine step: pairs stay in the literal packet. -/
theorem test_rl16 :
    (nextOf (step (busy 0b01#2 [0x41, 0x41, 0x42, 0x41, 0x41] []))).map (report 6) =
      some ([0x05, 0x41, 0x41, 0x42, 0x41, 0x41], 6, 2) := by decide

/-- LZ-5 at `i = 8`: candidates 0 and 4 tie at length 3, and the more distant is kept (R175, C2). -/
theorem test_tie_break :
    lzToken (lzFind { busy 0b00#2 [97, 98, 99, 88, 97, 98, 99, 89, 97, 98, 99] [] with
      lz := { State.reset.lz with i := 8 } }) = .lzMatch 8 3 := by decide

/-- LZ-6 at `i = 1`: an overlapping match, capped at 15 (R186). -/
theorem test_overlapping_match :
    lzToken (lzFind { busy 0b00#2 (List.replicate 17 0x41) [] with lz := { State.reset.lz with i := 1 } }) =
      .lzMatch 1 15 := by decide

/-- RL-11: the literal span of `ABCDDD` ends before the run of three. -/
theorem test_span_stops_before_run :
    rlPacket (rlPrepare (busy 0b01#2 [0x41, 0x42, 0x43, 0x44, 0x44, 0x44] [])) = .rlLit [0x41, 0x42, 0x43] := by decide

/-- L1-2: 130 equal bytes begin with a run of 127. -/
theorem test_run_cap :
    rlPacket (rlPrepare (busy 0b01#2 (List.replicate 130 0x55) [])) = .rlRun 127 0x55 := by decide +kernel

/-- L1-1 and L1-3 read back by the reference decoders (R188, R230). -/
theorem test_reference_decoders :
    rleDecode [0x84, 0x41, 0x01, 0x42] = some [0x41, 0x41, 0x41, 0x41, 0x42] ∧
    lzDecode 6 [0xE0, 0x01, 0x02, 0x03, 0x33, 0x00] = some [1, 2, 3, 1, 2, 3] := by decide

/-! ### Witnesses: states and operands that meet the hypotheses of each statement -/

/-- With the spaces apart and no other instance running, no start is refused. -/
theorem launchable_of_plat {s : State} (hp : s.plat = plat) (ho : s.others = []) (hl : s.len.toNat ≤ 1000) : s.Launchable := by
  refine ⟨fun ⟨x, _, h1, h2, _⟩ => ?_, fun ⟨p, h, _⟩ => ?_, fun ⟨p, h, _⟩ => ?_⟩
  · rw [hp] at h1 h2
    simp only [plat] at h1 h2
    omega
  all_goals
    rw [ho] at h
    cases h

/-- Settled answers and room make a row's appends accepted. -/
theorem acceptsAppends_of_replies (k : Nat) (s : State) (hr : s.replies = List.replicate k false)
    (hfit : s.a.toNat + k ≤ s.plat.sinkCapacity.toNat) : State.acceptsAppends k s := by
  have hc := s.plat.sinkCapacity.isLt
  induction k generalizing s with
  | zero => trivial
  | succ k ih =>
    rw [List.replicate_succ] at hr
    refine ⟨⟨by omega, by simp [State.sinkRefuses, hr]⟩, ih _ ?_ ?_ ?_⟩
    · simp [State.takeReply, hr]
    · have : s.takeReply.plat = s.plat := by simp [State.takeReply, hr]
      have h1 : (1 : Word).toNat = 1 := rfl
      simp only [this, BitVec.toNat_add, h1]
      omega
    · have : s.takeReply.plat = s.plat := by simp [State.takeReply, hr]
      rw [this]; exact hc

/-- The invariant holds while LZ-3's last token is still to come. -/
theorem lzMid_inv : Inv lzMid where
  platform := by decide
  others := ⟨by decide, by decide⟩
  memory := by decide
  status := ⟨by decide, by decide, by decide⟩
  command := fun _ =>
    ⟨by decide, by decide, by decide, by decide, by decide, by decide, by decide, by decide, by decide⟩
  lzss := fun _ _ => ⟨by decide, by decide, by decide, by
    intro _ t h1 h2
    have h : ∀ t, t ≤ 7 → 3 ≤ t → lzMid.lz.flags.getLsbD (7 - t) = false := by decide
    exact h t h2 h1⟩
  rle := fun _ h => absurd h (by decide)

/-- The invariant holds before RL-3's last packet. -/
theorem rlMid_inv : Inv rlMid where
  platform := by decide
  others := ⟨by decide, by decide⟩
  memory := by decide
  status := ⟨by decide, by decide, by decide⟩
  command := fun _ =>
    ⟨by decide, by decide, by decide, by decide, by decide, by decide, by decide, by decide, by decide⟩
  lzss := fun _ h => absurd h (by decide)
  rle := fun _ _ => ⟨by decide⟩

/-- The invariant holds before LZ-3's first token. -/
theorem lzStart_inv : Inv lzStart where
  platform := by decide
  others := ⟨by decide, by decide⟩
  memory := by decide
  status := ⟨by decide, by decide, by decide⟩
  command := fun _ =>
    ⟨by decide, by decide, by decide, by decide, by decide, by decide, by decide, by decide, by decide⟩
  lzss := fun _ _ => ⟨by decide, by decide, by decide, fun h => absurd rfl h⟩
  rle := fun _ h => absurd h (by decide)

/-- The invariant holds before RL-3's first packet. -/
theorem rlStart_inv : Inv rlStart where
  platform := by decide
  others := ⟨by decide, by decide⟩
  memory := by decide
  status := ⟨by decide, by decide, by decide⟩
  command := fun _ =>
    ⟨by decide, by decide, by decide, by decide, by decide, by decide, by decide, by decide, by decide⟩
  lzss := fun _ h => absurd h (by decide)
  rle := fun _ _ => ⟨by decide⟩

/-- The invariant holds of an idle state. -/
theorem idle_inv : Inv (idle [0x41]) where
  platform := by decide
  others := ⟨by decide, by decide⟩
  memory := by decide
  status := ⟨by decide, by decide, by decide⟩
  command := fun h => absurd h (by decide)
  lzss := fun h => absurd h (by decide)
  rle := fun h => absurd h (by decide)

/-- An outcome that goes on is a next state. -/
theorem next_of_isSome {o : Host.Outcome State Fault Refusal} (h : (nextOf o).isSome = true) : ∃ t, o = .next t := by
  cases o with
  | next s => exact ⟨s, rfl⟩
  | fault r => cases h
  | refused r => cases h

/-- An outcome whose next state meets a test. -/
theorem next_of_all {o : Host.Outcome State Fault Refusal} {p : State → Bool} (h : (nextOf o).any p = true) :
    ∃ t, o = .next t ∧ p t = true := by
  cases o with
  | next s => exact ⟨s, rfl, h⟩
  | fault r => cases h
  | refused r => cases h

theorem witness_DecodeOfEncodeGivesBack :
    (Instr.lzMatch 1 3).wellFormed = true ∧ (Instr.lzMatch 4095 15).wellFormed = true ∧
    (Instr.rlRun 3 0).wellFormed = true ∧ (Instr.rlRun 127 0xFF).wellFormed = true ∧
    (Instr.rlLit [0]).wellFormed = true ∧ (Instr.rlLit (List.replicate 127 0)).wellFormed = true ∧
    (Instr.illegalRes 1 0).wellFormed = true := by decide +kernel

theorem witness_DecodedItemsReencode :
    decodeStream .flagByte [0xE0] = .ok (.lzFlag 0xE0, []) ∧ decodeStream (.token true) [1] = .ok (.lzLit 1, []) ∧
    decodeStream (.token false) [0x33, 0] = .ok (.lzMatch 3 3, []) ∧
    decodeStream .packet [0x83, 0] = .ok (.rlRun 3 0, []) ∧
    decodeStream .packet [0x01, 0, 9] = .ok (.rlLit [0], [9]) := by decide

/-- CMD-3; CMD-8 (`RES` alone illegal), CMD-6 and CMD-7 (`OP` alone illegal). -/
theorem witness_EveryCtrlWordIsClassified :
    (idle []).status.busy = false ∧ (0xFFFFFFFE#32).getLsbD 0 = false ∧
    ((0x00000009#32).getLsbD 0 = true ∧ (0x00000009#32).extractLsb' 3 29 ≠ 0) ∧
    ((0x00000005#32).getLsbD 0 = true ∧ (0x00000005#32).extractLsb' 1 2 = 0b10#2) ∧
    ((0x00000007#32).getLsbD 0 = true ∧ (0x00000007#32).extractLsb' 1 2 = 0b11#2) := by decide

theorem witness_NoCommandStoresOp : (idle []).status.busy = false := by decide

theorem witness_IllegalCommandsRaise : State.reset.status.busy = false := by decide

/-- `LEN = IN_SIZE + 1`. -/
theorem witness_LengthErrorAtStart :
    ({ idle [] with len := 131 } : State).status.busy = false ∧
    ({ idle [] with len := 131 } : State).plat.inSize.toNat < ({ idle [] with len := 131 } : State).len.toNat := by
  decide

/-- `LEN = IN_SIZE`, and `LEN = 1`. -/
theorem witness_EncodeStartLatchesAndRuns :
    (({ idle [] with len := 130 } : State).status.busy = false ∧
      ({ idle [] with len := 130 } : State).len.toNat ≤ ({ idle [] with len := 130 } : State).plat.inSize.toNat ∧
      ({ idle [] with len := 130 } : State).len ≠ 0 ∧ ({ idle [] with len := 130 } : State).Launchable) ∧
    ((idle [7]).status.busy = false ∧ (idle [7]).len.toNat ≤ (idle [7]).plat.inSize.toNat ∧ (idle [7]).len ≠ 0 ∧
      (idle [7]).Launchable) :=
  ⟨⟨by decide, by decide, by decide, launchable_of_plat rfl rfl (by decide)⟩,
    ⟨by decide, by decide, by decide, launchable_of_plat rfl rfl (by decide)⟩⟩

theorem witness_EmptyInputCompletesAtStart :
    (idle []).status.busy = false ∧ (idle []).len = 0 ∧ (idle []).Launchable :=
  ⟨by decide, by decide, launchable_of_plat rfl rfl (by decide)⟩

theorem witness_RegisterWritesWhileBusyRefused :
    lzMid.status.busy = true ∧ (0x0C#8 = 0x00#8 ∨ 0x0C#8 = 0x08#8 ∨ 0x0C#8 = 0x0C#8) := by decide

/-- `OUT` begins at `IN`'s last byte. -/
theorem witness_OverlappingLaunchRefused :
    ∃ s : State, s.status.busy = false ∧ s.len.toNat ≤ s.plat.inSize.toNat ∧ s.plat.inBase ≤ 129 ∧
      129 < s.plat.inBase + s.len.toNat ∧ s.plat.outBase + s.a.toNat ≤ 129 ∧
      129 < s.plat.outBase + s.plat.sinkCapacity.toNat :=
  ⟨{ State.reset with plat := { plat with outBase := 129 }, len := 130 }, by decide, by decide, by decide, by decide,
    by decide, by decide⟩

/-- Another instance holds the last position of `OUT`; one holds the position of `OUT` that is the last input byte. -/
theorem witness_SharedSinkLaunchRefused :
    (∃ s : State, s.status.busy = false ∧ s.len.toNat ≤ s.plat.inSize.toNat ∧
      (⟨1, ⟨199, 200⟩⟩ : Other) ∈ s.others ∧ s.a.toNat ≤ 199 ∧ 199 < s.plat.sinkCapacity.toNat) ∧
    ∃ s : State, s.status.busy = false ∧ s.len.toNat ≤ s.plat.inSize.toNat ∧ (⟨1, ⟨9, 10⟩⟩ : Other) ∈ s.others ∧
      s.plat.inBase ≤ 9 ∧ 9 < s.plat.inBase + s.len.toNat ∧ s.plat.outBase + 9 ≤ 9 ∧
      9 < s.plat.outBase + s.plat.sinkCapacity.toNat ∧ s.len.toNat ≤ s.a.toNat :=
  ⟨⟨{ State.reset with plat := plat, others := [⟨1, ⟨199, 200⟩⟩], a := 199 }, by decide, by decide, by decide,
      by decide, by decide⟩,
    { State.reset with plat := { plat with outBase := 0 }, others := [⟨1, ⟨9, 10⟩⟩], len := 10, a := 100 },
    by decide, by decide, by decide, by decide, by decide, by decide, by decide, by decide⟩

/-- A running command from position 100 on, and another instance that holds positions 0 to 99. -/
def sharing : State :=
  { busy 0b00#2 [1] [] with
    a := 100, cmd := { op := 0, n := 1, a0 := 100, cnt := 0 }, others := [⟨1, ⟨0, 100⟩⟩] }

theorem sharing_inv : Inv sharing where
  platform := by decide
  others := ⟨by decide, by decide⟩
  memory := by decide
  status := ⟨by decide, by decide, by decide⟩
  command := fun _ =>
    ⟨by decide, by decide, by decide, by decide, by decide, by decide, by decide, by decide, by decide⟩
  lzss := fun _ _ => ⟨by decide, by decide, by decide, fun h => absurd rfl h⟩
  rle := fun _ h => absurd h (by decide)

/-- The same with both spaces in one memory, and the other's range next to the input byte. -/
def oneMemory : State :=
  { sharing with plat := { plat with outBase := 0 }, others := [⟨1, ⟨1, 100⟩⟩] }

theorem oneMemory_inv : Inv oneMemory where
  platform := by decide
  others := ⟨by decide, by decide⟩
  memory := by decide
  status := ⟨by decide, by decide, by decide⟩
  command := fun _ =>
    ⟨by decide, by decide, by decide, by decide, by decide, by decide, by decide, by decide, by decide⟩
  lzss := fun _ _ => ⟨by decide, by decide, by decide, fun h => absurd rfl h⟩
  rle := fun _ h => absurd h (by decide)

/-- Instance 2 starts at positions past the capacity, next to both ranges; shares the last position of the one, or the
first of the other; instance 1 writes at the two ends of its range, next to this instance's. -/
theorem witness_OtherInstancesHoldTheirRanges :
    (1 ≤ 2 ∧ 2 < sharing.plat.instances ∧ (∀ o ∈ sharing.others, o.number ≠ 2)) ∧
    (¬(∃ o ∈ sharing.others, ∃ x, o.range.lo ≤ x ∧ x < o.range.hi ∧ 200 ≤ x ∧ x < 210) ∧
      (¬∃ x, sharing.cmd.a0.toNat ≤ x ∧ x < sharing.plat.sinkCapacity.toNat ∧ 200 ≤ x ∧ x < 210) ∧
      ¬∃ x, sharing.plat.inBase ≤ x ∧ x < sharing.plat.inBase + sharing.cmd.n.toNat ∧ sharing.plat.outBase + 200 ≤ x ∧
        x < sharing.plat.outBase + 210 ∧ x < sharing.plat.outBase + sharing.plat.sinkCapacity.toNat) ∧
    (∃ o ∈ sharing.others, ∃ x, o.range.lo ≤ x ∧ x < o.range.hi ∧ 99 ≤ x ∧ x < 100) ∧
    (sharing.status.busy = true ∧
      ∃ x, sharing.cmd.a0.toNat ≤ x ∧ x < sharing.plat.sinkCapacity.toNat ∧ 100 ≤ x ∧ x < 101) ∧
    (oneMemory.status.busy = true ∧ (∀ o ∈ oneMemory.others, o.number ≠ 2) ∧
      ∃ x, oneMemory.plat.inBase ≤ x ∧ x < oneMemory.plat.inBase + oneMemory.cmd.n.toNat ∧
        oneMemory.plat.outBase + 0 ≤ x ∧ x < oneMemory.plat.outBase + 1 ∧
        x < oneMemory.plat.outBase + oneMemory.plat.sinkCapacity.toNat) ∧
    Inv sharing ∧ Inv oneMemory ∧ (⟨1, ⟨0, 100⟩⟩ : Other) ∈ sharing.others ∧
    (1099 < sharing.plat.outBase + min 100 sharing.plat.sinkCapacity.toNat ∧
      sharing.plat.outBase + min 100 sharing.plat.sinkCapacity.toNat ≤ 1100) := by
  refine ⟨by decide, ⟨?_, ?_, ?_⟩, ?_, ?_, ?_, sharing_inv, oneMemory_inv, by decide, by decide⟩
  · rintro ⟨o, ho, x, _, h1, h2, _⟩
    obtain rfl : o = ⟨1, ⟨0, 100⟩⟩ := by simpa [sharing] using ho
    simp only at h1
    omega
  · rintro ⟨x, _, h1, h2, _⟩
    have h : sharing.plat.sinkCapacity.toNat = 200 := by decide
    omega
  · rintro ⟨x, _, h1, h2, _⟩
    have h : sharing.plat.inBase + sharing.cmd.n.toNat = 1 ∧ sharing.plat.outBase = 1000 := by decide
    omega
  · exact ⟨⟨1, ⟨0, 100⟩⟩, by decide, 99, by decide, by decide, by decide, by decide⟩
  · exact ⟨by decide, 100, by decide, by decide, by decide, by decide⟩
  · exact ⟨by decide, by decide, 0, by decide, by decide, by decide, by decide, by decide⟩

/-- R318: a launch is refused while the other instance runs, and goes on after its end. -/
theorem test_launch_after_other_ended :
    refusalOf (exec .encodeRle { idle [1] with others := [⟨1, ⟨199, 200⟩⟩] }) = some .sharedSink ∧
    ((nextOf (step { idle [1] with others := [⟨1, ⟨199, 200⟩⟩], inputs := [.other (.stop 1)] })).bind
      fun t => nextOf (exec .encodeRle t)).map (fun t => t.status.busy) = some true := by decide

/-- R71, log 26: in one memory, another instance's range over the held input is refused, at its start and at the start
here, and a turn in a range beside the input keeps it. -/
theorem test_other_range_over_input :
    refusalOf (step { oneMemory with inputs := [.other (.start 2 ⟨0, 1⟩)] }) = some .overlappingSpaces ∧
    refusalOf (exec .encodeRle { oneMemory with status := Status.idle, others := [⟨1, ⟨0, 1⟩⟩] }) =
      some .overlappingSpaces ∧
    (nextOf (step { oneMemory with inputs := [.other (.turn 1)] })).map (fun t => t.inByte 0) = some 1 := by decide

/-- F6 from the other side: its start in this command's range is refused, and one below it is not. -/
theorem test_other_start :
    refusalOf (step { lzMid with inputs := [.other (.start 1 ⟨199, 200⟩)] }) = some .sharedSink ∧
    refusalOf (step { lzMid with inputs := [.other (.start 3 ⟨199, 200⟩)] }) = some .noSuchInstance ∧
    (nextOf (step { idle [] with inputs := [.other (.start 1 ⟨0, 100⟩)] })).map (fun t => t.others) =
      some [⟨1, ⟨0, 100⟩⟩] := by decide

/-- Each command word has a next state in an idle state: one that goes on with `DONE = 0`, one with `ERR = 1`. -/
theorem witness_CommandWordFrame :
    (∃ t, exec .encodeLzss (idle [1]) = .next t ∧ t.status.done = false) ∧
    (∃ t, exec .encodeRle (idle [1]) = .next t ∧ t.status.done = false) ∧
    (∃ t, exec (.noCommand 0 1) (idle []) = .next t) ∧
    (∃ t, exec .encodeRle { idle [] with len := 131 } = .next t ∧ t.status.err = true) :=
  ⟨⟨_, rfl, by decide⟩, ⟨_, rfl, by decide⟩, ⟨_, rfl⟩, ⟨_, rfl, by decide⟩⟩

/-- `A` at the capacity; a refusal; the last byte. -/
theorem witness_AppendWritesAtTheEnd :
    ({ idle [] with a := 200 } : State).plat.sinkCapacity.toNat ≤ ({ idle [] with a := 200 } : State).a.toNat ∧
    ({ idle [] with replies := [true] } : State).sinkRefuses .append 0 = true ∧
    (({ idle [] with a := 199 } : State).a.toNat < ({ idle [] with a := 199 } : State).plat.sinkCapacity.toNat ∧
      ({ idle [] with a := 199 } : State).sinkRefuses .append 199 = false) := by decide

theorem witness_PatchOverwritesOneByte :
    (0#32).toNat < lzMid.a.toNat ∧ ({ lzMid with replies := [true] } : State).sinkRefuses .patch 0 = true ∧
    lzMid.sinkRefuses .patch 0 = false ∧ lzMid.a.toNat ≤ (4#32).toNat := by decide

/-- A sink failure, and the two causes that record nothing. -/
theorem witness_ErrorEntryRecordsAndStops :
    (∃ p, Raise.sinkWriteFailure 3 = .sinkWriteFailure p) ∧ (∀ p, Raise.illegalCommand ≠ .sinkWriteFailure p) ∧
    (∀ p, Raise.lengthError ≠ .sinkWriteFailure p) :=
  ⟨⟨3, rfl⟩, fun _ h => (by cases h), fun _ h => (by cases h)⟩

/-- An address below the range, the range's first and last position, an address above it. -/
theorem witness_SinkFailureLeavesOutputUnspecified :
    (999 < lzMid.plat.outBase + lzMid.cmd.a0.toNat) ∧
    (lzMid.plat.outBase + lzMid.plat.sinkCapacity.toNat ≤ 1200) ∧
    (lzMid.cmd.a0.toNat ≤ 0 ∧ 0 < lzMid.plat.sinkCapacity.toNat) ∧
    (lzMid.cmd.a0.toNat ≤ 199 ∧ 199 < lzMid.plat.sinkCapacity.toNat) := by decide

/-- The first token of a group and the last. -/
theorem witness_LiteralTokenCompletes :
    (lzStart.acceptsAppends 1 ∧ lzStart.lz.tok.toNat ≤ 7) ∧
    (State.acceptsAppends 1 { lzStart with lz := { lzStart.lz with tok := 7 } } ∧ (7#4).toNat ≤ 7) :=
  ⟨⟨⟨⟨by decide, by decide⟩, trivial⟩, by decide⟩, ⟨⟨⟨by decide, by decide⟩, trivial⟩, by decide⟩⟩

/-- Two appends that fill `OUT`. -/
theorem witness_MatchTokenCompletes :
    State.acceptsAppends 2 { lzMid with a := 198, replies := [false, false] } ∧ lzMid.lz.tok.toNat ≤ 7 :=
  ⟨acceptsAppends_of_replies 2 _ rfl (by decide), by decide⟩

theorem witness_GroupCommitCompletes :
    lzMid.lz.p.toNat < lzMid.a.toNat ∧ lzMid.sinkRefuses .patch lzMid.lz.p.toNat = false := by decide

theorem witness_RunPacketCompletes : State.acceptsAppends 2 { rlMid with replies := [false, false] } :=
  acceptsAppends_of_replies 2 _ rfl (by decide)

/-- The shortest and the longest literal packet, the latter filling `OUT`. -/
theorem witness_LiteralPacketCompletes :
    ((Instr.rlLit [0x42]).wellFormed = true ∧ State.acceptsAppends (1 + 1) { rlMid with replies := [false, false] }) ∧
    ((Instr.rlLit (List.replicate 127 0)).wellFormed = true ∧
      State.acceptsAppends (1 + 127) { rlMid with a := 72, replies := List.replicate 128 false }) :=
  ⟨⟨by decide, acceptsAppends_of_replies 2 _ rfl (by decide)⟩,
    ⟨by decide +kernel, acceptsAppends_of_replies 128 _ rfl (by decide)⟩⟩

theorem witness_AppendingRowsCompleteOrFail : lzMid.cmd.a0.toNat ≤ lzMid.a.toNat := by decide

/-- Below `A`, and at `A`. -/
theorem witness_GroupCommitFrame :
    lzMid.lz.p.toNat < lzMid.a.toNat ∧
    ({ lzMid with lz := { lzMid.lz with p := 4 } } : State).a.toNat ≤
      ({ lzMid with lz := { lzMid.lz with p := 4 } } : State).lz.p.toNat := by decide

/-- LZ-3 at position 3: a candidate, one that agrees on three bytes, a best of three; and position 0. -/
theorem witness_MatchFinderPicksLongestMostDistant :
    lzMid.lz.i.toNat < lzMid.cmd.n.toNat ∧
    (inWindow lzMid.lz.i.toNat 0 ∧ 3 ≤ min 15 (lzMid.cmd.n.toNat - lzMid.lz.i.toNat) ∧
      agree lzMid.inByte 0 lzMid.lz.i.toNat 3) ∧
    1 ≤ (lzFind lzMid).lz.bestLen.toNat ∧ (lzStart.lz.i.toNat < lzStart.cmd.n.toNat ∧ lzStart.lz.i = 0) := by
  refine ⟨by decide, ⟨⟨by decide, by decide⟩, by decide, ?_⟩, by decide, by decide⟩
  have h : ∀ k, k < 3 → lzMid.inByte (0 + k) = lzMid.inByte (lzMid.lz.i.toNat + k) := by decide
  exact h

/-- LZ-3 at position 0, a best of 0, and at position 3, a best of 3. -/
theorem witness_FirstTokenIsLiteral :
    (lzStart.lz.i = 0 ∧ lzStart.lz.i.toNat < lzStart.cmd.n.toNat ∧ (lzFind lzStart).lz.bestLen.toNat < 3) ∧
    (lzMid.lz.i.toNat < lzMid.cmd.n.toNat ∧ 3 ≤ (lzFind lzMid).lz.bestLen.toNat) := by decide

theorem witness_OpenGroupReservesPlaceholder : lzStart.acceptsAppends 1 := ⟨⟨by decide, by decide⟩, trivial⟩

/-- The first and the last token of a group, bit 0 and bit 7. -/
theorem witness_FlagAccumulatorWritesOneBit :
    (State.reset.lz.tok.toNat ≤ 7 ∧ 7 ≤ 7) ∧
    (({ State.reset.lz with tok := 7 } : LzRegs).tok.toNat ≤ 7 ∧ 0 ≤ 7) := by decide

/-- A run below the cap. -/
theorem witness_RunDetectorMeasuresTheRun :
    rlStart.rl.i.toNat < rlStart.cmd.n.toNat ∧ (rlMeasure rlStart).rl.r.toNat < 127 := by decide

/-- A byte inside the span after its first. -/
theorem witness_LiteralSpanStopsWhereTheRuleSays :
    (busy 0b01#2 [1, 2, 3] []).rl.i.toNat < (busy 0b01#2 [1, 2, 3] []).cmd.n.toNat ∧
    (busy 0b01#2 [1, 2, 3] []).rl.i.toNat < 1 ∧ 1 < (rlScanLit (busy 0b01#2 [1, 2, 3] [])).rl.e.toNat := by decide

/-- RL-13, three equal bytes; RL-12, two. -/
theorem witness_RunOfThreeIsARunPacket :
    ((busy 0b01#2 [65, 65, 65] []).rl.i.toNat < (busy 0b01#2 [65, 65, 65] []).cmd.n.toNat ∧
      runOf (busy 0b01#2 [65, 65, 65] []).inByte (busy 0b01#2 [65, 65, 65] []).cmd.n.toNat 0 3) ∧
    ((busy 0b01#2 [65, 65] []).rl.i.toNat < (busy 0b01#2 [65, 65] []).cmd.n.toNat ∧
      ¬runOf (busy 0b01#2 [65, 65] []).inByte (busy 0b01#2 [65, 65] []).cmd.n.toNat 0 3) := by
  refine ⟨⟨by decide, by decide, ?_⟩, by decide, fun h => absurd h.1 (by decide)⟩
  have h : ∀ k, k < 3 →
      (busy 0b01#2 [65, 65, 65] []).inByte (0 + k) = (busy 0b01#2 [65, 65, 65] []).inByte 0 := by decide
  exact h

/-- A scan position in each codec; and LZ-3's last turn, which closes a group of four tokens: bits 3 to 0 describe
none. -/
theorem witness_EngineRowsAreWellFormed :
    (lzMid.lz.i.toNat < lzMid.cmd.n.toNat ∧ rlMid.rl.i.toNat < rlMid.cmd.n.toNat) ∧
    Inv lzMid ∧ lzMid.status.busy = true ∧ lzMid.cmd.op = 0b00#2 ∧
    (∃ t, engineStep lzMid = .next t ∧ (!t.status.err && t.lz.tok == 0) = true) ∧
    (lzMid.lz.tok.toNat + 1 ≤ 4 ∧ lzMid.lz.tok.toNat + 1 ≤ 7 ∧ 7 ≤ 7) :=
  ⟨by decide, lzMid_inv, by decide, by decide,
    next_of_all (p := fun t => !t.status.err && t.lz.tok == 0) (by decide), by decide⟩

/-- Nothing queued, and an engine turn queued before a `WAIT`; each codec busy, and idle. -/
theorem witness_StepRunsTheEngineRow :
    (lzMid.inputs = [] ∧ lzMid.status.busy = true ∧ lzMid.cmd.op = 0b00#2 ∧ lzMid.lz.i.toNat < lzMid.cmd.n.toNat) ∧
    (rlMid.inputs = [] ∧ rlMid.status.busy = true ∧ rlMid.cmd.op = 0b01#2 ∧
      rlMid.rl.i.toNat < rlMid.cmd.n.toNat) ∧
    (({ lzMid with inputs := [.engine, .host .wait] } : State).inputs = .engine :: [.host .wait] ∧
      lzMid.status.busy = true) ∧
    (({ idle [] with inputs := [.engine] } : State).inputs = .engine :: [] ∧ (idle []).status.busy = false) := by
  decide

/-- A queued engine turn (R297, D31): idle it does nothing; busy it is the engine's step, and the queue goes on. -/
theorem test_queued_engine_turn :
    (nextOf (step { idle [] with inputs := [.engine, .reset] })).map (fun t => (t.status, t.inputs)) =
      some (Status.idle, [.reset]) ∧
    (nextOf (step { lzMid with inputs := [.engine, .reset] })).map (fun t => (t.result, t.inputs)) =
      some (6, [.reset]) := by decide

theorem witness_IdleBlockDoesNothing : State.reset.status.busy = false ∧ State.reset.inputs = [] := by decide

theorem witness_StepKeepsInvariant :
    (Inv lzMid ∧ ∃ t, step lzMid = .next t) ∧ Inv rlMid ∧ ∃ t, step rlMid = .next t :=
  ⟨⟨lzMid_inv, next_of_isSome (by decide)⟩, rlMid_inv, next_of_isSome (by decide)⟩

/-- A turn that leaves the engine busy. -/
theorem witness_EngineTurnAdvancesOrEnds :
    (Inv lzStart ∧ lzStart.status.busy = true ∧ ∃ t, engineStep lzStart = .next t ∧ t.status.busy = true) ∧
    (Inv rlStart ∧ rlStart.status.busy = true ∧ ∃ t, engineStep rlStart = .next t ∧ t.status.busy = true) :=
  ⟨⟨lzStart_inv, by decide, next_of_all (p := fun t => t.status.busy) (by decide)⟩,
    ⟨rlStart_inv, by decide, next_of_all (p := fun t => t.status.busy) (by decide)⟩⟩

theorem witness_EveryCommandEnds :
    (Inv lzStart ∧ lzStart.status.busy = true ∧ lzStart.inputs = []) ∧
    (Inv rlStart ∧ rlStart.status.busy = true ∧ rlStart.inputs = []) :=
  ⟨⟨lzStart_inv, by decide⟩, rlStart_inv, by decide⟩

theorem witness_CompletedResultCountsTheAppends :
    (Inv lzMid ∧ lzMid.status.busy = true ∧ ∃ t, engineStep lzMid = .next t ∧ t.status.done = true) ∧
    (Inv rlMid ∧ rlMid.status.busy = true ∧ ∃ t, engineStep rlMid = .next t ∧ t.status.done = true) :=
  ⟨⟨lzMid_inv, by decide, next_of_all (p := fun t => t.status.done) (by decide)⟩,
    ⟨rlMid_inv, by decide, next_of_all (p := fun t => t.status.done) (by decide)⟩⟩

/-- The sink refuses the next write. -/
theorem witness_FailedCommandReportsItsPosition :
    Inv { rlMid with replies := [true] } ∧ ({ rlMid with replies := [true] } : State).status.busy = true ∧
    ∃ t, engineStep { rlMid with replies := [true] } = .next t ∧ t.status.err = true :=
  ⟨⟨by decide, ⟨by decide, by decide⟩, by decide, rlMid_inv.status, fun _ => ⟨by decide, by decide, by decide, by decide, by decide, by decide, by decide,
      by decide, by decide⟩, fun _ h => absurd h (by decide), fun _ _ => ⟨by decide⟩⟩,
    by decide, next_of_all (p := fun t => t.status.err) (by decide)⟩

/-- A turn of another instance beside the input, in one memory. -/
theorem witness_HeldInputIsStable :
    Inv { oneMemory with inputs := [.other (.turn 1)] } ∧ oneMemory.status.busy = true ∧
      ∃ t, step { oneMemory with inputs := [.other (.turn 1)] } = .next t :=
  ⟨⟨oneMemory_inv.platform, ⟨oneMemory_inv.others.exist, oneMemory_inv.others.apart⟩, oneMemory_inv.memory,
      oneMemory_inv.status, fun _ => ⟨by decide, by decide, by decide, by decide, by decide, by decide, by decide,
        by decide, by decide⟩,
      fun _ _ => ⟨by decide, by decide, by decide, fun h => absurd rfl h⟩, fun _ h => absurd h (by decide)⟩,
    by decide, _, rfl⟩

theorem witness_StepKeepsSizeBounds :
    (Inv lzMid ∧ SizeInv lzMid ∧ ∃ t, step lzMid = .next t) ∧ Inv rlMid ∧ SizeInv rlMid ∧ ∃ t, step rlMid = .next t :=
  ⟨⟨lzMid_inv, ⟨fun _ _ => ⟨by decide, by decide⟩, fun _ h => absurd h (by decide), fun h => absurd h (by decide),
      fun h => absurd h (by decide)⟩, next_of_isSome (by decide)⟩,
    rlMid_inv, ⟨fun _ h => absurd h (by decide), fun _ _ => ⟨by decide, by decide⟩, fun h => absurd h (by decide),
      fun h => absurd h (by decide)⟩, next_of_isSome (by decide)⟩

/-- An open group of three literals, its placeholder at the start; and a turn from the start that goes on. -/
theorem witness_LzssStreamDecodesToTheInput :
    (Inv lzMid ∧ lzMid.status.busy = true ∧ lzMid.cmd.op = 0b00#2 ∧ LzDecodesSoFar lzMid ∧
      ∃ t, engineStep lzMid = .next t ∧ t.status.done = true) ∧
    (Inv lzStart ∧ lzStart.status.busy = true ∧ lzStart.cmd.op = 0b00#2 ∧ LzDecodesSoFar lzStart ∧
      ∃ t, engineStep lzStart = .next t ∧ t.status.busy = true) :=
  ⟨⟨lzMid_inv, by decide, by decide,
      ⟨{ out := [1, 2, 3], flag := 0xE0, flagAt := 0, tok := 3 }, by decide, by decide, by decide⟩,
      next_of_all (p := fun t => t.status.done) (by decide)⟩,
    ⟨lzStart_inv, by decide, by decide, ⟨{ out := [], flag := 0, flagAt := 0, tok := 8 }, by decide, by decide,
      by decide⟩, next_of_all (p := fun t => t.status.busy) (by decide)⟩⟩

theorem witness_RleStreamDecodesToTheInput :
    (Inv rlMid ∧ rlMid.status.busy = true ∧ rlMid.cmd.op = 0b01#2 ∧ RlDecodesSoFar rlMid ∧
      ∃ t, engineStep rlMid = .next t ∧ t.status.done = true) ∧
    (Inv rlStart ∧ rlStart.status.busy = true ∧ rlStart.cmd.op = 0b01#2 ∧ RlDecodesSoFar rlStart ∧
      ∃ t, engineStep rlStart = .next t ∧ t.status.busy = true) :=
  ⟨⟨rlMid_inv, by decide, by decide, show rleDecode _ = _ by decide,
      next_of_all (p := fun t => t.status.done) (by decide)⟩,
    ⟨rlStart_inv, by decide, by decide, show rleDecode _ = _ by decide,
      next_of_all (p := fun t => t.status.busy) (by decide)⟩⟩

/-- One byte, one engine step. -/
theorem witness_CompletedRunRoundTrips :
    Inv (idle [0x41]) ∧ (idle [0x41]).inputs = [] ∧ (idle [0x41]).status.busy = false ∧
    (∃ u t, exec .encodeLzss (idle [0x41]) = .next u ∧ Host.Core.run Sys2Proof.core 1 u = .next t ∧
      t.status.done = true) ∧
    (∃ u t, exec .encodeRle (idle [0x41]) = .next u ∧ Host.Core.run Sys2Proof.core 1 u = .next t ∧
      t.status.done = true) := by
  refine ⟨idle_inv, by decide, by decide, ?_, ?_⟩
  · obtain ⟨t, h1, h2⟩ := next_of_all (o := Host.Core.run Sys2Proof.core 1
      (((idle [0x41]).storeOp 0).clearStatus.latchCommand 0)) (p := fun t => t.status.done) (by decide)
    exact ⟨_, t, rfl, h1, h2⟩
  · obtain ⟨t, h1, h2⟩ := next_of_all (o := Host.Core.run Sys2Proof.core 1
      (((idle [0x41]).storeOp 1).clearStatus.latchCommand 1)) (p := fun t => t.status.done) (by decide)
    exact ⟨_, t, rfl, h1, h2⟩

/-- `A0 = 1`: an input byte of the command, and a position below `A0`. -/
theorem witness_EngineTurnKeepsOtherBytes :
    (Inv lzMid ∧ lzMid.status.busy = true ∧ (∃ t, engineStep lzMid = .next t) ∧ 5 < lzMid.cmd.n.toNat) ∧
    (0 < ({ lzStart with a := 1, cmd := { lzStart.cmd with a0 := 1 } } : State).cmd.a0.toNat) :=
  ⟨⟨lzMid_inv, by decide, next_of_isSome (by decide), by decide⟩, by decide⟩

/-- A failure at position 2 after `ERRPOS` 9; and a reset. -/
theorem witness_ErrposChangesOnlyAtAFailureOrReset :
    (∃ t, step { rlMid with replies := [true], errpos := 9 } = .next t ∧ t.errpos ≠ 9) ∧
    (∃ t, step { idle [] with errpos := 9, inputs := [.reset] } = .next t ∧ t.errpos ≠ 9) := by
  refine ⟨?_, ⟨_, rfl, by decide⟩⟩
  obtain ⟨t, h1, h2⟩ := next_of_all (o := step { rlMid with replies := [true], errpos := 9 })
    (p := fun t => t.errpos != 9) (by decide)
  exact ⟨t, h1, by simpa using h2⟩

/-- A write of `LEN`; and a reset. -/
theorem witness_LenChangesOnlyByTheHost :
    (∃ t, step { idle [] with inputs := [.host (.wr 0x08 .word 5)] } = .next t ∧ t.len ≠ (idle []).len) ∧
    (∃ t, step { idle [1] with inputs := [.reset] } = .next t ∧ t.len ≠ (idle [1]).len) :=
  ⟨⟨_, rfl, by decide⟩, ⟨_, rfl, by decide⟩⟩

/-- Idle with `RESULT` closed and open; busy; each register's offset; the first and the last reserved offset. -/
theorem witness_RegisterAccessRules :
    ((idle []).status.busy = false ∧ (idle []).resultOpen = false) ∧
    (({ idle [] with resultOpen := true } : State).status.busy = false ∧
      ({ idle [] with resultOpen := true } : State).resultOpen = true) ∧ lzMid.status.busy = true ∧
    Reg.ofOffset 0x0C#8 = some .a ∧ Reg.ofOffset 0x10#8 = some .result ∧ Reg.ofOffset 0x14#8 = some .errpos ∧
    Reg.ofOffset 0x04#8 = some .status ∧
    (0x18 ≤ (0x18#8).toNat ∧ (0x18#8).toNat % 4 = 0) ∧ (0x18 ≤ (0xFC#8).toNat ∧ (0xFC#8).toNat % 4 = 0) := by decide

theorem witness_BadRegisterAccessRefused :
    (AccessSize.byte ≠ .word ∨ (0x00#8).toNat % 4 ≠ 0) ∧ (AccessSize.half ≠ .word ∨ (0x04#8).toNat % 4 ≠ 0) ∧
    (AccessSize.word ≠ .word ∨ (0x01#8).toNat % 4 ≠ 0) := by decide

theorem witness_LenAndAWritesOnlyStore : (idle []).status.busy = false := by decide

/-- The last input byte of the command. -/
theorem witness_HeldInputWritesRefused :
    lzMid.status.busy = true ∧ 5 + ([9] : List Byte).length ≤ lzMid.plat.inSize.toNat ∧ 5 ≤ 5 ∧
    5 < 5 + ([9] : List Byte).length ∧ 5 < lzMid.cmd.n.toNat := by decide

/-- The first byte of the range, and the last. -/
theorem witness_OutputThatIsNotFinalRefused :
    (lzMid.status.busy = true ∧ ([9] : List Byte).length = 1 ∧ 0 + 1 ≤ lzMid.plat.sinkCapacity.toNat ∧ 0 ≤ 0 ∧
      0 < 0 + 1 ∧ lzMid.cmd.a0.toNat ≤ 0) ∧
    (199 + 1 ≤ lzMid.plat.sinkCapacity.toNat ∧ 199 < 199 + 1 ∧ lzMid.cmd.a0.toNat ≤ 199) := by decide

/-- The last byte of each space; the model's own reads and writes of it are `test_fill_and_dump`. -/
theorem witness_FillAndDumpWhileIdle :
    (idle []).status.busy = false ∧ 129 + ([9] : List Byte).length ≤ (idle []).plat.inSize.toNat ∧
    199 + 1 ≤ (idle []).plat.sinkCapacity.toNat := by decide

/-- Idle and busy, with no cause; and idle after a sink failure, code 1. -/
theorem witness_WaitPollsUntilIdle :
    ((idle []).status.busy = false ∧ (idle []).status.cause = .none) ∧
    (lzMid.status.busy = true ∧ lzMid.status.cause = .none) ∧
    ((Status.failed .sinkWriteFailure).busy = false ∧ (Status.failed .sinkWriteFailure).cause = .sinkWriteFailure) := by
  decide

theorem witness_ResetInputClearsTheRegisters :
    (idle []).status.busy = false ∧
    (lzMid.status.busy = true ∧ lzMid.cmd.a0.toNat ≤ 0 ∧ 0 < lzMid.plat.sinkCapacity.toNat) ∧
    (lzMid.cmd.a0.toNat ≤ 199 ∧ 199 < lzMid.plat.sinkCapacity.toNat) := by decide

/-! ### The host's side -/

/-- `FILL IN, 0` and `DUMP OUT, 0, 4`, on states with `IN` and `OUT` apart (P1). -/
theorem test_fill_and_dump :
    (nextOf (step { idle [] with inputs := [.host (.fill .input 128 [7, 8])] })).map (fun t => t.inBytes 128 2) =
      some [7, 8] ∧
    (nextOf (step { idle [] with mem := [(1000, 0x84), (1001, 0x41)],
                                 inputs := [.host (.dump .output 0 2)] })).map (fun t => t.obs) =
      some [.bytes .output 0 [0x84, 0x41]] := by decide

/-- A byte past the end of `IN` does not exist. -/
theorem test_fill_past_the_end :
    step { idle [] with inputs := [.host (.fill .input 129 [7, 8])] } = .fault (.noSuchByte .input) := rfl

/-- F1, F2, F3, F4, F5 of 93_implementation_defined.md. -/
theorem test_refusals :
    refusalOf (step { lzMid with inputs := [.host (.wr 0x08 .word 1)] }) = some .registerWriteWhileBusy ∧
    refusalOf (step { lzMid with inputs := [.host (.rd 0x18 .word)] }) = some .reservedOffset ∧
    refusalOf (step { lzMid with inputs := [.host (.rd 0x02 .word)] }) = some .badRegisterAccess ∧
    refusalOf (step { lzMid with inputs := [.host (.fill .input 5 [0])] }) = some .inputHeld ∧
    refusalOf (step { lzMid with inputs := [.host (.dump .output 0 1)] }) = some .outputNotFinal := by decide

/-- Staging: the step that follows runs the instruction (log 11). A match of length 4 at distance 16. -/
theorem test_stage_match :
    (nextOf (step (State.reset.withFetchWord 16 0x0104))).map (fun t => t.outBytes 1 2) = some [0x04, 0x01] := by
  decide +kernel

end Sys2Proof.Tests
end

section
/-! The host's register accesses: the step that performs one, and its refusal when it is not a whole aligned word. -/

namespace Sys2Proof.Machine

/-- A host transaction that stands first is what the step performs, on the state without it. -/
theorem step_host (t : Transaction) (rest : List Input) (s : State) :
    step { s with inputs := .host t :: rest } = transact t { s with inputs := rest } := rfl

/-- 20_memory.md R75: whole words at word-aligned offsets, and only those. -/
theorem accessAligned_eq_false_iff {offset : BitVec 8} {size : AccessSize} :
    accessAligned offset size = false ↔ size ≠ .word ∨ offset.toNat % 4 ≠ 0 := by
  simp [accessAligned, imp_iff_not_or]

/-- The refusal comes before the register is looked up, so it does not depend on what the access would do. -/
theorem atRegister_of_not_aligned {offset : BitVec 8} {size : AccessSize} (h : accessAligned offset size = false)
    (f : Reg → Host.Outcome State Fault Refusal) : atRegister offset size f = .refused .badRegisterAccess := by
  simp [atRegister, h]

theorem transact_wr_of_not_aligned {offset : BitVec 8} {size : AccessSize} (h : accessAligned offset size = false)
    (v : Word) (s : State) : transact (.wr offset size v) s = .refused .badRegisterAccess :=
  atRegister_of_not_aligned h _

theorem transact_rd_of_not_aligned {offset : BitVec 8} {size : AccessSize} (h : accessAligned offset size = false)
    (s : State) : transact (.rd offset size) s = .refused .badRegisterAccess :=
  atRegister_of_not_aligned h _

/-- Settles O53: reads and writes go through the same alignment test, which looks at the offset and size only. -/
theorem badRegisterAccessRefused : Obligations.BadRegisterAccessRefused := by
  intro s rest v offset size hbad
  have hna : accessAligned offset size = false := accessAligned_eq_false_iff.mpr hbad
  constructor
  · rw [step_host, transact_wr_of_not_aligned hna]
  · rw [step_host, transact_rd_of_not_aligned hna]

end Sys2Proof.Machine
end

section
/-! The classes of `CTRL` words (30_encoding.md R103): what a word of each class decodes to, and what the two classes
that start nothing do to an idle block. -/

namespace Sys2Proof

theorem decodeCmd_of_no_start {w : Word} (h : cmdStart w = false) :
    decodeCmd w = .noCommand (cmdRes w) (cmdOp w) := by
  simp [decodeCmd, h]

theorem decodeCmd_of_res_ne_zero {w : Word} (h : cmdStart w = true) (hres : cmdRes w ≠ 0#29) :
    decodeCmd w = .illegalRes (cmdRes w) (cmdOp w) := by
  simp [decodeCmd, h, hres]

theorem decodeCmd_of_reserved_op2 {w : Word} (h : cmdStart w = true) (hres : cmdRes w = 0#29)
    (hop : cmdOp w = 0b10#2) :
    decodeCmd w = .reservedOp2 := by
  simp [decodeCmd, h, hres, hop]

theorem decodeCmd_of_reserved_op3 {w : Word} (h : cmdStart w = true) (hres : cmdRes w = 0#29)
    (hop : cmdOp w = 0b11#2) :
    decodeCmd w = .reservedOp3 := by
  simp [decodeCmd, h, hres, hop]

namespace Machine

theorem exec_noCommand_of_idle {s : State} (hidle : s.status.busy = false) (res : BitVec 29) (op : BitVec 2) :
    exec (.noCommand res op) s = .next (s.storeOp op) := by
  simp [exec, execNoCommand, hidle]

/-- 60_exceptions.md R288: error entry overwrites the `STATUS` that the start cleared, so only `OP` and `STATUS`
change. -/
theorem rejectCommand_of_idle {s : State} (hidle : s.status.busy = false) (op : BitVec 2) :
    rejectCommand op s = .next { s with ctrlOp := op, status := Status.failed .illegalCommand } := by
  simp [rejectCommand, hidle, raiseError_illegalCommand, State.clearStatus, State.storeOp]

/-- The three rows of illegal words (`ILLEGAL_RES`, `RESERVED_OP2`, `RESERVED_OP3`) act as one: each is rejected with
the word's own `OP`. -/
theorem exec_decodeCmd_of_illegal {w : Word} (hstart : cmdStart w = true)
    (hillegal : cmdRes w ≠ 0#29 ∨ cmdOp w = 0b10#2 ∨ cmdOp w = 0b11#2) (s : State) :
    exec (decodeCmd w) s = rejectCommand (cmdOp w) s := by
  by_cases hres : cmdRes w = 0#29
  · obtain hop | hop := hillegal.resolve_left (not_not_intro hres)
    · rw [decodeCmd_of_reserved_op2 hstart hres hop, hop]
      rfl
    · rw [decodeCmd_of_reserved_op3 hstart hres hop, hop]
      rfl
  · rw [decodeCmd_of_res_ne_zero hstart hres]
    rfl

/-- Settles O4: one lemma per class of words; the two command words are single words, decoded by evaluation. -/
theorem everyCtrlWordIsClassified : Obligations.EveryCtrlWordIsClassified := by
  intro w s hidle
  refine ⟨fun hstart => ?noCommand, ?lzss, ?rle, fun hstart hillegal => ?illegal⟩
  case noCommand =>
    rw [decodeCmd_of_no_start hstart]
    exact exec_noCommand_of_idle hidle _ _
  case lzss =>
    rintro rfl
    decide
  case rle =>
    rintro rfl
    decide
  case illegal =>
    exact (exec_decodeCmd_of_illegal hstart hillegal s).trans (rejectCommand_of_idle hidle _)

end Machine
end Sys2Proof
end

section
/-! A start with `N = 0` (40_commands.md R148): what lets a start through, and the command that is complete as soon as
its codec is entered. -/

namespace Sys2Proof.Machine

/-- `State.Launchable` says in addresses and positions what the three tests of a start decide. -/
theorem launchRefusal_eq_none_iff {s : State} : s.launchRefusal = none ↔ s.Launchable := by
  have happart : (s.inputSpan s.len.toNat).overlaps (s.outputSpan s.a.toNat) = true ↔
      ∃ x, s.plat.inBase ≤ x ∧ x < s.plat.inBase + s.len.toNat ∧
        s.plat.outBase + s.a.toNat ≤ x ∧ x < s.plat.outBase + s.plat.sinkCapacity.toNat := by
    simp only [Span.overlaps_iff, Span.holds_iff, State.inputSpan, State.outputSpan, and_assoc]
  have hstable : (s.others.any fun o => s.rangeMeetsInput o.range s.len.toNat) = true ↔
      ∃ o ∈ s.others, ∃ x, s.plat.inBase ≤ x ∧ x < s.plat.inBase + s.len.toNat ∧
        s.plat.outBase + o.range.lo ≤ x ∧ x < s.plat.outBase + o.range.hi ∧
        x < s.plat.outBase + s.plat.sinkCapacity.toNat := by
    simp only [List.any_eq_true, rangeMeetsInput_iff]
  have hunshared : (s.others.any fun o => o.range.overlaps (s.sinkRange s.a.toNat)) = true ↔
      ∃ o ∈ s.others, ∃ x, o.range.lo ≤ x ∧ x < o.range.hi ∧ s.a.toNat ≤ x ∧ x < s.plat.sinkCapacity.toNat := by
    simp only [List.any_eq_true, Span.overlaps_iff, Span.holds_iff, State.sinkRange, and_assoc]
  rw [State.Launchable, ← happart, ← hstable, ← hunshared, State.launchRefusal]
  split_ifs <;> simp_all

/-- 40_commands.md R140, R141: a start that meets no error and no refusal enters its codec. -/
theorem startEncoder_of_launchable {s : State} (hidle : s.status.busy = false)
    (hlen : s.len.toNat ≤ s.plat.inSize.toNat) (hlaunch : s.Launchable) (op : BitVec 2) (enter : State → State) :
    startEncoder op enter s = .next (enter ((s.storeOp op).clearStatus.latchCommand op)) := by
  have hnone : s.launchRefusal = none := launchRefusal_eq_none_iff.mpr hlaunch
  simp [startEncoder, hidle, hnone, Nat.not_lt.mpr hlen]

theorem lzEnter_of_empty {s : State} (hn : s.cmd.n = 0) : lzEnter s = (lzInit s).complete := by
  simp [lzEnter, lzLoopControl, lzInit, hn]

theorem rlEnter_of_empty {s : State} (hn : s.cmd.n = 0) : rlEnter s = (rlInit s).complete := by
  simp [rlEnter, rlLoopControl, rlInit, hn]

/-- Completion ends the time in which `RESULT` reads as a free value (10_state.md R40, 40_commands.md R147). -/
theorem readValue_result_complete {s : State} : s.complete.readValue .result = s.cmd.cnt := by
  simp [State.readValue, State.readDraws, State.regWord, Status.completed]

theorem exec_encodeLzss_of_empty {s : State} (hidle : s.status.busy = false) (hlen : s.len = 0)
    (hlaunch : s.Launchable) :
    exec .encodeLzss s = .next (lzInit ((s.storeOp 0b00#2).clearStatus.latchCommand 0b00#2)).complete := by
  have hfits : s.len.toNat ≤ s.plat.inSize.toNat := by simp [hlen]
  have hn : ((s.storeOp 0b00#2).clearStatus.latchCommand 0b00#2).cmd.n = 0 := hlen
  exact (startEncoder_of_launchable hidle hfits hlaunch 0b00#2 lzEnter).trans (by rw [lzEnter_of_empty hn])

theorem exec_encodeRle_of_empty {s : State} (hidle : s.status.busy = false) (hlen : s.len = 0)
    (hlaunch : s.Launchable) :
    exec .encodeRle s = .next (rlInit ((s.storeOp 0b01#2).clearStatus.latchCommand 0b01#2)).complete := by
  have hfits : s.len.toNat ≤ s.plat.inSize.toNat := by simp [hlen]
  have hn : ((s.storeOp 0b01#2).clearStatus.latchCommand 0b01#2).cmd.n = 0 := hlen
  exact (startEncoder_of_launchable hidle hfits hlaunch 0b01#2 rlEnter).trans (by rw [rlEnter_of_empty hn])

/-- Settles O10: both codecs complete inside the start, whose only writes are to the registers: neither the memory nor
the lost ranges change, and `LZ_INIT` leaves `LZ.P`. -/
theorem emptyInputCompletesAtStart : Obligations.EmptyInputCompletesAtStart := by
  intro s hidle hlen hlaunch
  exact ⟨_, _, exec_encodeLzss_of_empty hidle hlen hlaunch, exec_encodeRle_of_empty hidle hlen hlaunch,
    rfl, rfl, rfl, rfl, rfl, rfl, State.byteAt_congr rfl rfl, State.byteAt_congr rfl rfl,
    readValue_result_complete, readValue_result_complete, rfl⟩

end Sys2Proof.Machine
end

section
/-! The command words that raise `ILLEGAL_COMMAND` while idle (40_commands.md R144, R145), and the accesses that a busy
block refuses (R149). -/

namespace Sys2Proof.Machine

/-- Settles O7: the three rows are one operation, `rejectCommand`, with the row's own `OP`. -/
theorem illegalCommandsRaise : Obligations.IllegalCommandsRaise := by
  intro res op s hidle
  exact ⟨by decide, by decide, rejectCommand_of_idle hidle _, rejectCommand_of_idle hidle _,
    rejectCommand_of_idle hidle _, by decide⟩

theorem startEncoder_of_busy {s : State} (hbusy : s.status.busy = true) (op : BitVec 2) (enter : State → State) :
    startEncoder op enter s = .refused .registerWriteWhileBusy := by
  simp [startEncoder, hbusy]

theorem rejectCommand_of_busy {s : State} (hbusy : s.status.busy = true) (op : BitVec 2) :
    rejectCommand op s = .refused .registerWriteWhileBusy := by
  simp [rejectCommand, hbusy]

theorem exec_noCommand_of_busy {s : State} (hbusy : s.status.busy = true) (res : BitVec 29) (op : BitVec 2) :
    exec (.noCommand res op) s = .refused .registerWriteWhileBusy := by
  simp [exec, execNoCommand, hbusy]

/-- 40_commands.md R149: whatever class its word is of, a `CTRL` write is refused while busy. -/
theorem exec_decodeCmd_of_busy {s : State} (hbusy : s.status.busy = true) (w : Word) :
    exec (decodeCmd w) s = .refused .registerWriteWhileBusy := by
  unfold decodeCmd
  split_ifs with hstart hres hlzss hrle hop2
  · exact exec_noCommand_of_busy hbusy _ _
  · exact rejectCommand_of_busy hbusy _
  · exact startEncoder_of_busy hbusy _ lzEnter
  · exact startEncoder_of_busy hbusy _ rlEnter
  · exact rejectCommand_of_busy hbusy _
  · exact rejectCommand_of_busy hbusy _

/-- 40_commands.md R149, 70_reset_and_hazards.md R317: the registers that the host may write are held while busy. -/
theorem writeReg_of_busy {s : State} (hbusy : s.status.busy = true) {r : Reg} (hr : r = .ctrl ∨ r = .len ∨ r = .a)
    (v : Word) : writeReg r v s = .refused .registerWriteWhileBusy := by
  obtain rfl | rfl | rfl := hr
  · exact exec_decodeCmd_of_busy hbusy v
  · simp [writeReg, hbusy]
  · simp [writeReg, hbusy]

/-- A whole-word write at a register's own offset reaches that register (10_state.md R33, 20_memory.md R75). -/
theorem transact_wr_offset (r : Reg) (v : Word) (s : State) :
    transact (.wr r.offset .word v) s = writeReg r v s := by
  cases r <;> rfl

/-- Settles O11: the write is performed on the state without it, which is as busy. -/
theorem registerWritesWhileBusyRefused : Obligations.RegisterWritesWhileBusyRefused := by
  intro s v rest offset hbusy hoffset
  obtain ⟨r, hr, rfl⟩ : ∃ r, (r = .ctrl ∨ r = .len ∨ r = .a) ∧ Reg.offset r = offset := by
    obtain rfl | rfl | rfl := hoffset
    · exact ⟨.ctrl, by simp, rfl⟩
    · exact ⟨.len, by simp, rfl⟩
    · exact ⟨.a, by simp, rfl⟩
  have hstill : ({ s with inputs := rest } : State).status.busy = true := hbusy
  rw [step_host, transact_wr_offset, writeReg_of_busy hstill hr]

end Sys2Proof.Machine
end

section
/-! The match finder's result in closed form (41_lzss.md R174 to R176), read off the best of the window. -/

namespace Sys2Proof.Machine

/-- The window of the search is the one that `inWindow` names (41_lzss.md R173, R174). -/
theorem inWindow_iff {i c : Nat} : inWindow i c ↔ i - windowSize i ≤ c ∧ c < i := by
  have hsize : i - windowSize i = i - Config.backWindow := by unfold windowSize; omega
  rw [hsize, inWindow]

/-- A best of at least 1 has a candidate, so there is none at scan position 0 (41_lzss.md R174). -/
theorem Best.bestLen_eq_zero_of_empty {inp : Nat → Byte} {i m lo : Nat} {lz : LzRegs} (h : Best inp i m lo lo lz) :
    lz.bestLen = 0 := by
  by_contra hne
  have hpos : 1 ≤ lz.bestLen.toNat := Nat.one_le_iff_ne_zero.mpr fun h0 => hne (BitVec.eq_of_toNat_eq h0)
  obtain ⟨hlo, hhi, -, -⟩ := h.best hpos
  omega

/-- Where a candidate's capped common run is below the best, it does not agree on the best's length. -/
theorem not_agree_of_commonLen_lt {inp : Nat → Byte} {c i m j : Nat} (hj : j ≤ m) (h : commonLen inp c i m < j) :
    ¬agree inp c i j := fun hagree => by
  have := le_commonLen inp c i m j hj hagree
  omega

/-- Settles O27: `Best` says it of common runs, which `commonLen_agree` and `le_commonLen` turn into agreement. -/
theorem matchFinderPicksLongestMostDistant : Obligations.MatchFinderPicksLongestMostDistant := by
  intro s hscan
  obtain ⟨hbest, hdist⟩ := LzRegs.find_best s.inByte s.cmd.n.toNat s.lz hscan
  rw [lzFind_lz]
  refine ⟨LzRegs.find_i _ _ _, hbest.le, fun c j hc hj hagree => ?longest, fun h0 => ?first, fun hpos => ?found⟩
  case longest =>
    obtain ⟨hlo, hhi⟩ := inWindow_iff.mp hc
    exact (le_commonLen _ _ _ _ _ hj hagree).trans (hbest.top c hlo hhi)
  case first =>
    rw [h0] at hbest
    exact hbest.bestLen_eq_zero_of_empty
  case found =>
    obtain ⟨hlo, hhi, hlen, hearlier⟩ := hbest.best hpos
    refine ⟨inWindow_iff.mpr ⟨hlo, hhi⟩, ?_, fun c hc hlt => ?_, hdist hpos⟩
    · rw [← hlen]
      exact commonLen_agree _ _ _ _
    · exact not_agree_of_commonLen_lt hbest.le (hearlier c (inWindow_iff.mp hc).1 hlt)

end Sys2Proof.Machine
end

section
/-! What an engine turn of a busy codec can do, whole (41_lzss.md R170, 42_rle.md R220, 92_eei_decisions.md D31): an
iteration with the loop's condition after it, or a failed write. `Turn` says it once for both codecs; what a turn leaves
of the command, and that it keeps the invariant, is read off it. -/

namespace Sys2Proof.Machine

/-! ### The loop's condition -/

theorem State.scanPos_of_lzss {s : State} (hop : s.cmd.op = 0b00#2) : s.scanPos = s.lz.i.toNat := if_pos hop

theorem State.scanPos_of_rle {s : State} (hop : s.cmd.op = 0b01#2) : s.scanPos = s.rl.i.toNat :=
  if_neg (by rw [hop]; decide)

/-- The loop's condition of either codec (41_lzss.md R183, 42_rle.md R227). -/
def State.loopControl (u : State) : State := if u.scanPos < u.cmd.n.toNat then u else u.complete

theorem lzLoopControl_eq {u : State} (hop : u.cmd.op = 0b00#2) : lzLoopControl u = u.loopControl := by
  rw [lzLoopControl, State.loopControl, State.scanPos_of_lzss hop]

theorem rlLoopControl_eq {u : State} (hop : u.cmd.op = 0b01#2) : rlLoopControl u = u.loopControl := by
  rw [rlLoopControl, State.loopControl, State.scanPos_of_rle hop]

theorem State.loopControl_cases (u : State) :
    (u.scanPos < u.cmd.n.toNat ∧ u.loopControl = u) ∨ (u.cmd.n.toNat ≤ u.scanPos ∧ u.loopControl = u.complete) := by
  unfold State.loopControl
  split
  · exact .inl ⟨‹_›, rfl⟩
  · exact .inr ⟨Nat.le_of_not_lt ‹_›, rfl⟩

@[simp] theorem State.loopControl_cmd (u : State) : u.loopControl.cmd = u.cmd := by
  unfold State.loopControl; split <;> rfl
@[simp] theorem State.loopControl_plat (u : State) : u.loopControl.plat = u.plat := by
  unfold State.loopControl; split <;> rfl
@[simp] theorem State.loopControl_mem (u : State) : u.loopControl.mem = u.mem := by
  unfold State.loopControl; split <;> rfl
@[simp] theorem State.loopControl_lost (u : State) : u.loopControl.lost = u.lost := by
  unfold State.loopControl; split <;> rfl
@[simp] theorem State.loopControl_inputs (u : State) : u.loopControl.inputs = u.inputs := by
  unfold State.loopControl; split <;> rfl

/-! ### One turn -/

/-- `u` is what an iteration of the running codec makes of `s`, where it goes through. -/
inductive Iterates (s u : State) : Prop where
  | lzss {literal : Bool} {st : BitVec 4} {bs : List Byte} (op : s.cmd.op = 0b00#2) (facts : LzFacts s u literal st bs)
  | rle {l : Nat} {bs : List Byte} (op : s.cmd.op = 0b01#2) (facts : RlFacts s u l bs)

/-- What a turn of the busy engine makes of `s`. -/
inductive Turn (s t : State) : Prop where
  | iterates {u : State} (iterates : Iterates s u) (eq : t = u.loopControl)
  | fails {p : Word} (failed : FailedAt s t p) (wf : Memory.wf s.mem = true → Memory.wf t.mem = true)

theorem engineStep_of_idle {s : State} (hidle : s.status.busy = false) : engineStep s = .next s := by
  simp [engineStep, hidle]

theorem engineStep_of_lzss {s : State} (hbusy : s.status.busy = true) (hop : s.cmd.op = 0b00#2)
    (hscan : s.lz.i.toNat < s.cmd.n.toNat) : engineStep s = lzIteration s := by
  rw [engineStep, if_pos hbusy, if_pos hop, lzEngineStep, if_pos hscan]

theorem engineStep_of_rle {s : State} (hbusy : s.status.busy = true) (hop : s.cmd.op = 0b01#2)
    (hscan : s.rl.i.toNat < s.cmd.n.toNat) : engineStep s = rlIteration s := by
  rw [engineStep, if_pos hbusy, if_neg (by rw [hop]; decide), rlEngineStep, if_pos hscan]

theorem CommandInv.a0_le_a {s : State} (h : CommandInv s) : s.cmd.a0.toNat ≤ s.a.toNat := by
  rw [h.position]
  exact Nat.le_add_right _ _

theorem Turn.of_engineStep {s t : State} (hinv : Inv s) (hbusy : s.status.busy = true) (h : engineStep s = .next t) :
    Turn s t := by
  have hc := hinv.command hbusy
  obtain hop | hop := hc.opLegal
  · have hz := hinv.lzss hbusy hop
    rw [engineStep_of_lzss hbusy hop hz.scanning] at h
    obtain ⟨u, literal, st, bs, hu, facts⟩ | ⟨t', p, ht', failed, -, -, hwf⟩ := lzIteration_cases hc hz hbusy
    · cases hu.symm.trans h
      exact .iterates (.lzss hop facts) (lzLoopControl_eq (facts.within.same.op.trans hop))
    · cases ht'.symm.trans h
      exact .fails failed hwf
  · have hscan := (hinv.rle hbusy hop).scanning
    rw [engineStep_of_rle hbusy hop hscan] at h
    obtain ⟨u, l, bs, hu, facts⟩ | ⟨t', p, ht', failed, -, -, hwf⟩ := rlIteration_cases hbusy hscan hc.a0_le_a
    · cases hu.symm.trans h
      exact .iterates (.rle hop facts) (rlLoopControl_eq (facts.within.same.op.trans hop))
    · cases ht'.symm.trans h
      exact .fails failed hwf

/-! ### What a turn leaves of the command -/

theorem Iterates.within {s u : State} (h : Iterates s u) : Within s u := by
  cases h with
  | lzss _ facts => exact facts.within
  | rle _ facts => exact facts.within

/-- What every turn leaves, whether it goes on, completes or fails: the latched parameters, the platform, the queue, and
every byte outside the command's output range. -/
structure TurnFrame (s t : State) : Prop where
  op : t.cmd.op = s.cmd.op
  n : t.cmd.n = s.cmd.n
  a0 : t.cmd.a0 = s.cmd.a0
  plat : t.plat = s.plat
  inputs : t.inputs = s.inputs
  bytes : bytesKeptBut s t s.heldOutput

theorem Turn.frame {s t : State} (h : Turn s t) : TurnFrame s t := by
  cases h with
  | iterates iterates eq =>
    have same := iterates.within.same
    rw [eq]
    refine ⟨by simp [same.op], by simp [same.n], by simp [same.a0], by simp [same.plat], by simp [same.inputs],
      fun addr haddr => ?_⟩
    rw [← iterates.within.bytes addr haddr]
    exact State.byteAt_congr (by simp) (by simp) addr
  | fails failed _ =>
    exact ⟨failed.op, failed.n, failed.a0, failed.plat, failed.inputs, failed.bytes⟩

/-! ### The invariant -/

/-- What the invariant says of a running command. -/
structure RunningInv (s : State) : Prop where
  command : CommandInv s
  lzss : s.cmd.op = 0b00#2 → LzInv s
  rle : s.cmd.op = 0b01#2 → RlInv s

theorem RunningInv.of_lzss {s : State} (hop : s.cmd.op = 0b00#2) (hc : CommandInv s) (hz : LzInv s) : RunningInv s :=
  ⟨hc, fun _ => hz, fun h => absurd (hop.symm.trans h) (by decide)⟩

theorem RunningInv.of_rle {s : State} (hop : s.cmd.op = 0b01#2) (hc : CommandInv s) (hr : RlInv s) : RunningInv s :=
  ⟨hc, fun h => absurd (hop.symm.trans h) (by decide), fun _ => hr⟩

/-- The invariant of a state with the platform and the instances of another: what is left to show is the memory's form,
`STATUS`, and the command, if one runs. -/
theorem Inv.of_same_platform {s t : State} (h : Inv s) (hplat : t.plat = s.plat) (hothers : t.others = s.others)
    (hwf : Memory.wf s.mem = true → Memory.wf t.mem = true) (hstatus : t.status.Consistent)
    (hrun : t.status.busy = true → RunningInv t) : Inv t where
  platform := by rw [hplat]; exact h.platform
  others := ⟨by rw [hothers, hplat]; exact h.others.exist, by rw [hothers]; exact h.others.apart⟩
  memory := hwf h.memory
  status := hstatus
  command hb := (hrun hb).command
  lzss hb := (hrun hb).lzss
  rle hb := (hrun hb).rle

theorem Status.cleared_running_consistent (st : Status) : st.cleared.running.Consistent :=
  ⟨fun _ => ⟨rfl, rfl, rfl⟩, by simp [Status.cleared, Status.running], by simp [Status.cleared, Status.running]⟩

theorem Status.Consistent.completed {st : Status} (h : st.Consistent) (hbusy : st.busy = true) :
    st.completed.Consistent := by
  obtain ⟨-, herr, hcause⟩ := h.busyAlone hbusy
  exact ⟨by simp [Status.completed], by simp [Status.completed, herr], by simp [Status.completed, herr, hcause]⟩

theorem Inv.of_failed {s t : State} {p : Word} (h : Inv s) (failed : FailedAt s t p)
    (hwf : Memory.wf s.mem = true → Memory.wf t.mem = true) : Inv t := by
  refine h.of_same_platform failed.plat failed.others hwf ?_ fun hb => absurd hb (by simp [failed.idle])
  rw [failed.status]
  exact Status.failed_consistent (by decide)

/-- The invariant after the loop's condition: it speaks of the command only where the loop goes on. -/
theorem Inv.loopControl {s u : State} (h : Inv s) (hplat : u.plat = s.plat) (hothers : u.others = s.others)
    (hwf : Memory.wf s.mem = true → Memory.wf u.mem = true) (hstatus : u.status.Consistent)
    (hbusy : u.status.busy = true) (hrun : u.scanPos < u.cmd.n.toNat → RunningInv u) : Inv u.loopControl := by
  obtain ⟨hmore, eq⟩ | ⟨-, eq⟩ := u.loopControl_cases
  · rw [eq]
    exact h.of_same_platform hplat hothers hwf hstatus fun _ => hrun hmore
  · rw [eq]
    exact h.of_same_platform hplat hothers hwf (hstatus.completed hbusy) fun hb => absurd hb Bool.false_ne_true

theorem CommandInv.of_same {s t : State} (h : CommandInv s) (same : SameCommand s t)
    (hpos : t.a.toNat = t.cmd.a0.toNat + t.cmd.cnt.toNat)
    (hout : t.cmd.cnt.toNat = 0 ∨ t.a.toNat ≤ t.plat.sinkCapacity.toNat) : CommandInv t where
  opLegal := by rw [same.op]; exact h.opLegal
  opStored := by rw [same.op, same.ctrlOp]; exact h.opStored
  nIsLen := by rw [same.n, same.len]; exact h.nIsLen
  nFits := by rw [same.n, same.plat]; exact h.nFits
  apart := by rw [same.heldInput, same.heldOutput]; exact h.apart
  unshared := by simpa [State.sinkRange, same.others, same.plat, same.a0] using h.unshared
  position := hpos
  inOutput := hout
  inputAlone := by
    simpa [State.rangeMeetsInput, State.rangeSpan, State.inputSpan, same.others, same.plat, same.n] using h.inputAlone

/-- `A` and `CNT` move together (41_lzss.md R184, 42_rle.md R228), and do not wrap inside `OUT`. -/
theorem CommandInv.of_appended {s t : State} {k : Nat} (h : CommandInv s) (same : SameCommand s t)
    (ha : t.a.toNat = s.a.toNat + k) (hcnt : t.cmd.cnt = s.cmd.cnt + BitVec.ofNat 32 k)
    (hfits : t.a.toNat ≤ t.plat.sinkCapacity.toNat) : CommandInv t := by
  refine h.of_same same ?_ (.inr hfits)
  have hpos := h.position
  have hcap := t.plat.sinkCapacity.isLt
  rw [hcnt, same.a0, BitVec.toNat_add, BitVec.toNat_ofNat]
  omega

theorem LzFacts.commandInv {s u : State} {literal : Bool} {st : BitVec 4} {bs : List Byte}
    (facts : LzFacts s u literal st bs) (h : CommandInv s) : CommandInv u := by
  refine h.of_appended (k := (if s.lz.tok = 0 then 1 else 0) + bs.length) facts.within.same ?_ ?_ ?_
  · rw [facts.a, Nat.add_assoc]
  · rw [facts.cnt, BitVec.add_assoc, BitVec.ofNat_add]
    split <;> rfl
  · rw [facts.within.same.plat]
    exact facts.fits

theorem RlFacts.commandInv {s u : State} {l : Nat} {bs : List Byte} (facts : RlFacts s u l bs) (h : CommandInv s) :
    CommandInv u :=
  h.of_appended facts.within.same facts.a facts.cnt (by rw [facts.within.same.plat]; exact facts.fits)

/-- The flag bits in hand before the token: those of the open group, or of one just opened (41_lzss.md R172). -/
def State.lzFlagsOpened (s : State) : Byte := if s.lz.tok = 0 then 0 else s.lz.flags

theorem LzInv.flagsOpened_unused {s : State} (hz : LzInv s) {t : Nat} (ht : s.lz.tok.toNat ≤ t) (h7 : t ≤ 7) :
    s.lzFlagsOpened.getLsbD (7 - t) = false := by
  unfold State.lzFlagsOpened
  split
  · simp
  · exact hz.unusedZero ‹_› t ht h7

theorem LzFacts.flags_eq {s u : State} {literal : Bool} {st : BitVec 4} {bs : List Byte}
    (facts : LzFacts s u literal st bs) : u.lz.flags = setFlagBit s.lzFlagsOpened s.lz.tok.toNat literal := facts.flags

/-- The placeholder of the group lies in the stream written so far, and below the bytes of the token. -/
theorem LzFacts.placeholder {s u : State} {literal : Bool} {st : BitVec 4} {bs : List Byte}
    (facts : LzFacts s u literal st bs) (hc : CommandInv s) (hz : LzInv s) :
    s.cmd.a0.toNat ≤ u.lz.p.toNat ∧ u.lz.p.toNat < s.a.toNat + (if s.lz.tok = 0 then 1 else 0) := by
  have ha0 := hc.a0_le_a
  rw [facts.p]
  split
  · omega
  · exact hz.placeholder ‹_›

theorem LzFacts.closesGroup_of_tok_eq_zero {s u : State} {literal : Bool} {st : BitVec 4} {bs : List Byte}
    (facts : LzFacts s u literal st bs) (h : u.lz.tok = 0) : closesGroup s st := by
  by_contra hopen
  have := facts.leftOpen hopen
  simp [h] at this

theorem LzFacts.leftOpen_of_tok_ne_zero {s u : State} {literal : Bool} {st : BitVec 4} {bs : List Byte}
    (facts : LzFacts s u literal st bs) (h : u.lz.tok ≠ 0) :
    u.lz.tok.toNat = s.lz.tok.toNat + 1 ∧ s.lz.tok.toNat ≠ 7 := by
  have hopen : ¬closesGroup s st := fun hclose => h (facts.closed hclose)
  exact ⟨facts.leftOpen hopen, fun h7 => hopen (.inl h7)⟩

theorem LzFacts.lzInv {s u : State} {literal : Bool} {st : BitVec 4} {bs : List Byte}
    (facts : LzFacts s u literal st bs) (hc : CommandInv s) (hz : LzInv s) (hmore : u.lz.i.toNat < u.cmd.n.toNat) :
    LzInv u where
  scanning := hmore
  tokSmall := by
    have htok := hz.tokSmall
    by_cases h : u.lz.tok = 0
    · simp [h]
    · have := facts.leftOpen_of_tok_ne_zero h
      omega
  placeholder _ := by
    have hp := facts.placeholder hc hz
    rw [facts.within.same.a0, facts.a]
    omega
  unusedZero h t ht h7 := by
    have hopen := facts.leftOpen_of_tok_ne_zero h
    rw [facts.flags_eq, setFlagBit_getLsbD _ hz.tokSmall, if_neg (by omega)]
    exact hz.flagsOpened_unused (by omega) h7

theorem Iterates.running {s u : State} (h : Iterates s u) (hinv : Inv s) (hbusy : s.status.busy = true)
    (hmore : u.scanPos < u.cmd.n.toNat) : RunningInv u := by
  have hc := hinv.command hbusy
  cases h with
  | lzss hop facts =>
    have huop : u.cmd.op = 0b00#2 := facts.within.same.op.trans hop
    rw [State.scanPos_of_lzss huop] at hmore
    exact .of_lzss huop (facts.commandInv hc) (facts.lzInv hc (hinv.lzss hbusy hop) hmore)
  | rle hop facts =>
    have huop : u.cmd.op = 0b01#2 := facts.within.same.op.trans hop
    rw [State.scanPos_of_rle huop] at hmore
    exact .of_rle huop (facts.commandInv hc) ⟨hmore⟩

theorem Turn.inv {s t : State} (h : Turn s t) (hinv : Inv s) (hbusy : s.status.busy = true) : Inv t := by
  cases h with
  | iterates iterates eq =>
    have w := iterates.within
    rw [eq]
    exact hinv.loopControl w.same.plat w.same.others w.wf (by rw [w.same.status]; exact hinv.status)
      (by rw [w.same.status]; exact hbusy) (iterates.running hinv hbusy)
  | fails failed wf => exact hinv.of_failed failed wf

/-- An engine turn keeps the invariant (10_state.md R41 to R45, 41_lzss.md R183, 42_rle.md R227). -/
theorem engineStep_inv {s t : State} (hinv : Inv s) (h : engineStep s = .next t) : Inv t := by
  by_cases hbusy : s.status.busy = true
  · exact (Turn.of_engineStep hinv hbusy h).inv hinv hbusy
  · rw [engineStep_of_idle (by simpa using hbusy)] at h
    cases h
    exact hinv

end Sys2Proof.Machine
end

section
/-! Runs of bytes of `IN` and of `OUT` (20_memory.md R71, R72) in a state that has appended more: the stream written so
far, and the finished one. -/

namespace Sys2Proof.Machine

theorem State.inBytes_congr {s t : State} {n : Nat} (h : ∀ k, k < n → t.inByte k = s.inByte k) :
    t.inBytes 0 n = s.inBytes 0 n := by
  rw [State.inBytes_eq_map, State.inBytes_eq_map]
  exact List.map_congr_left fun k hk => h k (List.mem_range.mp hk)

@[simp] theorem State.length_outBytes (s : State) (p n : Nat) : (s.outBytes p n).length = n :=
  State.length_bytesFrom s _ n

theorem State.outBytes_add (s : State) (p m n : Nat) :
    s.outBytes p (m + n) = s.outBytes p m ++ s.outBytes (p + m) n := by
  simp only [State.outBytes, State.bytesFrom_add, Nat.add_assoc]

theorem State.outBytes_eq_of_bytes {s : State} {p : Nat} {bs : List Byte}
    (h : ∀ j (hj : j < bs.length), s.byteAt (s.plat.outBase + p + j) = bs[j]) : s.outBytes p bs.length = bs := by
  refine List.ext_getElem? fun j => ?_
  rw [State.getElem?_outBytes]
  split
  · next hj => rw [List.getElem?_eq_getElem hj, ← h j hj, State.outByte, Nat.add_assoc]
  · next hj => rw [List.getElem?_eq_none (by omega)]

@[simp] theorem State.length_streamSoFar (s : State) : s.streamSoFar.length = s.a.toNat - s.cmd.a0.toNat :=
  State.length_outBytes s _ _

/-- The stream of a state that has appended `bs` last, after `m` bytes of its output. -/
theorem State.streamSoFar_eq_append {u : State} {m : Nat} {bs : List Byte}
    (ha : u.a.toNat = u.cmd.a0.toNat + m + bs.length)
    (hbytes : ∀ j (hj : j < bs.length), u.byteAt (u.plat.outBase + (u.cmd.a0.toNat + m) + j) = bs[j]) :
    u.streamSoFar = u.outBytes u.cmd.a0.toNat m ++ bs := by
  have hlen : u.a.toNat - u.cmd.a0.toNat = m + bs.length := by omega
  rw [State.streamSoFar, hlen, State.outBytes_add, State.outBytes_eq_of_bytes hbytes]

@[simp] theorem State.inBytes_complete (s : State) (n : Nat) : s.complete.inBytes 0 n = s.inBytes 0 n :=
  State.inBytes_congr fun _ _ => State.byteAt_congr rfl rfl _

/-- A completed command's stream is all that it has appended, since `RESULT` counts it (41_lzss.md R184). -/
theorem State.finishedStream_complete {u : State} (hpos : u.a.toNat = u.cmd.a0.toNat + u.cmd.cnt.toNat) :
    u.complete.finishedStream = u.streamSoFar := by
  have hcnt : u.a.toNat - u.cmd.a0.toNat = u.cmd.cnt.toNat := by omega
  rw [State.streamSoFar, hcnt]
  exact State.bytesFrom_congr fun x _ _ => State.byteAt_congr rfl rfl x

end Sys2Proof.Machine
end

section
/-! The LZSS stream decodes to the input read so far (41_lzss.md R189): one iteration patches the open group's flag
byte, or opens a group, and appends the token's bytes, and the decoder reads on from there. -/

namespace Sys2Proof.Machine

/-! ### How the stream grows -/

/-- The stream that an iteration extends by its token: with the group open, and `flags` as its flag byte (41_lzss.md
R172, R182). -/
def State.lzStreamOpened (s : State) (flags : Byte) : List Byte :=
  if s.lz.tok = 0 then s.streamSoFar ++ [flags] else s.streamSoFar.set (s.lz.p.toNat - s.cmd.a0.toNat) flags

section
variable {s u : State} {literal : Bool} {st : BitVec 4} {bs : List Byte}

/-- Where no group is left open the flag byte stands in the stream already, so both readings of it are one. -/
theorem LzFacts.lzStreamSoFar_eq_set (facts : LzFacts s u literal st bs) (hc : CommandInv s) (hz : LzInv s) :
    u.lzStreamSoFar = u.streamSoFar.set (u.lz.p.toNat - u.cmd.a0.toNat) u.lz.flags := by
  unfold State.lzStreamSoFar
  split
  · next htok =>
    have hclosed := facts.closesGroup_of_tok_eq_zero htok
    have hp := facts.placeholder hc hz
    have hbyte : u.outByte u.lz.p.toNat = u.lz.flags := by
      rw [State.outByte, facts.within.same.plat]
      exact facts.patched hclosed
    have hindex : u.cmd.a0.toNat + (u.lz.p.toNat - u.cmd.a0.toNat) = u.lz.p.toNat := by
      rw [facts.within.same.a0]
      omega
    refine List.ext_getElem? fun j => ?_
    rw [List.getElem?_set]
    split
    · next hj =>
      subst hj
      rw [State.streamSoFar, State.getElem?_outBytes, hindex, hbyte]
      simp
    · rfl
  · rfl

theorem LzFacts.streamSoFar_eq (facts : LzFacts s u literal st bs) (hc : CommandInv s) :
    u.streamSoFar = u.outBytes s.cmd.a0.toNat
      (s.a.toNat - s.cmd.a0.toNat + (if s.lz.tok = 0 then 1 else 0)) ++ bs := by
  have ha0 := hc.a0_le_a
  have hsame := facts.within.same
  rw [← hsame.a0]
  refine State.streamSoFar_eq_append ?_ fun j hj => ?_
  · rw [facts.a, hsame.a0]
    omega
  · rw [← facts.bytes j hj, hsame.plat, hsame.a0]
    congr 1
    omega

/-- Before the token: what an iteration leaves of the stream that was there, with the group's flag byte put in. -/
theorem LzFacts.outBytes_set_flags (facts : LzFacts s u literal st bs) (hc : CommandInv s) (hz : LzInv s) :
    (u.outBytes s.cmd.a0.toNat (s.a.toNat - s.cmd.a0.toNat + (if s.lz.tok = 0 then 1 else 0))).set
      (u.lz.p.toNat - s.cmd.a0.toNat) u.lz.flags = s.lzStreamOpened u.lz.flags := by
  have ha0 := hc.a0_le_a
  have hkept : ∀ j, j < s.a.toNat - s.cmd.a0.toNat → (s.lz.tok ≠ 0 → s.cmd.a0.toNat + j ≠ s.lz.p.toNat) →
      u.outByte (s.cmd.a0.toNat + j) = s.outByte (s.cmd.a0.toNat + j) := fun j hj hne => by
    rw [State.outByte, facts.within.same.plat]
    exact facts.kept _ (by omega) hne
  unfold State.lzStreamOpened
  rw [facts.p]
  split
  · next htok =>
    have hold : u.outBytes s.cmd.a0.toNat (s.a.toNat - s.cmd.a0.toNat) = s.streamSoFar := by
      refine List.ext_getElem? fun j => ?_
      rw [State.streamSoFar, State.getElem?_outBytes, State.getElem?_outBytes]
      split
      · next hj => rw [hkept j hj (absurd htok)]
      · rfl
    rw [State.outBytes_add, hold, List.set_append_right _ _ (by simp)]
    simp [State.outBytes, State.bytesFrom]
  · next htok =>
    refine List.ext_getElem? fun j => ?_
    simp only [List.getElem?_set, Nat.add_zero, State.length_outBytes, State.streamSoFar, State.getElem?_outBytes]
    have hp := hz.placeholder htok
    split
    · rfl
    · split
      · next hj' hj => rw [hkept j hj fun _ => by omega]
      · rfl

/-- One iteration extends the opened stream by the token's bytes. -/
theorem LzFacts.lzStreamSoFar_eq (facts : LzFacts s u literal st bs) (hc : CommandInv s) (hz : LzInv s) :
    u.lzStreamSoFar = s.lzStreamOpened u.lz.flags ++ bs := by
  have ha0 := hc.a0_le_a
  have hp := facts.placeholder hc hz
  rw [facts.lzStreamSoFar_eq_set hc hz, facts.streamSoFar_eq hc, facts.within.same.a0,
    List.set_append_left _ _ (by rw [State.length_outBytes]; omega), facts.outBytes_set_flags hc hz]

/-! ### How the decoder follows -/

/-- The decoder read the open group's flag byte at the placeholder, where the engine's accumulator stands. -/
theorem lzReplay_flag_of_open {r : LzReplay} (hz : LzInv s) (htok : s.lz.tok ≠ 0)
    (hr : lzReplay s.lzStreamSoFar = some r) (hrtok : r.tok = s.lz.tok.toNat)
    (hat : r.flagAt = s.lz.p.toNat - s.cmd.a0.toNat) : r.flag = s.lz.flags := by
  have hp := hz.placeholder htok
  have htok7 := hz.tokSmall
  rw [lzReplay, State.lzStreamSoFar, if_neg htok] at hr
  obtain ⟨-, -, hge⟩ | ⟨-, -, hbyte⟩ := lzReplayFrom_flag hr
  · have : 8 ≤ r.tok := hge
    omega
  · have hin : s.lz.p.toNat - s.cmd.a0.toNat < s.streamSoFar.length := by
      rw [State.length_streamSoFar]
      omega
    rw [hat, Nat.sub_zero, List.getElem?_set_self hin] at hbyte
    exact (Option.some.inj hbyte).symm

/-- Before the token: the decoder stands in the group, with the flag byte that the iteration leaves. -/
theorem LzDecodesSoFar.opened (hdec : LzDecodesSoFar s) (hz : LzInv s) (facts : LzFacts s u literal st bs) :
    lzReplay (s.lzStreamOpened u.lz.flags) =
      some { out := s.inBytes 0 s.lz.i.toNat, flag := u.lz.flags, flagAt := u.lz.p.toNat - s.cmd.a0.toNat,
             tok := s.lz.tok.toNat } := by
  obtain ⟨r, hr, hout, hstands⟩ := hdec
  unfold State.lzStreamOpened
  rw [facts.p]
  by_cases htok : s.lz.tok = 0
  · rw [if_pos htok] at hstands
    rw [State.lzStreamSoFar, if_pos htok] at hr
    rw [if_pos htok, if_pos htok, lzReplay, lzReplayFrom_append [u.lz.flags] hr,
      lzReplayFrom_flagByte (by rw [hstands]), lzReplayFrom, hout, htok, State.length_streamSoFar, Nat.zero_add]
    rfl
  · rw [if_neg htok] at hstands
    obtain ⟨hrtok, hat⟩ := hstands
    have hflag := lzReplay_flag_of_open hz htok hr hrtok hat
    have hp := hz.placeholder htok
    have htok7 := hz.tokSmall
    have hagree : agreeBits u.lz.flags r.flag r.tok := fun j hj h7 => by
      rw [facts.flags_eq, State.lzFlagsOpened, if_neg htok, setFlagBit_getLsbD _ htok7, hflag,
        if_neg (by omega)]
    rw [State.lzStreamSoFar, if_neg htok] at hr
    have hpatched := lzReplayFrom_patched hr (Nat.zero_le _) (.inr ⟨Nat.le_refl _, Nat.le_refl _⟩)
      (by rw [List.length_set, State.length_streamSoFar, hat]; omega) hagree
    rw [hat, Nat.sub_zero, List.set_set] at hpatched
    rw [if_neg htok, if_neg htok, lzReplay, hpatched, ← hout, ← hat, ← hrtok]

/-- The decoder reads the token of the scan position and puts out the input bytes it stands for (41_lzss.md R186). -/
theorem TokenOf.replay (token : TokenOf s literal st bs) {k : Nat} {r : LzReplay} (htok : r.tok ≤ 7)
    (hbit : r.flag.getLsbD (7 - r.tok) = literal) (hout : r.out = s.inBytes 0 s.lz.i.toNat) :
    lzReplayFrom k r bs =
      some { r with out := s.inBytes 0 (s.lz.i.toNat + st.toNat), tok := r.tok + 1 } := by
  have h8 : ¬8 ≤ r.tok := by omega
  cases literal with
  | true =>
    obtain ⟨rfl, rfl⟩ := token.ofLiteral rfl
    have hstep : s.inBytes 0 (s.lz.i.toNat + 1) = s.inBytes 0 s.lz.i.toNat ++ [s.inByte s.lz.i.toNat] := by
      simp [State.inBytes_eq_map, List.range_succ]
    rw [lzReplayFrom_literal h8 hbit, lzReplayFrom, hout, ← hstep]
    rfl
  | false =>
    obtain ⟨dist, rfl, hd1, hdi, hcopy⟩ := (token.ofMatch rfl).2
    obtain ⟨hdist, hlen⟩ := matchBytes_read dist st
    have hcopied := copyMatch_input hd1 hdi st.toNat hcopy
    rw [← State.inBytes_eq_map, ← State.inBytes_eq_map, ← hout] at hcopied
    rw [lzReplayFrom_match h8 (by rw [hbit]; decide) (by rw [hdist, hlen]; exact hcopied), lzReplayFrom]

/-- After an iteration the decoder has put out the input read, and stands at the group's next token. -/
theorem LzDecodesSoFar.iterated (hdec : LzDecodesSoFar s) (hc : CommandInv s) (hz : LzInv s)
    (facts : LzFacts s u literal st bs) :
    lzReplay u.lzStreamSoFar =
      some { out := u.inBytes 0 u.lz.i.toNat, flag := u.lz.flags, flagAt := u.lz.p.toNat - u.cmd.a0.toNat,
             tok := s.lz.tok.toNat + 1 } := by
  have hbit : u.lz.flags.getLsbD (7 - s.lz.tok.toNat) = literal := by
    rw [facts.flags_eq, setFlagBit_getLsbD _ hz.tokSmall, if_pos rfl]
  have hinput : u.inBytes 0 (s.lz.i.toNat + st.toNat) = s.inBytes 0 (s.lz.i.toNat + st.toNat) :=
    State.inBytes_congr fun k hk =>
      hc.inByte_kept facts.within.bytes facts.within.same.plat (hk.trans_le facts.token.inside)
  rw [facts.lzStreamSoFar_eq hc hz, lzReplay, lzReplayFrom_append bs (hdec.opened hz facts),
    facts.token.replay hz.tokSmall hbit rfl, facts.i, hinput, facts.within.same.a0]

theorem LzDecodesSoFar.goesOn (hdec : LzDecodesSoFar s) (hc : CommandInv s) (hz : LzInv s)
    (facts : LzFacts s u literal st bs) (hmore : u.lz.i.toNat < u.cmd.n.toNat) : LzDecodesSoFar u := by
  refine ⟨_, hdec.iterated hc hz facts, rfl, ?_⟩
  split
  · next htok =>
    -- with input left, a group is closed by its eighth token only
    rw [facts.i, facts.within.same.n] at hmore
    have h7 := (facts.closesGroup_of_tok_eq_zero htok).resolve_right (by omega)
    simp [h7]
  · next htok => exact ⟨(facts.leftOpen_of_tok_ne_zero htok).1.symm, rfl⟩

/-- A stream that is read whole, to the end of the input, decodes so with the input's length given (41_lzss.md R188). -/
theorem lzDecode_finishedStream_complete {r : LzReplay}
    (hpos : u.a.toNat = u.cmd.a0.toNat + u.cmd.cnt.toNat) (hr : lzReplay u.streamSoFar = some r)
    (hout : r.out = u.inBytes 0 u.cmd.n.toNat) :
    lzDecode u.cmd.n.toNat u.complete.finishedStream = some (u.inBytes 0 u.cmd.n.toNat) := by
  rw [State.finishedStream_complete hpos, lzDecode, ← hout]
  exact lzDecodeWith_of_replay hr (by simp [hout, State.inBytes]) (Nat.le_refl _)

theorem LzDecodesSoFar.completes (hdec : LzDecodesSoFar s) (hc : CommandInv s) (hz : LzInv s)
    (facts : LzFacts s u literal st bs) (hlast : u.cmd.n.toNat ≤ u.lz.i.toNat) :
    lzDecode u.cmd.n.toNat u.complete.finishedStream = some (u.inBytes 0 u.cmd.n.toNat) := by
  have hend : u.lz.i.toNat = u.cmd.n.toNat := by
    have := facts.token.inside
    rw [facts.i, facts.within.same.n] at hlast ⊢
    omega
  have hclosed : closesGroup s st := by
    right
    rw [facts.i, facts.within.same.n] at hlast
    exact hlast
  have hr := hdec.iterated hc hz facts
  rw [State.lzStreamSoFar, if_pos (facts.closed hclosed)] at hr
  exact lzDecode_finishedStream_complete (facts.commandInv hc).position hr (by rw [hend])

end

end Sys2Proof.Machine
end

section
/-! The RLE stream decodes to the input read so far (42_rle.md R231): the decoder reads each packet as the input bytes
that it covers. -/

namespace Sys2Proof.Machine

theorem rleDecode_append {bs cs out1 out2 : List Byte} (h1 : rleDecode bs = some out1) (h2 : rleDecode cs = some out2) :
    rleDecode (bs ++ cs) = some (out1 ++ out2) := by
  rw [rleDecode, List.length_append]
  exact rleDecodeWith_append h1 h2

/-- 42_rle.md R230: a run packet is its value, as often as its control byte says. -/
theorem rleDecode_run (r : BitVec 7) (v : Byte) : rleDecode [runControl r, v] = some (List.replicate r.toNat v) := by
  obtain ⟨hkind, hcount⟩ := runControl_read r
  simp [rleDecode, rleDecodeWith_cons, hkind, hcount]

/-- 42_rle.md R230: a literal packet is its bytes. -/
theorem rleDecode_lit {l : BitVec 7} {bs : List Byte} (hlen : l.toNat = bs.length) :
    rleDecode (literalControl l :: bs) = some bs := by
  obtain ⟨hkind, hcount⟩ := literalControl_read l
  rw [rleDecode, List.length_cons, rleDecodeWith_cons, hkind, hcount, hlen]
  simp

theorem State.inBytes_eq_replicate {s : State} {n i l : Nat} (h : runOf s.inByte n i l) :
    s.inBytes i l = List.replicate l (s.inByte i) := by
  refine List.eq_replicate_iff.mpr ⟨State.length_bytesFrom s _ l, fun b hb => ?_⟩
  rw [State.inBytes, State.bytesFrom_eq_map] at hb
  obtain ⟨k, hk, rfl⟩ := List.mem_map.mp hb
  rw [← h.2 k (List.mem_range.mp hk), State.inByte, Nat.add_assoc]

theorem State.inBytes_add (s : State) (m n : Nat) : s.inBytes 0 (m + n) = s.inBytes 0 m ++ s.inBytes m n := by
  simp only [State.inBytes, State.bytesFrom_add, Nat.add_zero]

theorem PacketOf.decode {s : State} {l : Nat} {bs : List Byte} (h : PacketOf s l bs) (hcap : l ≤ 127) :
    rleDecode bs = some (s.inBytes s.rl.i.toNat l) := by
  have hl : (BitVec.ofNat 7 l).toNat = l := by
    rw [BitVec.toNat_ofNat]
    omega
  cases h with
  | run _ run eq => rw [eq, rleDecode_run, hl, State.inBytes_eq_replicate run]
  | lit _ eq _ => rw [eq, rleDecode_lit (by rw [hl, State.inBytes, State.length_bytesFrom])]

section
variable {s u : State} {l : Nat} {bs : List Byte}

/-- One iteration appends its packet to the stream. -/
theorem RlFacts.streamSoFar_eq (facts : RlFacts s u l bs) (hc : CommandInv s) :
    u.streamSoFar = s.streamSoFar ++ bs := by
  have ha0 := hc.a0_le_a
  have hsame := facts.within.same
  have hold : u.outBytes s.cmd.a0.toNat (s.a.toNat - s.cmd.a0.toNat) = s.streamSoFar := by
    rw [State.streamSoFar, State.outBytes, hsame.plat]
    exact State.bytesFrom_congr fun x _ hx => facts.kept x (.inl (by omega))
  rw [← hold, ← hsame.a0]
  refine State.streamSoFar_eq_append ?_ fun j hj => ?_
  · rw [facts.a, hsame.a0]
    omega
  · rw [← facts.bytes j hj, hsame.plat, hsame.a0]
    congr 1
    omega

theorem RlDecodesSoFar.iterated (hdec : RlDecodesSoFar s) (hc : CommandInv s) (facts : RlFacts s u l bs) :
    RlDecodesSoFar u := by
  have hinput : u.inBytes 0 (s.rl.i.toNat + l) = s.inBytes 0 (s.rl.i.toNat + l) :=
    State.inBytes_congr fun k hk => hc.inByte_kept facts.within.bytes facts.within.same.plat (hk.trans_le facts.inside)
  rw [RlDecodesSoFar, facts.streamSoFar_eq hc, facts.i, hinput, State.inBytes_add]
  exact rleDecode_append hdec (facts.packet.decode facts.cap)

theorem rleDecode_finishedStream_complete (hpos : u.a.toNat = u.cmd.a0.toNat + u.cmd.cnt.toNat)
    (hdec : RlDecodesSoFar u) (hend : u.rl.i.toNat = u.cmd.n.toNat) :
    rleDecode u.complete.finishedStream = some (u.inBytes 0 u.cmd.n.toNat) := by
  rw [State.finishedStream_complete hpos, ← hend]
  exact hdec

theorem RlDecodesSoFar.completes (hdec : RlDecodesSoFar s) (hc : CommandInv s) (facts : RlFacts s u l bs)
    (hlast : u.cmd.n.toNat ≤ u.rl.i.toNat) :
    rleDecode u.complete.finishedStream = some (u.inBytes 0 u.cmd.n.toNat) := by
  have hend : u.rl.i.toNat = u.cmd.n.toNat := by
    have := facts.inside
    rw [facts.i, facts.within.same.n] at hlast ⊢
    omega
  exact rleDecode_finishedStream_complete (facts.commandInv hc).position (hdec.iterated hc facts) hend

end

end Sys2Proof.Machine
end

section
/-! One turn of either engine, as the reference decoders see it (41_lzss.md R189, 42_rle.md R231). -/

namespace Sys2Proof.Machine

/-- The reference decoder of a codec (41_lzss.md R188, 42_rle.md R230). -/
def referenceDecode (op : BitVec 2) (n : Nat) (bs : List Byte) : Option (List Byte) :=
  if op = 0b00#2 then lzDecode n bs else rleDecode bs

/-- The stream of the running codec decodes to the input read so far. -/
structure DecodesSoFar (s : State) : Prop where
  lzss : s.cmd.op = 0b00#2 → LzDecodesSoFar s
  rle : s.cmd.op = 0b01#2 → RlDecodesSoFar s

theorem DecodesSoFar.of_lzss {s : State} (hop : s.cmd.op = 0b00#2) (h : LzDecodesSoFar s) : DecodesSoFar s :=
  ⟨fun _ => h, fun hop' => absurd (hop.symm.trans hop') (by decide)⟩

theorem DecodesSoFar.of_rle {s : State} (hop : s.cmd.op = 0b01#2) (h : RlDecodesSoFar s) : DecodesSoFar s :=
  ⟨fun hop' => absurd (hop.symm.trans hop') (by decide), fun _ => h⟩

/-- The finished stream decodes to the whole input. -/
def FinishedDecodes (s : State) : Prop :=
  referenceDecode s.cmd.op s.cmd.n.toNat s.finishedStream = some (s.inBytes 0 s.cmd.n.toNat)

theorem FinishedDecodes.of_lzss {u : State} (hop : u.cmd.op = 0b00#2)
    (h : lzDecode u.cmd.n.toNat u.complete.finishedStream = some (u.inBytes 0 u.cmd.n.toNat)) :
    FinishedDecodes u.complete := by
  rw [FinishedDecodes, State.inBytes_complete, referenceDecode, if_pos (by simpa using hop)]
  exact h

theorem FinishedDecodes.of_rle {u : State} (hop : u.cmd.op = 0b01#2)
    (h : rleDecode u.complete.finishedStream = some (u.inBytes 0 u.cmd.n.toNat)) : FinishedDecodes u.complete := by
  rw [FinishedDecodes, State.inBytes_complete, referenceDecode, if_neg (by simp [hop])]
  exact h

/-- What a run keeps, and what it ends in. -/
structure RoundTrips (s : State) : Prop where
  busy : s.status.busy = true → DecodesSoFar s
  done : s.status.done = true → FinishedDecodes s

theorem RoundTrips.loopControl {u : State} (hrunning : u.status.done ≠ true)
    (hmore : u.scanPos < u.cmd.n.toNat → DecodesSoFar u)
    (hlast : u.cmd.n.toNat ≤ u.scanPos → FinishedDecodes u.complete) : RoundTrips u.loopControl := by
  obtain ⟨hlt, eq⟩ | ⟨hge, eq⟩ := u.loopControl_cases
  · rw [eq]
    exact ⟨fun _ => hmore hlt, fun hdone => absurd hdone hrunning⟩
  · rw [eq]
    exact ⟨fun hbusy => absurd hbusy Bool.false_ne_true, fun _ => hlast hge⟩

theorem Iterates.decodesSoFar {s u : State} (h : Iterates s u) (hinv : Inv s) (hbusy : s.status.busy = true)
    (hdec : DecodesSoFar s) (hmore : u.scanPos < u.cmd.n.toNat) : DecodesSoFar u := by
  have hc := hinv.command hbusy
  cases h with
  | lzss hop facts =>
    have huop : u.cmd.op = 0b00#2 := facts.within.same.op.trans hop
    rw [State.scanPos_of_lzss huop] at hmore
    exact .of_lzss huop ((hdec.lzss hop).goesOn hc (hinv.lzss hbusy hop) facts hmore)
  | rle hop facts =>
    exact .of_rle (facts.within.same.op.trans hop) ((hdec.rle hop).iterated hc facts)

theorem Iterates.finishedDecodes {s u : State} (h : Iterates s u) (hinv : Inv s) (hbusy : s.status.busy = true)
    (hdec : DecodesSoFar s) (hlast : u.cmd.n.toNat ≤ u.scanPos) : FinishedDecodes u.complete := by
  have hc := hinv.command hbusy
  cases h with
  | lzss hop facts =>
    have huop : u.cmd.op = 0b00#2 := facts.within.same.op.trans hop
    rw [State.scanPos_of_lzss huop] at hlast
    exact .of_lzss huop ((hdec.lzss hop).completes hc (hinv.lzss hbusy hop) facts hlast)
  | rle hop facts =>
    have huop : u.cmd.op = 0b01#2 := facts.within.same.op.trans hop
    rw [State.scanPos_of_rle huop] at hlast
    exact .of_rle huop ((hdec.rle hop).completes hc facts hlast)

theorem Status.Consistent.not_done {st : Status} (h : st.Consistent) (hbusy : st.busy = true) : st.done ≠ true := by
  simp [(h.busyAlone hbusy).1]

theorem Turn.roundTrips {s t : State} (h : Turn s t) (hinv : Inv s) (hbusy : s.status.busy = true)
    (hdec : DecodesSoFar s) : RoundTrips t := by
  cases h with
  | iterates iterates eq =>
    rw [eq]
    exact .loopControl (by rw [iterates.within.same.status]; exact hinv.status.not_done hbusy)
      (iterates.decodesSoFar hinv hbusy hdec) (iterates.finishedDecodes hinv hbusy hdec)
  | fails failed _ => constructor <;> simp [failed.status, Status.failed]

end Sys2Proof.Machine
end

section
/-! A whole run (40_commands.md R140 to R146): the start that an idle block accepts, and any number of engine steps
after it with nothing queued. -/

namespace Sys2Proof.Machine

/-! ### The start -/

/-- The state in which an accepted start enters its codec (40_commands.md R140). -/
def State.started (s : State) (op : BitVec 2) : State := (s.storeOp op).clearStatus.latchCommand op

/-- A start that answers at all is the length error, or enters its codec past the three tests of a launch. -/
theorem startEncoder_next {op : BitVec 2} {enter : State → State} {s u : State}
    (h : startEncoder op enter s = .next u) :
    u = raiseError .lengthError (s.storeOp op).clearStatus ∨
      (u = enter (s.started op) ∧ s.len.toNat ≤ s.plat.inSize.toNat ∧ s.launchRefusal = none) := by
  obtain ⟨he, -⟩ | ⟨he, -, -⟩ | ⟨r, he, -, -⟩ | ⟨he, -, hlen, hlaunch⟩ := startEncoder_cases op enter s
  · rw [he] at h
    cases h
  · rw [he] at h
    cases h
    exact .inl rfl
  · rw [he] at h
    cases h
  · rw [he] at h
    cases h
    exact .inr ⟨rfl, hlen, hlaunch⟩

theorem launchRefusal_none {s : State} (h : s.launchRefusal = none) :
    (s.inputSpan s.len.toNat).overlaps (s.outputSpan s.a.toNat) = false ∧
    (s.others.any fun o => s.rangeMeetsInput o.range s.len.toNat) = false ∧
    (s.others.any fun o => o.range.overlaps (s.sinkRange s.a.toNat)) = false := by
  unfold State.launchRefusal at h
  split_ifs at h with happart hstable hunshared
  exact ⟨Bool.eq_false_iff.mpr happart, Bool.eq_false_iff.mpr hstable, Bool.eq_false_iff.mpr hunshared⟩

theorem CommandInv.of_started {s : State} {op : BitVec 2} (hop : op = 0b00#2 ∨ op = 0b01#2)
    (hlen : s.len.toNat ≤ s.plat.inSize.toNat) (hlaunch : s.launchRefusal = none) : CommandInv (s.started op) := by
  obtain ⟨happart, hstable, hunshared⟩ := launchRefusal_none hlaunch
  exact ⟨hop, rfl, rfl, hlen, happart, hunshared, rfl, .inl rfl, hstable⟩

theorem State.streamSoFar_eq_nil {s : State} (h : s.a = s.cmd.a0) : s.streamSoFar = [] := by
  simp [State.streamSoFar, h, State.outBytes, State.bytesFrom]

/-! ### The run -/

/-- `t` is a state of the run of the command `op` that was started in `s`: the same command over the same input, nothing
but the engine moving, and the stream decoding to the input read. -/
structure RunFrom (s : State) (op : BitVec 2) (t : State) : Prop where
  inv : Inv t
  op : t.cmd.op = op
  n : t.cmd.n = s.len
  a0 : t.cmd.a0 = s.a
  inputs : t.inputs = []
  input : ∀ k, k < s.len.toNat → t.inByte k = s.inByte k
  trips : RoundTrips t

theorem RunFrom.turn {s v w : State} {op : BitVec 2} (h : RunFrom s op v) (hbusy : v.status.busy = true)
    (hstep : engineStep v = .next w) : RunFrom s op w := by
  have turn := Turn.of_engineStep h.inv hbusy hstep
  have frame := turn.frame
  refine ⟨turn.inv h.inv hbusy, frame.op.trans h.op, frame.n.trans h.n, frame.a0.trans h.a0,
    frame.inputs.trans h.inputs, fun k hk => ?_, turn.roundTrips h.inv hbusy (h.trips.busy hbusy)⟩
  rw [(h.inv.command hbusy).inByte_kept frame.bytes frame.plat (by rw [h.n]; exact hk), h.input k hk]

theorem step_of_no_inputs {s : State} (h : s.inputs = []) : step s = engineStep s := by
  rw [step, h]

theorem RunFrom.step {s v w : State} {op : BitVec 2} (h : RunFrom s op v) (hstep : step v = .next w) :
    RunFrom s op w := by
  rw [step_of_no_inputs h.inputs] at hstep
  by_cases hbusy : v.status.busy = true
  · exact h.turn hbusy hstep
  · rw [engineStep_of_idle (by simpa using hbusy)] at hstep
    cases hstep
    exact h

theorem run_succ_next {M : Host.Core} {k : Nat} {u t : M.State} (h : M.run (k + 1) u = .next t) :
    ∃ v, M.step u = .next v ∧ M.run k v = .next t := by
  rw [Host.Core.run] at h
  cases hs : M.step u with
  | next v =>
    rw [hs] at h
    exact ⟨v, rfl, h⟩
  | fault r =>
    rw [hs] at h
    cases h
  | refused r =>
    rw [hs] at h
    cases h

/-- What every step keeps holds after any number of steps. -/
theorem run_keeps {P : State → Prop} (hstep : ∀ v w, P v → step v = .next w → P w) {k : Nat} {u t : State} (hu : P u)
    (h : Host.Core.run Sys2Proof.core k u = .next t) : P t := by
  induction k generalizing u with
  | zero =>
    cases h
    exact hu
  | succ k ih =>
    obtain ⟨v, hv, hrun⟩ := run_succ_next h
    exact ih (hstep u v hu hv) hrun

/-- A block that is idle with nothing queued stays as it is (60_exceptions.md R297). -/
theorem run_of_idle {u t : State} {k : Nat} (hidle : u.status.busy = false) (hinputs : u.inputs = [])
    (h : Host.Core.run Sys2Proof.core k u = .next t) : t = u := by
  refine run_keeps (P := fun v => v = u) (fun v w hv hvw => ?_) rfl h
  subst hv
  rw [step_of_no_inputs hinputs, engineStep_of_idle hidle] at hvw
  cases hvw
  rfl

/-- A completed state of the run holds a stream that decodes to the input the command was started on. -/
theorem RunFrom.finished {s t : State} {op : BitVec 2} (h : RunFrom s op t) (hdone : t.status.done = true) :
    referenceDecode op s.len.toNat (t.outBytes s.a.toNat t.result.toNat) = some (s.inBytes 0 s.len.toNat) := by
  have hdecodes := h.trips.done hdone
  rwa [FinishedDecodes, State.finishedStream, h.op, h.n, h.a0, State.inBytes_congr h.input] at hdecodes

/-- A start that raises the length error leaves the block idle, and no run of it completes. -/
theorem run_of_lengthError_not_done {s t : State} {op : BitVec 2} {k : Nat} (hinputs : s.inputs = [])
    (h : Host.Core.run Sys2Proof.core k (raiseError .lengthError (s.storeOp op).clearStatus) = .next t) :
    t.status.done ≠ true := by
  have ht := run_of_idle (u := raiseError .lengthError (s.storeOp op).clearStatus) rfl hinputs h
  simp [ht, Status.failed]

/-! ### The entry of each codec -/

/-- A codec's INIT, which leaves the latch and the bytes alone, begins a run; with `N = 0` the command completes at once
(40_commands.md R148). -/
theorem RunFrom.of_init {s v : State} {op : BitVec 2} (hinv : Inv s) (hinputs : s.inputs = [])
    (same : SameCommand (s.started op) v) (hmem : v.mem = s.mem) (hrun : v.scanPos < v.cmd.n.toNat → RunningInv v)
    (hdec : DecodesSoFar v) (hlast : v.cmd.n.toNat ≤ v.scanPos → FinishedDecodes v.complete) :
    RunFrom s op v.loopControl := by
  have hstatus : v.status = s.status.cleared.running := same.status
  have hconsistent : v.status.Consistent := hstatus ▸ Status.cleared_running_consistent s.status
  have hbusy : v.status.busy = true := by rw [hstatus]; rfl
  refine ⟨hinv.loopControl same.plat same.others (fun hwf => by rw [hmem]; exact hwf) hconsistent hbusy hrun,
    ?_, ?_, ?_, ?_, fun k _ => ?_, .loopControl (hconsistent.not_done hbusy) (fun _ => hdec) hlast⟩
  · rw [State.loopControl_cmd]
    exact same.op
  · rw [State.loopControl_cmd]
    exact same.n
  · rw [State.loopControl_cmd]
    exact same.a0
  · rw [State.loopControl_inputs, same.inputs]
    exact hinputs
  · rw [State.inByte, State.loopControl_plat, same.plat]
    exact State.byteAt_congr (by rw [State.loopControl_mem, hmem]) (by rw [State.loopControl_lost, same.lost]; rfl) _

theorem SameCommand.lzInit (s : State) : SameCommand s (lzInit s) := by
  constructor <;> simp

theorem SameCommand.rlInit (s : State) : SameCommand s (rlInit s) := by
  constructor <;> simp

theorem LzDecodesSoFar.of_started (s : State) : LzDecodesSoFar (lzInit (s.started 0b00#2)) := by
  refine ⟨{ out := [], flag := 0, flagAt := 0, tok := 8 }, ?_, rfl, rfl⟩
  rw [State.lzStreamSoFar, if_pos (by rfl), State.streamSoFar_eq_nil rfl]
  rfl

theorem RlDecodesSoFar.of_started (s : State) : RlDecodesSoFar (rlInit (s.started 0b01#2)) := by
  rw [RlDecodesSoFar, State.streamSoFar_eq_nil rfl]
  rfl

theorem LzInv.of_started {s : State} (hpos : 0 < s.len.toNat) : LzInv (lzInit (s.started 0b00#2)) :=
  ⟨hpos, by simp, fun h => absurd rfl h, fun h => absurd rfl h⟩

theorem RlInv.of_started {s : State} (hpos : 0 < s.len.toNat) : RlInv (rlInit (s.started 0b01#2)) := ⟨hpos⟩

section
variable {s : State} (hinv : Inv s) (hinputs : s.inputs = []) (hlen : s.len.toNat ≤ s.plat.inSize.toNat)
  (hlaunch : s.launchRefusal = none)
include hinv hinputs hlen hlaunch

theorem RunFrom.of_lzEnter : RunFrom s 0b00#2 (lzEnter (s.started 0b00#2)) := by
  have hop : (lzInit (s.started 0b00#2)).cmd.op = 0b00#2 := rfl
  have hscan : (lzInit (s.started 0b00#2)).scanPos = 0 := State.scanPos_of_lzss hop
  have hc : CommandInv (lzInit (s.started 0b00#2)) :=
    (CommandInv.of_started (.inl rfl) hlen hlaunch).of_same (SameCommand.lzInit _) rfl (.inl rfl)
  have hdec := LzDecodesSoFar.of_started s
  rw [lzEnter, lzLoopControl_eq hop]
  refine .of_init hinv hinputs (SameCommand.lzInit _) rfl
    (fun hpos => .of_lzss hop hc (.of_started (hscan ▸ hpos))) (.of_lzss hop hdec) fun hzero => .of_lzss hop ?_
  obtain ⟨r, hr, hout, -⟩ := hdec
  rw [hscan, Nat.le_zero] at hzero
  exact lzDecode_finishedStream_complete hc.position hr (by rw [hout, hzero]; rfl)

theorem RunFrom.of_rlEnter : RunFrom s 0b01#2 (rlEnter (s.started 0b01#2)) := by
  have hop : (rlInit (s.started 0b01#2)).cmd.op = 0b01#2 := rfl
  have hscan : (rlInit (s.started 0b01#2)).scanPos = 0 := State.scanPos_of_rle hop
  have hc : CommandInv (rlInit (s.started 0b01#2)) :=
    (CommandInv.of_started (.inr rfl) hlen hlaunch).of_same (SameCommand.rlInit _) rfl (.inl rfl)
  have hdec := RlDecodesSoFar.of_started s
  rw [rlEnter, rlLoopControl_eq hop]
  refine .of_init hinv hinputs (SameCommand.rlInit _) rfl
    (fun hpos => .of_rle hop hc (.of_started (hscan ▸ hpos))) (.of_rle hop hdec) fun hzero => .of_rle hop ?_
  rw [hscan, Nat.le_zero] at hzero
  exact rleDecode_finishedStream_complete hc.position hdec hzero.symm

end

/-- Settles O48: an accepted start begins a run in which each turn keeps what the decoder makes of the stream so far,
and the last one leaves the whole input decoded. -/
theorem completedRunRoundTrips : Obligations.CompletedRunRoundTrips := by
  intro s u t k hinv hinputs _
  refine ⟨fun hstart hrun hdone => ?lzss, fun hstart hrun hdone => ?rle⟩
  case lzss =>
    obtain rfl | ⟨rfl, hlen, hlaunch⟩ := startEncoder_next (op := 0b00#2) (enter := lzEnter) hstart
    · exact absurd hdone (run_of_lengthError_not_done hinputs hrun)
    · exact (run_keeps (fun _ _ => RunFrom.step) (.of_lzEnter hinv hinputs hlen hlaunch) hrun).finished hdone
  case rle =>
    obtain rfl | ⟨rfl, hlen, hlaunch⟩ := startEncoder_next (op := 0b01#2) (enter := rlEnter) hstart
    · exact absurd hdone (run_of_lengthError_not_done hinputs hrun)
    · exact (run_keeps (fun _ _ => RunFrom.step) (.of_rlEnter hinv hinputs hlen hlaunch) hrun).finished hdone

end Sys2Proof.Machine
end

section
/-! A single append to the sink (43_sink.md R261): when it is accepted, and what the accepted one leaves. -/

namespace Sys2Proof.Machine

/-- The converse of `sinkAppend_accepted`: an append goes on only below the capacity and with the platform's consent. -/
theorem acceptsAppend_of_sinkAppend_going {v : Byte} {s t : State} (h : sinkAppend v s = .going t) :
    s.acceptsAppend := by
  unfold sinkAppend at h
  split at h
  · cases h
  · next hcap =>
    split at h
    · cases h
    · next hrefuse => exact ⟨Nat.lt_of_not_le hcap, Bool.eq_false_of_not_eq_true hrefuse⟩

/-- An append that is not accepted fails at `A`, where the pointer stays. -/
theorem sinkAppend_not_accepted {s : State} (v : Byte) (h : ¬ s.acceptsAppend) :
    ∃ t, sinkAppend v s = .ended t ∧ FailedAt s t s.a ∧ t.a = s.a := by
  obtain ⟨hgo, -⟩ | ⟨t, hend, hfail, hta, -⟩ := sinkAppend_cases v s
  · exact absurd (acceptsAppend_of_sinkAppend_going hgo) h
  · exact ⟨t, hend, hfail, hta⟩

/-- Below the capacity, itself a word, the advance of `A` does not wrap. -/
theorem State.appendOne_a_toNat {s : State} (v : Byte) (h : s.a.toNat < s.plat.sinkCapacity.toNat) :
    (s.appendOne v).a.toNat = s.a.toNat + 1 := by
  have hlt : s.a.toNat + (1#32).toNat < 2 ^ 32 := Nat.lt_of_le_of_lt h s.plat.sinkCapacity.isLt
  exact BitVec.toNat_add_of_lt hlt

theorem State.outByte_appendOne (s : State) (v : Byte) : (s.appendOne v).outByte s.a.toNat = v := by
  rw [State.outByte, State.byteAt_appendOne, State.appendOne_plat, if_pos rfl]

theorem bytesKeptOutside.appendOne (s : State) (v : Byte) :
    bytesKeptOutside s (s.appendOne v) s.a.toNat 1 := by
  intro addr haddr
  rw [State.byteAt_appendOne, if_neg (by omega)]

/-- Settles O16: whether the platform accepts the append decides between the failure at `A` and the state with one byte
more. -/
theorem appendWritesAtTheEnd : Obligations.AppendWritesAtTheEnd := by
  intro v s
  constructor
  · intro hrefused
    have hnot : ¬ s.acceptsAppend := fun ⟨hlt, haccept⟩ =>
      hrefused.elim (Nat.not_le_of_lt hlt) fun hrefuse => Bool.false_ne_true (haccept.symm.trans hrefuse)
    exact sinkAppend_not_accepted v hnot
  · intro hlt haccept
    exact ⟨s.appendOne v, sinkAppend_accepted v ⟨hlt, haccept⟩, State.appendOne_a_toNat v hlt,
      State.outByte_appendOne s v, .appendOne s v, .appendOne s v, State.appendOne_cmd s v,
      State.appendOne_lz s v, State.appendOne_rl s v⟩

end Sys2Proof.Machine
end

section
/-! A start with `LEN` beyond `IN_SIZE` (60_exceptions.md R283): it ends in error before either codec is entered. -/

namespace Sys2Proof.Machine

/-- 60_exceptions.md R288: error entry overwrites the `STATUS` that the start cleared, and nothing is latched yet, so only
`OP` and `STATUS` change. The error comes before every test of the platform's ranges (40_commands.md R141). -/
theorem startEncoder_of_len_gt {s : State} (hidle : s.status.busy = false)
    (hlen : s.plat.inSize.toNat < s.len.toNat) (op : BitVec 2) (enter : State → State) :
    startEncoder op enter s = .next { s with ctrlOp := op, status := Status.failed .lengthError } := by
  simp [startEncoder, hidle, hlen, raiseError_lengthError, State.clearStatus, State.storeOp]

/-- Settles O8: both codecs start through one operation, each with its own `OP`. -/
theorem lengthErrorAtStart : Obligations.LengthErrorAtStart := by
  intro s hidle hlen
  exact ⟨startEncoder_of_len_gt hidle hlen 0b00#2 lzEnter, startEncoder_of_len_gt hidle hlen 0b01#2 rlEnter, by decide⟩

end Sys2Proof.Machine
end

section
/-! A launch on a platform that maps both spaces onto one memory (70_reset_and_hazards.md R319): the overlap is
tested before the ranges that other running commands hold. -/

namespace Sys2Proof.Machine

theorem launchRefusal_of_shared_address {s : State} {x : Nat} (hin : (s.inputSpan s.len.toNat).holds x = true)
    (hout : (s.outputSpan s.a.toNat).holds x = true) : s.launchRefusal = some .overlappingSpaces :=
  if_pos (Span.overlaps_iff.mpr ⟨x, hin, hout⟩)

/-- 40_commands.md R141, step 3: past the length test, what a launch is refused for is what the start answers. -/
theorem startEncoder_of_launchRefusal {s : State} {r : Refusal} (hidle : s.status.busy = false)
    (hlen : s.len.toNat ≤ s.plat.inSize.toNat) (hrefused : s.launchRefusal = some r) (op : BitVec 2)
    (enter : State → State) : startEncoder op enter s = .refused r := by
  simp [startEncoder, hidle, Nat.not_lt.mpr hlen, hrefused]

/-- Settles O12: the shared address makes the two spans overlap, which both codecs' start tests first. -/
theorem overlappingLaunchRefused : Obligations.OverlappingLaunchRefused := by
  intro s x hidle hlen hinLo hinHi houtLo houtHi
  have hrefused : s.launchRefusal = some .overlappingSpaces :=
    launchRefusal_of_shared_address (Span.holds_iff.mpr ⟨hinLo, hinHi⟩) (Span.holds_iff.mpr ⟨houtLo, houtHi⟩)
  exact ⟨startEncoder_of_launchRefusal hidle hlen hrefused 0b00#2 lzEnter,
    startEncoder_of_launchRefusal hidle hlen hrefused 0b01#2 rlEnter⟩

end Sys2Proof.Machine
end

section
/-! The host's byte accesses while a command runs (70_reset_and_hazards.md R315, R316): an access inside its space that
meets a held address is refused. -/

namespace Sys2Proof.Machine

theorem State.exists?_of_le {s : State} {space : Space} {k n : Nat} (h : k + n ≤ s.sizeOf space) :
    s.exists? space k n = true := by
  simp [State.exists?, h]

theorem State.accessSpan_holds {s : State} {space : Space} {k n j : Nat} (hlo : k ≤ j) (hhi : j < k + n) :
    (s.accessSpan space k n).holds (s.baseOf space + j) = true := by
  simp only [State.accessSpan, Span.holds_iff]
  omega

/-- An access meets a held range where one of its bytes has an address in it. -/
theorem overlaps_accessSpan {s : State} {space : Space} {held : Config.Span} {k n j : Nat}
    (hheld : held.holds (s.baseOf space + j) = true) (hlo : k ≤ j) (hhi : j < k + n) :
    held.overlaps (s.accessSpan space k n) = true :=
  Span.overlaps_iff.mpr ⟨_, hheld, State.accessSpan_holds hlo hhi⟩

theorem dumpBytes_of_heldOutput {s : State} {space : Space} {k n : Nat}
    (hheld : s.heldOutput.overlaps (s.accessSpan space k n) = true) (hbusy : s.status.busy = true)
    (hsize : k + n ≤ s.sizeOf space) : dumpBytes space k n s = .refused .outputNotFinal := by
  simp [dumpBytes, State.exists?_of_le hsize, hbusy, hheld]

theorem fillBytes_of_heldInput {s : State} {space : Space} {k : Nat} {bytes : List Byte}
    (hheld : s.heldInput.overlaps (s.accessSpan space k bytes.length) = true) (hbusy : s.status.busy = true)
    (hsize : k + bytes.length ≤ s.sizeOf space) : fillBytes space k bytes s = .refused .inputHeld := by
  simp [fillBytes, State.exists?_of_le hsize, hbusy, hheld]

/-- The test for held input comes first and may refuse the write under its own name (log 21). -/
theorem fillBytes_of_heldOutput {s : State} {space : Space} {k : Nat} {bytes : List Byte}
    (hheld : s.heldOutput.overlaps (s.accessSpan space k bytes.length) = true) (hbusy : s.status.busy = true)
    (hsize : k + bytes.length ≤ s.sizeOf space) :
    fillBytes space k bytes s = .refused .outputNotFinal ∨ fillBytes space k bytes s = .refused .inputHeld := by
  by_cases hin : s.heldInput.overlaps (s.accessSpan space k bytes.length) = true
  · exact .inr (fillBytes_of_heldInput hin hbusy hsize)
  · exact .inl (by simp [fillBytes, State.exists?_of_le hsize, hbusy, hin, hheld])

theorem heldInput_holds_iff {s : State} {j : Nat} :
    s.heldInput.holds (s.baseOf .input + j) = true ↔ j < s.cmd.n.toNat := by
  simp [Span.holds_iff, State.baseOf]

theorem heldOutput_holds_iff {s : State} {j : Nat} :
    s.heldOutput.holds (s.baseOf .output + j) = true ↔ s.cmd.a0.toNat ≤ j ∧ j < s.plat.sinkCapacity.toNat := by
  simp [Span.holds_iff, State.baseOf]

/-- Settles O55: `IN[j]` is at a held address, and held input is tested first once the bytes exist. -/
theorem heldInputWritesRefused : Obligations.HeldInputWritesRefused := by
  intro s rest k j bytes hbusy hsize hlo hhi hj
  have hheld := overlaps_accessSpan (heldInput_holds_iff (s := { s with inputs := rest }).mpr hj) hlo hhi
  rw [step_host]
  exact fillBytes_of_heldInput hheld hbusy hsize

/-- Settles O56: `OUT[j]` is at an address that is not final, and the read and the write span the same addresses. -/
theorem outputThatIsNotFinalRefused : Obligations.OutputThatIsNotFinalRefused := by
  rintro s rest k _ j bytes hbusy rfl hsize hlo hhi hj
  have hcap : j < s.plat.sinkCapacity.toNat := Nat.lt_of_lt_of_le hhi hsize
  have hheld := overlaps_accessSpan (heldOutput_holds_iff (s := { s with inputs := rest }).mpr ⟨hj, hcap⟩) hlo hhi
  rw [step_host, step_host]
  exact ⟨dumpBytes_of_heldOutput hheld hbusy hsize, fillBytes_of_heldOutput hheld hbusy hsize⟩

end Sys2Proof.Machine
end

section
/-! The codec of 30_encoding.md, field by field: what the fields of an assembled word or byte read back as, and that a
word or byte is assembled from its own fields. Each is arithmetic on the value. -/

namespace Sys2Proof

/-- Fields one beside the other are a sum of shifted values. -/
theorem toNat_append_eq_add {m n : Nat} (x : BitVec m) (y : BitVec n) :
    (x ++ y).toNat = x.toNat * 2 ^ n + y.toNat := by
  rw [BitVec.toNat_append, ← Nat.shiftLeft_add_eq_or_of_lt y.isLt, Nat.shiftLeft_eq]

theorem toNat_extractLsb'_eq_div {n : Nat} (start len : Nat) (x : BitVec n) :
    (x.extractLsb' start len).toNat = x.toNat / 2 ^ start % 2 ^ len := by
  rw [BitVec.extractLsb'_toNat, Nat.shiftRight_eq_div_pow]

/-! ### The command word (R101) -/

theorem toNat_cmdWord (res : BitVec 29) (op : BitVec 2) (start : BitVec 1) :
    (cmdWord res op start).toNat = res.toNat * 8 + op.toNat * 2 + start.toNat := by
  rw [cmdWord, toNat_append_eq_add, toNat_append_eq_add]
  omega

theorem cmdStart_eq_true_iff {w : Word} : cmdStart w = true ↔ w.toNat % 2 = 1 := by
  rw [cmdStart, BitVec.getLsbD, Nat.testBit_zero, decide_eq_true_eq]

theorem toNat_cmdOp (w : Word) : (cmdOp w).toNat = w.toNat / 2 % 4 := toNat_extractLsb'_eq_div 1 2 w

theorem toNat_cmdRes (w : Word) : (cmdRes w).toNat = w.toNat / 8 := by
  have := w.isLt
  rw [cmdRes, toNat_extractLsb'_eq_div]
  omega

@[simp] theorem cmdStart_cmdWord_one (res : BitVec 29) (op : BitVec 2) : cmdStart (cmdWord res op 1) = true := by
  rw [cmdStart_eq_true_iff, toNat_cmdWord]
  simp
  omega

@[simp] theorem cmdStart_cmdWord_zero (res : BitVec 29) (op : BitVec 2) : cmdStart (cmdWord res op 0) = false := by
  rw [← Bool.not_eq_true, cmdStart_eq_true_iff, toNat_cmdWord]
  simp
  omega

@[simp] theorem cmdOp_cmdWord (res : BitVec 29) (op : BitVec 2) (start : BitVec 1) :
    cmdOp (cmdWord res op start) = op := by
  have hop := op.isLt
  have hstart := start.isLt
  refine BitVec.eq_of_toNat_eq ?_
  rw [toNat_cmdOp, toNat_cmdWord]
  omega

@[simp] theorem cmdRes_cmdWord (res : BitVec 29) (op : BitVec 2) (start : BitVec 1) :
    cmdRes (cmdWord res op start) = res := by
  have hop := op.isLt
  have hstart := start.isLt
  refine BitVec.eq_of_toNat_eq ?_
  rw [toNat_cmdRes, toNat_cmdWord]
  omega

theorem cmdWord_of_start {w : Word} (h : cmdStart w = true) : cmdWord (cmdRes w) (cmdOp w) 1 = w := by
  have hbit := cmdStart_eq_true_iff.mp h
  refine BitVec.eq_of_toNat_eq ?_
  rw [toNat_cmdWord, toNat_cmdRes, toNat_cmdOp, show (1 : BitVec 1).toNat = 1 from rfl]
  omega

theorem cmdWord_of_no_start {w : Word} (h : cmdStart w = false) : cmdWord (cmdRes w) (cmdOp w) 0 = w := by
  have hbit : ¬ w.toNat % 2 = 1 := fun hbit => Bool.false_ne_true (h.symm.trans (cmdStart_eq_true_iff.mpr hbit))
  refine BitVec.eq_of_toNat_eq ?_
  rw [toNat_cmdWord, toNat_cmdRes, toNat_cmdOp, show (0 : BitVec 1).toNat = 0 from rfl]
  omega

/-! ### The bytes of a stream (R105 to R111) -/

theorem matchBytes_of_fields (b0 b1 : Byte) :
    matchByte0 (matchDist b0 b1) (matchLen b0) = b0 ∧ matchByte1 (matchDist b0 b1) = b1 := by
  have h0 := b0.isLt
  have h1 := b1.isLt
  have hdist : (matchDist b0 b1).toNat = b1.toNat * 16 + b0.toNat / 16 := by
    rw [matchDist, toNat_append_eq_add, toNat_extractLsb'_eq_div]
    omega
  constructor
  · refine BitVec.eq_of_toNat_eq ?_
    rw [matchByte0, matchLen, toNat_append_eq_add, toNat_extractLsb'_eq_div, toNat_extractLsb'_eq_div, hdist]
    omega
  · refine BitVec.eq_of_toNat_eq ?_
    rw [matchByte1, toNat_extractLsb'_eq_div, hdist]
    omega

theorem toNat_runControl (r : BitVec 7) : (runControl r).toNat = 128 + r.toNat := toNat_append_eq_add 1#1 r

theorem toNat_literalControl (l : BitVec 7) : (literalControl l).toNat = l.toNat :=
  (toNat_append_eq_add 0#1 l).trans (Nat.zero_add _)

theorem getLsbD_seven_iff {c : Byte} : c.getLsbD 7 = true ↔ 128 ≤ c.toNat := by
  have hc := c.isLt
  rw [BitVec.getLsbD, Nat.testBit_eq_decide_div_mod_eq, decide_eq_true_eq]
  omega

theorem extractLsb'_runControl (r : BitVec 7) : (runControl r).extractLsb' 0 7 = r := by
  have hr := r.isLt
  refine BitVec.eq_of_toNat_eq ?_
  rw [toNat_extractLsb'_eq_div, toNat_runControl]
  omega

theorem runControl_of_bit {c : Byte} (h : c.getLsbD 7 = true) : runControl (c.extractLsb' 0 7) = c := by
  have hc := c.isLt
  have hge := getLsbD_seven_iff.mp h
  refine BitVec.eq_of_toNat_eq ?_
  rw [toNat_runControl, toNat_extractLsb'_eq_div]
  omega

theorem literalControl_of_no_bit {c : Byte} (h : c.getLsbD 7 = false) :
    literalControl (BitVec.ofNat 7 c.toNat) = c ∧ c.toNat < 128 := by
  have hlt : c.toNat < 128 := Nat.lt_of_not_le fun hge => Bool.false_ne_true (h.symm.trans (getLsbD_seven_iff.mpr hge))
  refine ⟨BitVec.eq_of_toNat_eq ?_, hlt⟩
  rw [toNat_literalControl, BitVec.toNat_ofNat]
  omega

end Sys2Proof
end

section
/-! Decoding and encoding undo each other: for the command words (30_encoding.md R101 to R103), the match token (R107,
R108), and the two packets (R110, R111). -/

namespace Sys2Proof

/-! ### Decoding an encoding -/

theorem decode_command_of_decodeCmd {w : Word} {i : Instr} (h : decodeCmd w = i) :
    decode .command (.word w) = .ok (i, []) := by
  rw [decode, h]

theorem decodeCmd_cmdWord_zero (res : BitVec 29) (op : BitVec 2) :
    decodeCmd (cmdWord res op 0) = .noCommand res op := by
  rw [decodeCmd_of_no_start (cmdStart_cmdWord_zero res op), cmdRes_cmdWord, cmdOp_cmdWord]

theorem decodeCmd_cmdWord_one {res : BitVec 29} (op : BitVec 2) (hres : res ≠ 0) :
    decodeCmd (cmdWord res op 1) = .illegalRes res op := by
  rw [decodeCmd_of_res_ne_zero (cmdStart_cmdWord_one res op) (by rwa [cmdRes_cmdWord]), cmdRes_cmdWord, cmdOp_cmdWord]

theorem decodeMatch_encode {dist : BitVec 12} {len : BitVec 4} (hdist : 1 ≤ dist.toNat)
    (hlen : Config.minMatch ≤ len.toNat) (rest : List Byte) :
    decodeMatch (matchByte0 dist len :: matchByte1 dist :: rest) = .ok (.lzMatch dist len, rest) := by
  obtain ⟨hreadDist, hreadLen⟩ := Machine.matchBytes_read dist len
  rw [decodeMatch, hreadDist, hreadLen, if_neg (Nat.not_lt.mpr hlen), if_neg (Nat.one_le_iff_ne_zero.mp hdist)]

theorem decodeStream_run {r : BitVec 7} (hr : Config.runMin ≤ r.toNat) (v : Byte) (rest : List Byte) :
    decodeStream .packet (runControl r :: v :: rest) = .ok (.rlRun r v, rest) := by
  rw [decodeStream, if_pos (Machine.runControl_read r).1, decodeRun, extractLsb'_runControl,
    if_neg (Nat.not_lt.mpr hr)]

theorem decodeStream_literal {bytes : List Byte} (hpos : 1 ≤ bytes.length) (hcap : bytes.length ≤ 127)
    (rest : List Byte) :
    decodeStream .packet (literalControl (BitVec.ofNat 7 bytes.length) :: (bytes ++ rest)) =
      .ok (.rlLit bytes, rest) := by
  have hlen : (literalControl (BitVec.ofNat 7 bytes.length)).toNat = bytes.length := by
    rw [toNat_literalControl, BitVec.toNat_ofNat]
    omega
  rw [decodeStream, if_neg (by rw [(Machine.literalControl_read _).1]; decide), decodeLiteral, hlen,
    if_neg (by omega), if_neg (by rw [List.length_append]; omega), List.take_left, List.drop_left]

/-- Settles O1: row by row; each item's fields read back, and its well-formedness passes the decoder's tests. -/
theorem decodeOfEncodeGivesBack : Obligations.DecodeOfEncodeGivesBack := by
  intro i rest hwf
  cases i with
  | encodeLzss => exact decode_command_of_decodeCmd (by decide)
  | encodeRle => exact decode_command_of_decodeCmd (by decide)
  | reservedOp2 => exact decode_command_of_decodeCmd (by decide)
  | reservedOp3 => exact decode_command_of_decodeCmd (by decide)
  | illegalRes res op =>
    have hres : res ≠ 0 := by simpa [Instr.wellFormed] using hwf
    exact decode_command_of_decodeCmd (decodeCmd_cmdWord_one op hres)
  | noCommand res op => exact decode_command_of_decodeCmd (decodeCmd_cmdWord_zero res op)
  | lzFlag flags => rfl
  | lzLit v => rfl
  | lzMatch dist len =>
    simp only [Instr.wellFormed, Bool.and_eq_true, decide_eq_true_eq] at hwf
    exact decodeMatch_encode hwf.1 hwf.2 rest
  | rlRun r v => exact decodeStream_run (of_decide_eq_true hwf) v rest
  | rlLit bytes =>
    simp only [Instr.wellFormed, Bool.and_eq_true, decide_eq_true_eq] at hwf
    exact decodeStream_literal hwf.1 hwf.2 rest

/-! ### Encoding what was decoded -/

/-- What a reading of the bytes `bs`, where `e` was expected, should answer. -/
structure ReadsAs (e : Expect) (bs : List Byte) (i : Instr) (rest : List Byte) : Prop where
  encoding : encodeBytes i ++ rest = bs
  wellFormed : i.wellFormed = true
  expected : expectOf i = e

theorem decodeMatch_readsAs {bs rest : List Byte} {i : Instr} (h : decodeMatch bs = .ok (i, rest)) :
    ReadsAs (.token false) bs i rest := by
  match bs, h with
  | byte0 :: byte1 :: bs, h =>
    rw [decodeMatch] at h
    split_ifs at h with hlen hdist
    cases h
    obtain ⟨h0, h1⟩ := matchBytes_of_fields byte0 byte1
    refine ⟨?_, ?_, rfl⟩
    · simp [encodeBytes, encode, h0, h1]
    · simp only [Instr.wellFormed, Bool.and_eq_true, decide_eq_true_eq]
      omega

theorem decodeRun_readsAs {c : Byte} {bs rest : List Byte} {i : Instr} (hc : c.getLsbD 7 = true)
    (h : decodeRun c bs = .ok (i, rest)) : ReadsAs .packet (c :: bs) i rest := by
  match bs, h with
  | v :: bs, h =>
    rw [decodeRun] at h
    split_ifs at h with hr
    cases h
    refine ⟨?_, ?_, rfl⟩
    · simp [encodeBytes, encode, runControl_of_bit hc]
    · simpa [Instr.wellFormed] using hr

theorem decodeLiteral_readsAs {c : Byte} {bs rest : List Byte} {i : Instr} (hc : c.getLsbD 7 = false)
    (h : decodeLiteral c bs = .ok (i, rest)) : ReadsAs .packet (c :: bs) i rest := by
  rw [decodeLiteral] at h
  split_ifs at h with hzero hshort
  cases h
  obtain ⟨hcontrol, hlt⟩ := literalControl_of_no_bit hc
  have hlen : (bs.take c.toNat).length = c.toNat := List.length_take_of_le (by omega)
  refine ⟨?_, ?_, rfl⟩
  · simp only [encodeBytes, encode, hlen, hcontrol, List.cons_append, List.take_append_drop]
  · have hmax : Config.runMax = 127 := rfl
    simp only [Instr.wellFormed, hlen, Bool.and_eq_true, decide_eq_true_eq]
    omega

theorem decodeStream_readsAs {e : Expect} {bs rest : List Byte} {i : Instr} (h : decodeStream e bs = .ok (i, rest)) :
    ReadsAs e bs i rest := by
  match e, bs, h with
  | .flagByte, f :: bs, h => cases h; exact ⟨rfl, rfl, rfl⟩
  | .token true, v :: bs, h => cases h; exact ⟨rfl, rfl, rfl⟩
  | .token false, bs, h => exact decodeMatch_readsAs h
  | .packet, c :: bs, h =>
    rw [decodeStream] at h
    split at h
    · next hc => exact decodeRun_readsAs hc h
    · next hc => exact decodeLiteral_readsAs (Bool.eq_false_of_not_eq_true hc) h

/-- Settles O2: one lemma per decoder of an item; a byte with no test against it is its own reading. -/
theorem decodedItemsReencode : Obligations.DecodedItemsReencode := by
  intro e bs i rest h
  obtain ⟨hencoding, hwf, hexpected⟩ := decodeStream_readsAs h
  exact ⟨hencoding, hwf, hexpected⟩

/-- A word with `START = 1` and `RES = 0` is the word of its `OP` (30_encoding.md R102). -/
theorem cmdWord_of_op {w : Word} {op : BitVec 2} (hstart : cmdStart w = true) (hres : cmdRes w = 0)
    (hop : cmdOp w = op) : cmdWord 0 op 1 = w := by
  rw [← hop, ← hres]
  exact cmdWord_of_start hstart

theorem encode_decodeCmd (w : Word) : encode (decodeCmd w) = .word w := by
  unfold decodeCmd
  split_ifs with hstart hres h0 h1 h2
  · exact congrArg Code.word (cmdWord_of_no_start (by simpa using hstart))
  · exact congrArg Code.word (cmdWord_of_start (by simpa using hstart))
  · exact congrArg Code.word (cmdWord_of_op (by simpa using hstart) (by simpa using hres) h0)
  · exact congrArg Code.word (cmdWord_of_op (by simpa using hstart) (by simpa using hres) h1)
  · exact congrArg Code.word (cmdWord_of_op (by simpa using hstart) (by simpa using hres) h2)
  · have h3 : cmdOp w = 0b11#2 := by
      have := (cmdOp w).isLt
      simp only [← BitVec.toNat_inj, BitVec.toNat_ofNat] at h0 h1 h2 ⊢
      omega
    exact congrArg Code.word (cmdWord_of_op (by simpa using hstart) (by simpa using hres) h3)

theorem decodeCmd_wellFormed (w : Word) : (decodeCmd w).wellFormed = true ∧ expectOf (decodeCmd w) = .command := by
  unfold decodeCmd
  split
  · exact ⟨rfl, rfl⟩
  · split
    · next hres => exact ⟨hres, rfl⟩
    · split_ifs <;> exact ⟨rfl, rfl⟩

/-- Settles O3: the decoder's classes are those of the fields, which make up the word. -/
theorem commandWordReencodes : Obligations.CommandWordReencodes := fun w =>
  ⟨encode_decodeCmd w, decodeCmd_wellFormed w⟩

/-- Settles O5: each word and byte sequence is decoded by evaluation. -/
theorem specWordsDecode : Obligations.SpecWordsDecode := by
  unfold Obligations.SpecWordsDecode
  decide

end Sys2Proof
end

section
/-! What an engine turn from a state of the invariant ends in, read off its two cases: the turn always answers, it
advances the scan position or ends the command, and what it reports then (41_lzss.md R183, R184, 42_rle.md R227, R228,
60_exceptions.md R287 to R289). -/

namespace Sys2Proof.Machine

/-! ### The turn always answers -/

/-- Everything a busy engine's turn can do, with the position that a failed write reports. -/
theorem engineStep_cases {s : State} (hinv : Inv s) (hbusy : s.status.busy = true) :
    (∃ u, Iterates s u ∧ engineStep s = .next u.loopControl) ∨
    ∃ t p, engineStep s = .next t ∧ FailedAt s t p ∧ s.cmd.a0.toNat ≤ p.toNat ∧ p.toNat ≤ t.a.toNat := by
  have hc := hinv.command hbusy
  obtain hop | hop := hc.opLegal
  · have hz := hinv.lzss hbusy hop
    rw [engineStep_of_lzss hbusy hop hz.scanning]
    obtain ⟨u, literal, st, bs, hu, facts⟩ | ⟨t, p, ht, failed, hlo, hhi, -⟩ := lzIteration_cases hc hz hbusy
    · exact .inl ⟨u, .lzss hop facts, by rw [hu, lzLoopControl_eq (facts.within.same.op.trans hop)]⟩
    · exact .inr ⟨t, p, ht, failed, hlo, hhi⟩
  · have hscan := (hinv.rle hbusy hop).scanning
    rw [engineStep_of_rle hbusy hop hscan]
    obtain ⟨u, l, bs, hu, facts⟩ | ⟨t, p, ht, failed, hlo, hhi, -⟩ := rlIteration_cases hbusy hscan hc.a0_le_a
    · exact .inl ⟨u, .rle hop facts, by rw [hu, rlLoopControl_eq (facts.within.same.op.trans hop)]⟩
    · exact .inr ⟨t, p, ht, failed, hlo, hhi⟩

theorem engineStep_answers {s : State} (hinv : Inv s) (hbusy : s.status.busy = true) : ∃ t, engineStep s = .next t := by
  obtain ⟨u, -, hu⟩ | ⟨t, p, ht, -⟩ := engineStep_cases hinv hbusy
  · exact ⟨_, hu⟩
  · exact ⟨t, ht⟩

/-! ### Progress -/

theorem Iterates.scanPos_lt {s u : State} (h : Iterates s u) : s.scanPos < u.scanPos := by
  cases h with
  | lzss hop facts =>
    have hst := facts.token.stride
    rw [State.scanPos_of_lzss hop, State.scanPos_of_lzss (facts.within.same.op.trans hop), facts.i]
    omega
  | rle hop facts =>
    have hpos := facts.pos
    rw [State.scanPos_of_rle hop, State.scanPos_of_rle (facts.within.same.op.trans hop), facts.i]
    omega

/-- A turn after which the command still runs has moved the scan position on (41_lzss.md R183, 42_rle.md R227). -/
theorem Turn.advances {s t : State} (h : Turn s t) (hbusy : t.status.busy = true) :
    s.scanPos < t.scanPos ∧ t.scanPos < t.cmd.n.toNat := by
  cases h with
  | iterates iterates eq =>
    rename_i u
    obtain ⟨hmore, hu⟩ | ⟨-, hu⟩ := u.loopControl_cases
    · rw [eq, hu]
      exact ⟨iterates.scanPos_lt, hmore⟩
    · rw [eq, hu] at hbusy
      exact absurd hbusy Bool.false_ne_true
  | fails failed _ => exact absurd hbusy (by simp [failed.idle])

/-- Settles O41: the turn answers, and the frame and the progress of its two cases say the rest. -/
theorem engineTurnAdvancesOrEnds : Obligations.EngineTurnAdvancesOrEnds := by
  intro s hinv hbusy
  obtain ⟨t, ht⟩ := engineStep_answers hinv hbusy
  have turn := Turn.of_engineStep hinv hbusy ht
  exact ⟨t, ht, turn.frame.op, turn.frame.n, turn.frame.a0, turn.advances⟩

/-! ### Every command ends -/

theorem run_succ_of_next {M : Host.Core} {k : Nat} {s t : M.State} (h : M.step s = .next t) :
    M.run (k + 1) s = M.run k t := by
  rw [Host.Core.run, h]

theorem run_succ_of_step {k : Nat} {s t : State} (h : step s = .next t) :
    Host.Core.run Sys2Proof.core (k + 1) s = Host.Core.run Sys2Proof.core k t :=
  run_succ_of_next (M := Sys2Proof.core) h

theorem Inv.scanPos_lt {s : State} (h : Inv s) (hbusy : s.status.busy = true) : s.scanPos < s.cmd.n.toNat := by
  obtain hop | hop := (h.command hbusy).opLegal
  · rw [State.scanPos_of_lzss hop]
    exact (h.lzss hbusy hop).scanning
  · rw [State.scanPos_of_rle hop]
    exact (h.rle hbusy hop).scanning

/-- A run with nothing queued and enough steps for the input that is left ends idle. -/
theorem run_ends {k : Nat} {s : State} (hinv : Inv s) (hinputs : s.inputs = [])
    (hk : s.status.busy = true → s.cmd.n.toNat - s.scanPos ≤ k) :
    ∃ t : State, Host.Core.run Sys2Proof.core k s = .next t ∧ t.status.busy = false := by
  induction k generalizing s with
  | zero =>
    refine ⟨s, rfl, Bool.eq_false_of_not_eq_true fun hbusy => ?_⟩
    have hleft := hinv.scanPos_lt hbusy
    have := hk hbusy
    omega
  | succ k ih =>
    by_cases hbusy : s.status.busy = true
    · obtain ⟨t, ht⟩ := engineStep_answers hinv hbusy
      have turn := Turn.of_engineStep hinv hbusy ht
      rw [run_succ_of_step ((step_of_no_inputs hinputs).trans ht)]
      refine ih (turn.inv hinv hbusy) (turn.frame.inputs.trans hinputs) fun hbusy' => ?_
      have hadvance := (turn.advances hbusy').1
      have := hk hbusy
      rw [turn.frame.n]
      omega
    · have hidle := Bool.eq_false_of_not_eq_true hbusy
      rw [run_succ_of_step ((step_of_no_inputs hinputs).trans (engineStep_of_idle hidle))]
      exact ih hinv hinputs fun h => absurd h hbusy

/-- Settles O42: induction on the steps; each one advances the scan position or ends the command. -/
theorem everyCommandEnds : Obligations.EveryCommandEnds := fun _ hinv _ hinputs =>
  run_ends hinv hinputs fun _ => Nat.le_refl _

/-! ### What the end of a command reports -/

theorem Iterates.commandInv {s u : State} (h : Iterates s u) (hc : CommandInv s) : CommandInv u := by
  cases h with
  | lzss _ facts => exact facts.commandInv hc
  | rle _ facts => exact facts.commandInv hc

/-- An iteration leaves `STATUS` as the command's start set it (40_commands.md R140). -/
theorem Iterates.status_eq {s u : State} (h : Iterates s u) (hinv : Inv s) (hbusy : s.status.busy = true) :
    u.status = { busy := true, done := false, err := false, cause := .none } := by
  obtain ⟨hdone, herr, hcause⟩ := hinv.status.busyAlone hbusy
  rw [h.within.same.status, ← hbusy, ← hdone, ← hcause]
  exact congrArg (fun e => { s.status with err := e }) (herr.trans hdone.symm)

/-- A turn that leaves `DONE` set is an iteration after which the loop's condition fails. -/
theorem Turn.of_done {s t : State} (h : Turn s t) (hinv : Inv s) (hbusy : s.status.busy = true)
    (hdone : t.status.done = true) : ∃ u, Iterates s u ∧ t = u.complete := by
  cases h with
  | iterates iterates eq =>
    rename_i u
    obtain ⟨-, hu⟩ | ⟨-, hu⟩ := u.loopControl_cases
    · rw [eq, hu, iterates.status_eq hinv hbusy] at hdone
      exact absurd hdone Bool.false_ne_true
    · exact ⟨u, iterates, eq.trans hu⟩
  | fails failed _ =>
    rw [failed.status] at hdone
    exact absurd hdone Bool.false_ne_true

theorem Iterates.err_loopControl {s u : State} (h : Iterates s u) (hinv : Inv s) (hbusy : s.status.busy = true) :
    u.loopControl.status.err = false := by
  have hstatus := h.status_eq hinv hbusy
  obtain ⟨-, hu⟩ | ⟨-, hu⟩ := u.loopControl_cases
  · rw [hu, hstatus]
  · rw [hu, State.complete_status, hstatus]
    rfl

/-- Settles O43: the last iteration has counted its appends, and completion copies the count. -/
theorem completedResultCountsTheAppends : Obligations.CompletedResultCountsTheAppends := by
  intro s t hinv hbusy ht hdone
  obtain ⟨u, iterates, rfl⟩ := (Turn.of_engineStep hinv hbusy ht).of_done hinv hbusy hdone
  have same := iterates.within.same
  refine ⟨?_, rfl, ?_, same.a0, readValue_result_complete, same.errpos⟩
  · rw [State.complete_status, iterates.status_eq hinv hbusy]
    rfl
  · rw [← same.a0]
    exact (iterates.commandInv (hinv.command hbusy)).position

/-- Settles O44: only a failed write sets `ERR`, at a position between the command's start and `A`. -/
theorem failedCommandReportsItsPosition : Obligations.FailedCommandReportsItsPosition := by
  intro s t hinv hbusy ht herr
  obtain ⟨u, iterates, hu⟩ | ⟨t', p, ht', failed, hlo, hhi⟩ := engineStep_cases hinv hbusy
  · cases hu.symm.trans ht
    rw [iterates.err_loopControl hinv hbusy] at herr
    exact absurd herr Bool.false_ne_true
  · cases ht'.symm.trans ht
    rw [failed.errpos]
    exact ⟨failed.status, hlo, hhi, failed.result, failed.resultOpen⟩

/-! ### The streams, and the bytes outside them -/

/-- Settles O46: a turn of the LZSS engine is one of `Turn.roundTrips`. -/
theorem lzssStreamDecodesToTheInput : Obligations.LzssStreamDecodesToTheInput := by
  intro s t hinv hbusy hop hdec ht
  have turn := Turn.of_engineStep hinv hbusy ht
  have trips := turn.roundTrips hinv hbusy (.of_lzss hop hdec)
  have htop : t.cmd.op = 0b00#2 := turn.frame.op.trans hop
  refine ⟨fun hb => (trips.busy hb).lzss htop, fun hdone => ?_⟩
  have hfinished := trips.done hdone
  rwa [FinishedDecodes, referenceDecode, if_pos htop] at hfinished

/-- Settles O47: a turn of the RLE engine is one of `Turn.roundTrips`. -/
theorem rleStreamDecodesToTheInput : Obligations.RleStreamDecodesToTheInput := by
  intro s t hinv hbusy hop hdec ht
  have turn := Turn.of_engineStep hinv hbusy ht
  have trips := turn.roundTrips hinv hbusy (.of_rle hop hdec)
  have htop : t.cmd.op = 0b01#2 := turn.frame.op.trans hop
  refine ⟨fun hb => (trips.busy hb).rle htop, fun hdone => ?_⟩
  have hfinished := trips.done hdone
  rwa [FinishedDecodes, referenceDecode, if_neg (by rw [htop]; decide)] at hfinished

/-- Settles O49: the frame of a turn, with the command's spaces apart. -/
theorem engineTurnKeepsOtherBytes : Obligations.EngineTurnKeepsOtherBytes := by
  intro s t hinv hbusy ht
  have frame := (Turn.of_engineStep hinv hbusy ht).frame
  refine ⟨frame.bytes, fun k hk => (hinv.command hbusy).inByte_kept frame.bytes frame.plat hk, fun p hp => ?_⟩
  rw [State.outByte, frame.plat]
  exact frame.bytes _ (Span.holds_false_iff.mpr (.inl (Nat.add_lt_add_left hp _)))

end Sys2Proof.Machine
end

section
/-! The command words (40_commands.md R140 to R149): everything one can do to an idle block, said once
(`CommandEffect`), and what each class of word leaves. -/

namespace Sys2Proof.Machine

/-! ### What a command word can do -/

/-- 40_commands.md R149: whatever its class, a command word is refused while busy. -/
theorem exec_command_of_busy {i : Instr} {s : State} (hi : expectOf i = .command) (hbusy : s.status.busy = true) :
    exec i s = .refused .registerWriteWhileBusy := by
  cases i with
  | encodeLzss => exact startEncoder_of_busy hbusy _ lzEnter
  | encodeRle => exact startEncoder_of_busy hbusy _ rlEnter
  | reservedOp2 => exact rejectCommand_of_busy hbusy _
  | reservedOp3 => exact rejectCommand_of_busy hbusy _
  | illegalRes res op => exact rejectCommand_of_busy hbusy _
  | noCommand res op => exact exec_noCommand_of_busy hbusy res op
  | lzFlag _ => cases hi
  | lzLit _ => cases hi
  | lzMatch _ _ => cases hi
  | rlRun _ _ => cases hi
  | rlLit _ => cases hi

/-- What the command word `i` makes of an idle `s`: it stores `OP`, raises one of the two errors of a start, or starts
its codec. -/
inductive CommandEffect (s : State) : Instr → State → Prop where
  | stores (res : BitVec 29) (op : BitVec 2) : CommandEffect s (.noCommand res op) { s with ctrlOp := op }
  | rejects {i : Instr} (op : BitVec 2) {c : Cause} (cause : c = .illegalCommand ∨ c = .lengthError)
    (starts : ∀ res op, i ≠ .noCommand res op) :
    CommandEffect s i { s with ctrlOp := op, status := Status.failed c }
  | lzss (len : s.len.toNat ≤ s.plat.inSize.toNat) (launch : s.launchRefusal = none) :
    CommandEffect s .encodeLzss (lzInit (s.started 0b00#2)).loopControl
  | rle (len : s.len.toNat ≤ s.plat.inSize.toNat) (launch : s.launchRefusal = none) :
    CommandEffect s .encodeRle (rlInit (s.started 0b01#2)).loopControl

theorem CommandEffect.of_rejectCommand {i : Instr} {s t : State} {op : BitVec 2} (hidle : s.status.busy = false)
    (h : rejectCommand op s = .next t) (starts : ∀ res op, i ≠ .noCommand res op) : CommandEffect s i t := by
  cases (rejectCommand_of_idle hidle op).symm.trans h
  exact .rejects op (.inl rfl) starts

theorem CommandEffect.of_exec {i : Instr} {s t : State} (hi : expectOf i = .command) (hidle : s.status.busy = false)
    (h : exec i s = .next t) : CommandEffect s i t := by
  cases i with
  | encodeLzss =>
    obtain rfl | ⟨rfl, hlen, hlaunch⟩ := startEncoder_next (op := 0b00#2) (enter := lzEnter) h
    · exact .rejects 0b00#2 (.inr rfl) nofun
    · rw [lzEnter, lzLoopControl_eq rfl]
      exact .lzss hlen hlaunch
  | encodeRle =>
    obtain rfl | ⟨rfl, hlen, hlaunch⟩ := startEncoder_next (op := 0b01#2) (enter := rlEnter) h
    · exact .rejects 0b01#2 (.inr rfl) nofun
    · rw [rlEnter, rlLoopControl_eq rfl]
      exact .rle hlen hlaunch
  | reservedOp2 => exact .of_rejectCommand hidle h nofun
  | reservedOp3 => exact .of_rejectCommand hidle h nofun
  | illegalRes res op => exact .of_rejectCommand hidle h nofun
  | noCommand res op =>
    cases (exec_noCommand_of_idle hidle res op).symm.trans h
    exact .stores res op
  | lzFlag _ => cases hi
  | lzLit _ => cases hi
  | lzMatch _ _ => cases hi
  | rlRun _ _ => cases hi
  | rlLit _ => cases hi

/-- A command word that answers met an idle block. -/
theorem exec_command_effect {i : Instr} {s t : State} (hi : expectOf i = .command) (h : exec i s = .next t) :
    s.status.busy = false ∧ CommandEffect s i t := by
  have hidle : s.status.busy = false := Bool.eq_false_of_not_eq_true fun hbusy => by
    cases (exec_command_of_busy hi hbusy).symm.trans h
  exact ⟨hidle, .of_exec hi hidle h⟩

/-! ### What a command word leaves -/

/-- The loop's condition touches the outcome only: `STATUS`, `RESULT`, and whether `RESULT` is open. -/
theorem State.loopControl_eq (u : State) :
    u.loopControl = { u with status := u.loopControl.status, result := u.loopControl.result,
                             resultOpen := u.loopControl.resultOpen } := by
  unfold State.loopControl
  split <;> rfl

/-- What no command word touches (40_commands.md R140 to R148). -/
structure CommandFrame (s t : State) : Prop where
  len : t.len = s.len
  a : t.a = s.a
  errpos : t.errpos = s.errpos
  mem : t.mem = s.mem
  lost : t.lost = s.lost
  plat : t.plat = s.plat
  others : t.others = s.others
  replies : t.replies = s.replies
  draws : t.draws = s.draws
  inputs : t.inputs = s.inputs
  obs : t.obs = s.obs

theorem CommandFrame.loopControl {s u : State} (h : CommandFrame s u) : CommandFrame s u.loopControl := by
  rw [State.loopControl_eq]
  exact ⟨h.len, h.a, h.errpos, h.mem, h.lost, h.plat, h.others, h.replies, h.draws, h.inputs, h.obs⟩

section
variable {i : Instr} {s t : State}

theorem CommandEffect.frame (h : CommandEffect s i t) : CommandFrame s t := by
  cases h with
  | stores res op => constructor <;> rfl
  | rejects op _ _ => constructor <;> rfl
  | lzss _ _ =>
    have hinit : CommandFrame s (lzInit (s.started 0b00#2)) := by constructor <;> rfl
    exact hinit.loopControl
  | rle _ _ =>
    have hinit : CommandFrame s (rlInit (s.started 0b01#2)) := by constructor <;> rfl
    exact hinit.loopControl

/-- A codec's start leaves the other codec's datapath. -/
theorem CommandEffect.datapaths (h : CommandEffect s i t) :
    (i ≠ .encodeLzss → t.lz = s.lz) ∧ (i ≠ .encodeRle → t.rl = s.rl) := by
  cases h with
  | stores res op => exact ⟨fun _ => rfl, fun _ => rfl⟩
  | rejects op _ _ => exact ⟨fun _ => rfl, fun _ => rfl⟩
  | lzss _ _ =>
    rw [State.loopControl_eq]
    exact ⟨fun h => absurd rfl h, fun _ => rfl⟩
  | rle _ _ =>
    rw [State.loopControl_eq]
    exact ⟨fun _ => rfl, fun h => absurd rfl h⟩

theorem State.loopControl_outcome {u : State} (herr : u.status.err = false) :
    u.loopControl.status.err = false ∧
    (u.loopControl.status.done = false →
      u.loopControl.result = u.result ∧ u.loopControl.resultOpen = u.resultOpen) := by
  obtain ⟨-, eq⟩ | ⟨-, eq⟩ := u.loopControl_cases
  · rw [eq]
    exact ⟨herr, fun _ => ⟨rfl, rfl⟩⟩
  · rw [eq]
    exact ⟨herr, nofun⟩

/-- Only completion writes `RESULT`. -/
theorem CommandEffect.result (h : CommandEffect s i t) :
    t.status.done = false → t.result = s.result ∧ t.resultOpen = s.resultOpen := by
  cases h with
  | stores res op => exact fun _ => ⟨rfl, rfl⟩
  | rejects op _ _ => exact fun _ => ⟨rfl, rfl⟩
  | lzss _ _ => exact (State.loopControl_outcome (u := lzInit (s.started 0b00#2)) rfl).2
  | rle _ _ => exact (State.loopControl_outcome (u := rlInit (s.started 0b01#2)) rfl).2

/-- A word that starts no engine leaves the latch, the datapaths and `RESULT`. -/
theorem CommandEffect.no_engine (h : CommandEffect s i t)
    (hno : (i ≠ .encodeLzss ∧ i ≠ .encodeRle) ∨ t.status.err = true) :
    t.cmd = s.cmd ∧ t.lz = s.lz ∧ t.rl = s.rl ∧ t.result = s.result ∧ t.resultOpen = s.resultOpen := by
  cases h with
  | stores res op => exact ⟨rfl, rfl, rfl, rfl, rfl⟩
  | rejects op _ _ => exact ⟨rfl, rfl, rfl, rfl, rfl⟩
  | lzss _ _ =>
    have herr := (State.loopControl_outcome (u := lzInit (s.started 0b00#2)) rfl).1
    exact absurd hno (by simp [herr])
  | rle _ _ =>
    have herr := (State.loopControl_outcome (u := rlInit (s.started 0b01#2)) rfl).1
    exact absurd hno (by simp [herr])

theorem CommandEffect.status_of_noCommand (h : CommandEffect s i t) :
    (∃ res op, i = .noCommand res op) → t.status = s.status := by
  rintro ⟨res, op, rfl⟩
  cases h with
  | stores _ _ => rfl
  | rejects _ _ starts => exact absurd rfl (starts res op)

end

/-- Settles O15: the frame of the four effects, a clause at a time. -/
theorem commandWordFrame : Obligations.CommandWordFrame := by
  intro i s t hi ht
  obtain ⟨-, effect⟩ := exec_command_effect hi ht
  have f := effect.frame
  obtain ⟨hlz, hrl⟩ := effect.datapaths
  exact ⟨f.len, f.a, f.errpos, State.byteAt_congr f.mem f.lost, f.plat, f.lost, f.others, f.replies, f.draws, f.inputs,
    f.obs, hlz, hrl, effect.result, effect.no_engine, effect.status_of_noCommand⟩

/-- Settles O6: `OP` is all that the row stores. -/
theorem noCommandStoresOp : Obligations.NoCommandStoresOp := fun res op _ hidle => exec_noCommand_of_idle hidle res op

/-- Settles O18: error entry records for a sink failure alone, and then sets `STATUS`. -/
theorem errorEntryRecordsAndStops : Obligations.ErrorEntryRecordsAndStops := by
  intro e s
  cases e with
  | sinkWriteFailure p =>
    refine ⟨rfl, ?_, fun h => absurd rfl (h p), rfl, rfl, rfl, rfl, rfl, rfl, rfl, rfl, rfl⟩
    rintro q ⟨⟩
    rfl
  | illegalCommand => exact ⟨rfl, nofun, fun _ => rfl, rfl, rfl, rfl, rfl, rfl, rfl, rfl, rfl, rfl⟩
  | lengthError => exact ⟨rfl, nofun, fun _ => rfl, rfl, rfl, rfl, rfl, rfl, rfl, rfl, rfl, rfl⟩

/-! ### The accepted and the refused start -/

theorem lzEnter_of_nonempty {s : State} (hn : s.cmd.n ≠ 0) : lzEnter s = lzInit s := by
  have hpos : 0 < s.cmd.n.toNat := Nat.pos_of_ne_zero fun h0 => hn (BitVec.eq_of_toNat_eq h0)
  simp [lzEnter, lzLoopControl, hpos]

theorem rlEnter_of_nonempty {s : State} (hn : s.cmd.n ≠ 0) : rlEnter s = rlInit s := by
  have hpos : 0 < s.cmd.n.toNat := Nat.pos_of_ne_zero fun h0 => hn (BitVec.eq_of_toNat_eq h0)
  simp [rlEnter, rlLoopControl, hpos]

/-- Settles O9: the start latches, and `INIT` runs with the loop's condition met. -/
theorem encodeStartLatchesAndRuns : Obligations.EncodeStartLatchesAndRuns := by
  intro s hidle hlen hne hlaunch
  constructor
  · refine (startEncoder_of_launchable hidle hlen hlaunch 0b00#2 lzEnter).trans ?_
    rw [lzEnter_of_nonempty hne]
    rfl
  · refine (startEncoder_of_launchable hidle hlen hlaunch 0b01#2 rlEnter).trans ?_
    rw [rlEnter_of_nonempty hne]
    rfl

theorem launchRefusal_of_held_sink {s : State} {o : Other} {x : Nat} (ho : o ∈ s.others)
    (hrange : o.range.holds x = true) (hsink : (s.sinkRange s.a.toNat).holds x = true) :
    ∃ r, s.launchRefusal = some r ∧ (r = .sharedSink ∨ r = .overlappingSpaces) := by
  have hshared : (s.others.any fun o => o.range.overlaps (s.sinkRange s.a.toNat)) = true :=
    List.any_eq_true.mpr ⟨o, ho, Span.overlaps_iff.mpr ⟨x, hrange, hsink⟩⟩
  rw [State.launchRefusal, if_pos hshared]
  split_ifs
  · exact ⟨_, rfl, .inr rfl⟩
  · exact ⟨_, rfl, .inr rfl⟩
  · exact ⟨_, rfl, .inl rfl⟩

theorem launchRefusal_of_input_met {s : State} {o : Other} (ho : o ∈ s.others)
    (hmeets : s.rangeMeetsInput o.range s.len.toNat = true) : s.launchRefusal = some .overlappingSpaces := by
  have hany : (s.others.any fun o => s.rangeMeetsInput o.range s.len.toNat) = true :=
    List.any_eq_true.mpr ⟨o, ho, hmeets⟩
  rw [State.launchRefusal, if_pos hany, ite_self]

/-- Settles O13: the position `x` meets the sink range or the input, and the tests come in that order of names. -/
theorem sharedSinkLaunchRefused : Obligations.SharedSinkLaunchRefused := by
  intro s o x hidle hlen ho
  constructor
  · intro hlo hhi halo hahi
    obtain ⟨r, hrefused, hr⟩ :=
      launchRefusal_of_held_sink ho (Span.holds_iff.mpr ⟨hlo, hhi⟩) (Span.holds_iff.mpr ⟨halo, hahi⟩)
    exact ⟨⟨r, startEncoder_of_launchRefusal hidle hlen hrefused _ lzEnter, hr⟩,
      r, startEncoder_of_launchRefusal hidle hlen hrefused _ rlEnter, hr⟩
  · intro hinLo hinHi hlo hhi hcap
    have hrefused := launchRefusal_of_input_met ho (rangeMeetsInput_iff.mpr ⟨x, hinLo, hinHi, hlo, hhi, hcap⟩)
    exact ⟨startEncoder_of_launchRefusal hidle hlen hrefused _ lzEnter,
      startEncoder_of_launchRefusal hidle hlen hrefused _ rlEnter⟩

end Sys2Proof.Machine
end

section
/-! Everything one step can do, said once (`StepEffect`): the engine's turn, a command word, a write of `LEN` or `A`, a
reset, or a step beside the command, which leaves every register and datapath of the block. -/

namespace Sys2Proof.Machine

/-! ### Steps beside the command -/

/-- The registers, the latch, the datapaths and the platform are the same. -/
structure SameBlock (s t : State) : Prop where
  ctrlOp : t.ctrlOp = s.ctrlOp
  status : t.status = s.status
  len : t.len = s.len
  a : t.a = s.a
  result : t.result = s.result
  errpos : t.errpos = s.errpos
  cmd : t.cmd = s.cmd
  lz : t.lz = s.lz
  rl : t.rl = s.rl
  plat : t.plat = s.plat

/-- No running command elsewhere holds a position of the sink range of the command here, or an address of its input
(70_reset_and_hazards.md R318, log 26). -/
structure OthersClear (s : State) : Prop where
  unshared : (s.others.any fun o => o.range.overlaps (s.sinkRange s.cmd.a0.toNat)) = false
  inputAlone : (s.others.any fun o => s.rangeMeetsInput o.range s.cmd.n.toNat) = false

/-- What a step that neither runs, starts nor ends a command of this block leaves. -/
structure Beside (s t : State) : Prop where
  same : SameBlock s t
  wf : Memory.wf s.mem = true → Memory.wf t.mem = true
  others : OthersInv s → OthersInv t
  clear : s.status.busy = true → OthersClear s → OthersClear t
  input : CommandInv s → s.status.busy = true → ∀ k, k < s.cmd.n.toNat → t.inByte k = s.inByte k

theorem OthersInv.of_same {s t : State} (h : OthersInv s) (hplat : t.plat = s.plat) (hothers : t.others = s.others) :
    OthersInv t :=
  ⟨by rw [hothers, hplat]; exact h.exist, by rw [hothers]; exact h.apart⟩

theorem OthersClear.of_same {s t : State} (h : OthersClear s) (same : SameBlock s t) (hothers : t.others = s.others) :
    OthersClear t where
  unshared := by simpa [State.sinkRange, hothers, same.plat, same.cmd] using h.unshared
  inputAlone := by
    simpa [State.rangeMeetsInput, State.rangeSpan, State.inputSpan, hothers, same.plat, same.cmd] using h.inputAlone

theorem State.inByte_congr {s t : State} (hplat : t.plat = s.plat) (hmem : t.mem = s.mem) (hlost : t.lost = s.lost)
    (k : Nat) : t.inByte k = s.inByte k := by
  rw [State.inByte, hplat]
  exact State.byteAt_congr hmem hlost _

/-- A step that leaves the memory and the commands elsewhere too. -/
theorem Beside.of_same {s t : State} (same : SameBlock s t) (hmem : t.mem = s.mem) (hlost : t.lost = s.lost)
    (hothers : t.others = s.others) : Beside s t where
  same := same
  wf h := by rw [hmem]; exact h
  others h := h.of_same same.plat hothers
  clear _ h := h.of_same same hothers
  input _ _ k _ := State.inByte_congr same.plat hmem hlost k

theorem Beside.refl (s : State) : Beside s s := .of_same (by constructor <;> rfl) rfl rfl rfl

theorem Beside.observe (s : State) (o : Observation) : Beside s (s.observe o) :=
  .of_same (by constructor <;> rfl) rfl rfl rfl

theorem Beside.readReg (r : Reg) (s : State) : Beside s (readReg r s) := by
  refine .of_same ?_ ?_ ?_ ?_
  · constructor <;> simp [Machine.readReg]
  all_goals simp [Machine.readReg]

theorem Beside.waitPoll (s : State) : Beside s (waitPoll s) := by
  unfold Machine.waitPoll
  split
  · refine .of_same ?_ ?_ ?_ ?_
    · constructor <;> simp [Machine.readReg]
    all_goals simp [Machine.readReg]
  · exact .readReg .status s

/-- Host writes to memory, past the test of what the running command holds (70_reset_and_hazards.md R315). -/
theorem Beside.writeBytes {s : State} {space : Space} {k : Nat} {bytes : List Byte}
    (hfree : s.status.busy = true → s.heldInput.overlaps (s.accessSpan space k bytes.length) = false) :
    Beside s (s.writeBytes (s.baseOf space + k) bytes) := by
  have heq := State.writeBytes_eq s (s.baseOf space + k) bytes
  have hsame : SameBlock s (s.writeBytes (s.baseOf space + k) bytes) := by
    rw [heq]
    constructor <;> rfl
  have hothers : (s.writeBytes (s.baseOf space + k) bytes).others = s.others := by rw [heq]
  refine ⟨hsame, State.writeBytes_wf s _ bytes, fun h => h.of_same hsame.plat hothers,
    fun _ h => h.of_same hsame hothers, fun _ hbusy j hj => ?_⟩
  rw [State.inByte, hsame.plat]
  refine State.byteAt_writeBytes_outside s bytes (Nat.lt_or_ge _ _ |>.imp_right fun hge => ?_)
  by_contra hlt
  have hmeet : s.heldInput.overlaps (s.accessSpan space k bytes.length) = true :=
    Span.overlaps_iff.mpr ⟨s.plat.inBase + j, Span.holds_iff.mpr (by simp; omega),
      Span.holds_iff.mpr ⟨hge, Nat.lt_of_not_le hlt⟩⟩
  rw [hfree hbusy] at hmeet
  exact Bool.false_ne_true hmeet

theorem Beside.turnOther (n : Nat) (s : State) : Beside s (turnOther n s) := by
  have hsame : SameBlock s (Machine.turnOther n s) := by constructor <;> simp
  exact ⟨hsame, turnOther_mem_wf n, fun h => h.of_same hsame.plat (by simp),
    fun _ h => h.of_same hsame (by simp), fun hc _ k hk => turnOther_inByte hc.inputAlone hk⟩

theorem any_filter_eq_false {α : Type} {p q : α → Bool} {l : List α} (h : l.any p = false) :
    (l.filter q).any p = false :=
  List.any_eq_false.mpr fun x hx => List.any_eq_false.mp h x (List.mem_of_mem_filter hx)

theorem Beside.stopOther (n : Nat) (s : State) : Beside s (stopOther n s) where
  same := by constructor <;> rfl
  wf h := h
  others h := ⟨fun o ho => h.exist o (List.mem_of_mem_filter ho), h.apart.filter _⟩
  clear _ h := ⟨any_filter_eq_false h.unshared, any_filter_eq_false h.inputAlone⟩
  input _ _ _ _ := rfl

theorem Span.overlaps_comm (p q : Config.Span) : p.overlaps q = q.overlaps p := by
  rw [Bool.eq_iff_iff, Span.overlaps_iff, Span.overlaps_iff]
  exact exists_congr fun _ => and_comm

theorem State.rangeHeld_eq_false {s : State} {p : Config.Span} (h : s.rangeHeld p = false) :
    (∀ o ∈ s.others, o.range.overlaps p = false) ∧
    (s.status.busy = true → (s.sinkRange s.cmd.a0.toNat).overlaps p = false) := by
  rw [State.rangeHeld, Bool.or_eq_false_iff] at h
  obtain ⟨hothers, hhere⟩ := h
  refine ⟨fun o ho => Bool.eq_false_of_not_eq_true (List.any_eq_false.mp hothers o ho), fun hbusy => ?_⟩
  rwa [hbusy, Bool.true_and] at hhere

/-- A start elsewhere, past its tests (20_memory.md R87, 70_reset_and_hazards.md R318). -/
theorem Beside.startOther {s : State} {n : Nat} {p : Config.Span} (hn : 1 ≤ n) (hn' : n < s.plat.instances)
    (hidle : ∀ o ∈ s.others, o.number ≠ n) (hheld : s.rangeHeld p = false)
    (hmeets : s.status.busy = true → s.rangeMeetsInput p s.cmd.n.toNat = false) :
    Beside s { s with others := { number := n, range := p } :: s.others } where
  same := by constructor <;> rfl
  wf h := h
  others h := by
    refine ⟨fun o ho => ?_, List.pairwise_cons.mpr ⟨fun o ho => ⟨(hidle o ho).symm, ?_⟩, h.apart⟩⟩
    · obtain rfl | ho := List.mem_cons.mp ho
      · exact ⟨hn, hn'⟩
      · exact h.exist o ho
    · rw [Span.overlaps_comm]
      exact (State.rangeHeld_eq_false hheld).1 o ho
  clear hbusy h := by
    refine ⟨?_, ?_⟩
    · rw [List.any_cons, Span.overlaps_comm]
      exact Bool.or_eq_false_iff.mpr ⟨(State.rangeHeld_eq_false hheld).2 hbusy, h.unshared⟩
    · rw [List.any_cons]
      exact Bool.or_eq_false_iff.mpr ⟨hmeets hbusy, h.inputAlone⟩
  input _ _ _ _ := rfl

/-! ### The effects of a step -/

/-- The state of a step whose input has been taken from the queue. -/
def State.dequeued (s : State) (rest : List Input) : State := { s with inputs := rest }

theorem Beside.dequeued (s : State) (rest : List Input) : Beside s (s.dequeued rest) :=
  .of_same (by constructor <;> rfl) rfl rfl rfl

/-- What a step makes of `s`, where `rest` is the queue it leaves. -/
inductive StepEffect (s : State) (rest : List Input) (t : State) : Prop where
  | engine (turn : engineStep (s.dequeued rest) = .next t)
  | command {i : Instr} (idle : s.status.busy = false) (effect : CommandEffect (s.dequeued rest) i t)
  | setLen {v : Word} (queued : s.inputs = .host (.wr 0x08#8 .word v) :: rest) (idle : s.status.busy = false)
    (eq : t = { s.dequeued rest with len := v })
  | setA {v : Word} (idle : s.status.busy = false) (eq : t = { s.dequeued rest with a := v })
  | reset (queued : s.inputs = .reset :: rest) (eq : t = resetInput (s.dequeued rest))
  | beside (beside : Beside (s.dequeued rest) t)

theorem Reg.eq_offset_of_ofOffset {offset : BitVec 8} {r : Reg} (h : Reg.ofOffset offset = some r) :
    offset = r.offset := by
  unfold Reg.ofOffset at h
  split_ifs at h with h0 h1 h2 h3 h4 h5
  all_goals
    cases h
    assumption

theorem atRegister_next {offset : BitVec 8} {size : AccessSize} {f : Reg → Host.Outcome State Fault Refusal} {t : State}
    (h : atRegister offset size f = .next t) : ∃ r : Reg, offset = r.offset ∧ size = .word ∧ f r = .next t := by
  unfold atRegister at h
  split at h
  · next haligned =>
    split at h
    · next r hr =>
      have hsize : size = .word := by
        rw [accessAligned, Bool.and_eq_true, decide_eq_true_eq] at haligned
        exact haligned.1
      exact ⟨r, Reg.eq_offset_of_ofOffset hr, hsize, h⟩
    · cases h
  · cases h

theorem StepEffect.of_writeReg {s t : State} {rest : List Input} {r : Reg} {v : Word}
    (queued : s.inputs = .host (.wr r.offset .word v) :: rest) (h : writeReg r v (s.dequeued rest) = .next t) :
    StepEffect s rest t := by
  cases r with
  | ctrl =>
    obtain ⟨hidle, effect⟩ := exec_command_effect (decodeCmd_wellFormed v).2 h
    exact .command hidle effect
  | status => cases h; exact .beside (.refl _)
  | len =>
    rw [writeReg] at h
    split at h
    · cases h
    · next hidle => cases h; exact .setLen queued (Bool.eq_false_of_not_eq_true hidle) rfl
  | a =>
    rw [writeReg] at h
    split at h
    · cases h
    · next hidle => cases h; exact .setA (Bool.eq_false_of_not_eq_true hidle) rfl
  | result => cases h; exact .beside (.refl _)
  | errpos => cases h; exact .beside (.refl _)

theorem Beside.of_dumpBytes {s t : State} {space : Space} {k n : Nat} (h : dumpBytes space k n s = .next t) :
    Beside s t := by
  unfold dumpBytes at h
  split_ifs at h
  cases h
  exact .observe s _

theorem Beside.of_fillBytes {s t : State} {space : Space} {k : Nat} {bytes : List Byte}
    (h : fillBytes space k bytes s = .next t) : Beside s t := by
  unfold fillBytes at h
  split_ifs at h with hexists hinput houtput
  cases h
  refine .writeBytes fun hbusy => ?_
  rw [hbusy, Bool.true_and] at hinput
  exact Bool.eq_false_of_not_eq_true hinput

theorem StepEffect.of_transact {s t : State} {rest : List Input} {tr : Transaction}
    (queued : s.inputs = .host tr :: rest) (h : transact tr (s.dequeued rest) = .next t) : StepEffect s rest t := by
  cases tr with
  | wr offset size v =>
    obtain ⟨r, rfl, rfl, hwrite⟩ := atRegister_next h
    exact .of_writeReg queued hwrite
  | rd offset size =>
    obtain ⟨r, -, -, hread⟩ := atRegister_next h
    cases hread
    exact .beside (.readReg r _)
  | fill space k bytes => exact .beside (.of_fillBytes h)
  | dump space k n => exact .beside (.of_dumpBytes h)
  | wait => cases h; exact .beside (.waitPoll _)

theorem Beside.of_otherEvent {s t : State} {e : OtherEvent} (h : otherEvent e s = .next t) : Beside s t := by
  obtain ⟨r, he⟩ | ⟨n, p, -, hn, hn', hidle, hheld, hmeets, he⟩ | ⟨n, -, he⟩ | ⟨n, -, he⟩ := otherEvent_cases e s
  · cases he.symm.trans h
  · cases he.symm.trans h
    exact .startOther hn hn' hidle hheld hmeets
  · cases he.symm.trans h
    exact .turnOther n s
  · cases he.symm.trans h
    exact .stopOther n s

/-- Everything a step can do. -/
theorem step_effect {s t : State} (h : step s = .next t) : ∃ rest, StepEffect s rest t := by
  unfold step at h
  split at h
  · next hq => exact ⟨[], .engine (by rw [State.dequeued, ← hq]; exact h)⟩
  · exact ⟨_, .engine h⟩
  · next hq => exact ⟨_, .of_transact hq h⟩
  · next hq => cases h; exact ⟨_, .reset hq rfl⟩
  · exact ⟨_, .beside (.of_otherEvent h)⟩

end Sys2Proof.Machine
end

section
/-! What every step keeps: the invariant (10_state.md R35, R41 to R45), the input of a running command (20_memory.md
R71), `LEN`, the platform, and `ERRPOS` (R36, R39). Each is read off the effects of a step. -/

namespace Sys2Proof.Machine

/-! ### The invariant -/

/-- Settles O38: nothing runs and nothing is listed. -/
theorem invariantAtReset : Obligations.InvariantAtReset where
  platform := by decide
  others := ⟨nofun, List.Pairwise.nil⟩
  memory := rfl
  status := ⟨nofun, by decide, by decide⟩
  command := nofun
  lzss := nofun
  rle := nofun

theorem CommandInv.othersClear {s : State} (h : CommandInv s) : OthersClear s := ⟨h.unshared, h.inputAlone⟩

theorem CommandInv.of_beside {s t : State} (h : CommandInv s) (same : SameBlock s t) (clear : OthersClear t) :
    CommandInv t where
  opLegal := by rw [same.cmd]; exact h.opLegal
  opStored := by rw [same.cmd, same.ctrlOp]; exact h.opStored
  nIsLen := by rw [same.cmd, same.len]; exact h.nIsLen
  nFits := by rw [same.cmd, same.plat]; exact h.nFits
  apart := by
    simpa [State.heldInput, State.heldOutput, State.inputSpan, State.outputSpan, same.cmd, same.plat] using h.apart
  unshared := clear.unshared
  position := by rw [same.a, same.cmd]; exact h.position
  inOutput := by rw [same.a, same.cmd, same.plat]; exact h.inOutput
  inputAlone := clear.inputAlone

theorem LzInv.of_beside {s t : State} (h : LzInv s) (same : SameBlock s t) : LzInv t where
  scanning := by rw [same.lz, same.cmd]; exact h.scanning
  tokSmall := by rw [same.lz]; exact h.tokSmall
  placeholder := by rw [same.lz, same.cmd, same.a]; exact h.placeholder
  unusedZero := by rw [same.lz]; exact h.unusedZero

theorem Inv.of_beside {s t : State} (h : Inv s) (beside : Beside s t) : Inv t := by
  have same := beside.same
  have hbusy : t.status.busy = true → s.status.busy = true := fun hb => by rwa [same.status] at hb
  exact {
    platform := by rw [same.plat]; exact h.platform
    others := beside.others h.others
    memory := beside.wf h.memory
    status := by rw [same.status]; exact h.status
    command := fun hb =>
      (h.command (hbusy hb)).of_beside same (beside.clear (hbusy hb) (h.command (hbusy hb)).othersClear)
    lzss := fun hb hop => (h.lzss (hbusy hb) (by rwa [same.cmd] at hop)).of_beside same
    rle := fun hb hop => ⟨by
      rw [same.cmd] at hop
      rw [same.rl, same.cmd]
      exact (h.rle (hbusy hb) hop).scanning⟩ }

theorem Inv.dequeued {s : State} (h : Inv s) (rest : List Input) : Inv (s.dequeued rest) :=
  h.of_beside (.dequeued s rest)

/-- An idle block's invariant does not speak of the registers of the host. -/
theorem Inv.of_idle {s t : State} (h : Inv s) (hplat : t.plat = s.plat) (hothers : t.others = s.others)
    (hwf : Memory.wf s.mem = true → Memory.wf t.mem = true) (hstatus : t.status.Consistent)
    (hidle : t.status.busy = false) : Inv t :=
  h.of_same_platform hplat hothers hwf hstatus fun hb => absurd (hidle.symm.trans hb) Bool.false_ne_true

/-- A codec's INIT at an accepted start, with the loop's condition after it (40_commands.md R140, R148). -/
theorem Inv.of_started {s v : State} {op : BitVec 2} (h : Inv s) (same : SameCommand (s.started op) v)
    (hmem : v.mem = s.mem) (hrun : v.scanPos < v.cmd.n.toNat → RunningInv v) : Inv v.loopControl := by
  have hstatus : v.status = s.status.cleared.running := same.status
  exact h.loopControl same.plat same.others (fun hwf => by rw [hmem]; exact hwf)
    (hstatus ▸ Status.cleared_running_consistent s.status) (by rw [hstatus]; rfl) hrun

theorem Inv.of_lzssStart {s : State} (h : Inv s) (hlen : s.len.toNat ≤ s.plat.inSize.toNat)
    (hlaunch : s.launchRefusal = none) : Inv (lzInit (s.started 0b00#2)).loopControl := by
  have hop : (lzInit (s.started 0b00#2)).cmd.op = 0b00#2 := rfl
  have hc : CommandInv (lzInit (s.started 0b00#2)) :=
    (CommandInv.of_started (.inl rfl) hlen hlaunch).of_same (SameCommand.lzInit _) rfl (.inl rfl)
  refine h.of_started (SameCommand.lzInit _) rfl fun hpos => .of_lzss hop hc (.of_started ?_)
  exact Nat.zero_lt_of_lt hpos

theorem Inv.of_rleStart {s : State} (h : Inv s) (hlen : s.len.toNat ≤ s.plat.inSize.toNat)
    (hlaunch : s.launchRefusal = none) : Inv (rlInit (s.started 0b01#2)).loopControl := by
  have hop : (rlInit (s.started 0b01#2)).cmd.op = 0b01#2 := rfl
  have hc : CommandInv (rlInit (s.started 0b01#2)) :=
    (CommandInv.of_started (.inr rfl) hlen hlaunch).of_same (SameCommand.rlInit _) rfl (.inl rfl)
  refine h.of_started (SameCommand.rlInit _) rfl fun hpos => .of_rle hop hc (.of_started ?_)
  exact Nat.zero_lt_of_lt hpos

theorem Inv.of_command {i : Instr} {s t : State} (h : Inv s) (hidle : s.status.busy = false)
    (effect : CommandEffect s i t) : Inv t := by
  cases effect with
  | stores res op => exact h.of_idle rfl rfl id h.status hidle
  | rejects op cause _ =>
    refine h.of_idle rfl rfl id (Status.failed_consistent ?_) rfl
    rintro rfl
    exact absurd cause (by decide)
  | lzss hlen hlaunch => exact h.of_lzssStart hlen hlaunch
  | rle hlen hlaunch => exact h.of_rleStart hlen hlaunch

theorem resetInput_mem_wf {s : State} (h : Memory.wf s.mem = true) : Memory.wf (resetInput s).mem = true := by
  show Memory.wf s.abandonCommand.mem = true
  unfold State.abandonCommand
  split
  · exact Memory.wf_forget _ h
  · exact h

theorem Inv.resetInput {s : State} (h : Inv s) : Inv (resetInput s) :=
  h.of_idle (State.abandonCommand_plat s) (State.abandonCommand_others s) resetInput_mem_wf invariantAtReset.status rfl

/-- Settles O39: an effect at a time; a step beside the command keeps all that the invariant speaks of. -/
theorem stepKeepsInvariant : Obligations.StepKeepsInvariant := by
  intro s t hinv ht
  obtain ⟨rest, effect⟩ := step_effect ht
  have hinv' := hinv.dequeued rest
  cases effect with
  | engine turn => exact engineStep_inv hinv' turn
  | command hidle effect => exact hinv'.of_command hidle effect
  | setLen _ hidle eq => exact eq ▸ hinv'.of_idle rfl rfl id hinv.status hidle
  | setA hidle eq => exact eq ▸ hinv'.of_idle rfl rfl id hinv.status hidle
  | reset _ eq => exact eq ▸ hinv'.resetInput
  | beside beside => exact hinv'.of_beside beside

/-! ### The input of a running command -/

theorem resetInput_inByte {s : State} (hc : CommandInv s) {k : Nat} (hk : k < s.cmd.n.toNat) :
    (resetInput s).inByte k = s.inByte k :=
  hc.inByte_kept (resetInput_bytes s).2 (State.abandonCommand_plat s) hk

/-- Settles O40: a turn and a reset keep to the output range, which is apart from the input; a host write to the input
is refused; no range elsewhere covers it. -/
theorem heldInputIsStable : Obligations.HeldInputIsStable := by
  intro s t hinv hbusy ht k hk
  obtain ⟨rest, effect⟩ := step_effect ht
  have hinv' := hinv.dequeued rest
  have hc := hinv'.command hbusy
  cases effect with
  | engine turn => exact (engineTurnKeepsOtherBytes _ _ hinv' hbusy turn).2.1 k hk
  | command hidle _ => exact absurd (hidle.symm.trans hbusy) Bool.false_ne_true
  | setLen _ hidle _ => exact absurd (hidle.symm.trans hbusy) Bool.false_ne_true
  | setA hidle _ => exact absurd (hidle.symm.trans hbusy) Bool.false_ne_true
  | reset _ eq => exact eq ▸ resetInput_inByte hc hk
  | beside beside => exact beside.input hc hbusy k hk

end Sys2Proof.Machine
end

section
/-! What an engine turn keeps from any state at all, of the invariant or not: each operation goes on with the command's
frame, or it ends in a failed write (60_exceptions.md R288). From it, `LEN`, the platform and `ERRPOS` (10_state.md R36,
R39, 60_exceptions.md R290). -/

namespace Sys2Proof.Machine

/-- What a failed write leaves, whatever the bytes do. -/
structure WriteFailed (s t : State) : Prop where
  len : t.len = s.len
  plat : t.plat = s.plat
  status : t.status = Status.failed .sinkWriteFailure

theorem FailedAt.writeFailed {s t : State} {p : Word} (h : FailedAt s t p) : WriteFailed s t :=
  ⟨h.len, h.plat, h.status⟩

theorem WriteFailed.from_earlier {s t u : State} (same : SameCommand s t) (h : WriteFailed t u) : WriteFailed s u :=
  ⟨h.len.trans same.len, h.plat.trans same.plat, h.status⟩

/-- The operation goes on with the frame of `s`, or ends in a failed write. -/
def Flow.Keeps (s : State) : Flow → Prop
  | .going t => SameCommand s t
  | .ended t => WriteFailed s t
  | .faulted _ => True

theorem Flow.Keeps.from_earlier {s t : State} {o : Flow} (same : SameCommand s t) (h : o.Keeps t) : o.Keeps s := by
  cases o with
  | going u => exact SameCommand.trans same h
  | ended u => exact WriteFailed.from_earlier same h
  | faulted r => trivial

theorem Flow.Keeps.andThen {s : State} {o : Flow} {f : State → Flow} (h : o.Keeps s) (hf : ∀ t, (f t).Keeps t) :
    (o.andThen f).Keeps s := by
  cases o with
  | going t => exact Flow.Keeps.from_earlier h (hf t)
  | ended t => exact h
  | faulted r => trivial

theorem sinkAppend_keeps (v : Byte) (s : State) : (sinkAppend v s).Keeps s := by
  obtain ⟨hgo, -⟩ | ⟨t, hend, hfail, -⟩ := sinkAppend_cases v s
  · rw [hgo]
    exact SameCommand.appendOne s v
  · rw [hend]
    exact hfail.writeFailed

theorem sinkAppendAll_keeps (vs : List Byte) (s : State) : (sinkAppendAll vs s).Keeps s := by
  induction vs generalizing s with
  | nil => exact SameCommand.refl s
  | cons v vs ih => exact (sinkAppend_keeps v s).andThen ih

/-- The same of an outcome: a next state has the frame of `s`, or is a failed write. -/
def Keeps (s : State) (o : Host.Outcome State Fault Refusal) : Prop :=
  ∀ t, o = .next t → SameCommand s t ∨ WriteFailed s t

theorem Keeps.of_next {s t : State} (h : SameCommand s t ∨ WriteFailed s t) : Keeps s (.next t) := by
  rintro _ ⟨⟩
  exact h

theorem Keeps.of_flow {s : State} {o : Flow} (h : o.Keeps s) : Keeps s o.outcome := by
  cases o with
  | going t => exact .of_next (.inl h)
  | ended t => exact .of_next (.inr h)
  | faulted r => exact nofun

theorem Keeps.from_earlier {s t : State} {o : Host.Outcome State Fault Refusal} (same : SameCommand s t)
    (h : Keeps t o) : Keeps s o := fun u hu =>
  (h u hu).imp same.trans (WriteFailed.from_earlier same)

theorem WriteFailed.idle {s t : State} (h : WriteFailed s t) : t.status.busy = false := by
  rw [h.status]
  rfl

/-- What the rest of the iteration, which only a running command reaches, adds to what the part before it left. -/
theorem whileBusy_next_cases {s t : State} {o : Host.Outcome State Fault Refusal}
    {f : State → Host.Outcome State Fault Refusal} (h : Keeps s o) (ht : whileBusy o f = .next t) :
    (SameCommand s t ∨ WriteFailed s t) ∨ ∃ u, SameCommand s u ∧ f u = .next t := by
  cases o with
  | next u =>
    rw [whileBusy] at ht
    split at ht
    · next hbusy =>
      obtain same | failed := h u rfl
      · exact .inr ⟨u, same, ht⟩
      · exact absurd (failed.idle.symm.trans hbusy) Bool.false_ne_true
    · cases ht
      exact .inl (h t rfl)
  | fault r => cases ht
  | refused r => cases ht

theorem Keeps.whileBusy {s : State} {o : Host.Outcome State Fault Refusal}
    {f : State → Host.Outcome State Fault Refusal} (h : Keeps s o) (hf : ∀ t, Keeps t (f t)) :
    Keeps s (whileBusy o f) := fun t ht => by
  obtain kept | ⟨u, same, hu⟩ := whileBusy_next_cases h ht
  · exact kept
  · exact (hf u).from_earlier same t hu

theorem exec_appends_keeps {i : Instr} (h : Instr.appends i = true) (s : State) : Keeps s (exec i s) := by
  rw [exec_appends_eq h]
  exact .of_flow ((sinkAppendAll_keeps _ s).andThen fun t => SameCommand.afterAppend i t)

theorem lzOpenIfNeeded_keeps (s : State) : Keeps s (lzOpenIfNeeded s) := by
  obtain ⟨ho, -⟩ | ⟨t, -, ho, hfail, -⟩ := lzOpenIfNeeded_cases s
  · rw [ho]
    exact .of_next (.inl (.lzOpened s))
  · rw [ho]
    exact .of_next (.inr hfail.writeFailed)

theorem lzEmit_keeps (s : State) : Keeps s (lzEmit s) :=
  (exec_appends_keeps (lzToken_appends _) _).from_earlier (.lzFind s)

theorem lzCommitIfDue_keeps (s : State) : Keeps s (lzCommitIfDue s) := by
  obtain ⟨hfault, -⟩ | hgo | ⟨t, hend, -, hfail, -⟩ := lzCommitIfDue_cases s
  · rw [hfault]
    exact nofun
  · rw [hgo]
    exact .of_next (.inl (.lzCommitted s))
  · rw [hend]
    exact .of_next (.inr hfail.writeFailed)

theorem lzAdvanceAndCommit_keeps (s : State) : Keeps s (lzAdvanceAndCommit s) :=
  (lzCommitIfDue_keeps _).from_earlier (.lzAdvance s)

theorem rlEmit_keeps (s : State) : Keeps s (rlEmit s) :=
  (exec_appends_keeps (rlPacket_appends _) _).from_earlier (.rlPrepare s)

/-! ### The whole turn -/

/-- What an engine turn leaves of the registers that it does not own. -/
structure EngineFrame (s t : State) : Prop where
  len : t.len = s.len
  plat : t.plat = s.plat
  errpos : t.errpos ≠ s.errpos → t.status.err = true ∧ t.status.cause = .sinkWriteFailure

theorem EngineFrame.of_same {s t : State} (same : SameCommand s t) : EngineFrame s t :=
  ⟨same.len, same.plat, fun h => absurd same.errpos h⟩

theorem EngineFrame.of_complete {s u : State} (same : SameCommand s u) : EngineFrame s u.complete :=
  ⟨same.len, same.plat, fun h => absurd same.errpos h⟩

theorem EngineFrame.of_kept {s t : State} (h : SameCommand s t ∨ WriteFailed s t) : EngineFrame s t := by
  obtain same | failed := h
  · exact .of_same same
  · exact ⟨failed.len, failed.plat, fun _ => by rw [failed.status]; exact ⟨rfl, rfl⟩⟩

/-- An iteration, with the test of the loop's condition after it. -/
theorem EngineFrame.of_iteration {s t : State} {o : Host.Outcome State Fault Refusal} {control : State → State}
    (h : Keeps s o) (hcontrol : ∀ u, control u = u ∨ control u = u.complete)
    (ht : whileBusy o (fun u => .next (control u)) = .next t) : EngineFrame s t := by
  obtain kept | ⟨u, same, hu⟩ := whileBusy_next_cases h ht
  · exact .of_kept kept
  · cases hu
    obtain hu | hu := hcontrol u
    · rw [hu]
      exact .of_same same
    · rw [hu]
      exact .of_complete same

theorem lzLoopControl_cases (u : State) : lzLoopControl u = u ∨ lzLoopControl u = u.complete := by
  unfold lzLoopControl
  split
  · exact .inl rfl
  · exact .inr rfl

theorem rlLoopControl_cases (u : State) : rlLoopControl u = u ∨ rlLoopControl u = u.complete := by
  unfold rlLoopControl
  split
  · exact .inl rfl
  · exact .inr rfl

theorem lzIteration_frame {s t : State} (h : lzIteration s = .next t) : EngineFrame s t :=
  .of_iteration (((lzOpenIfNeeded_keeps s).whileBusy lzEmit_keeps).whileBusy lzAdvanceAndCommit_keeps)
    lzLoopControl_cases h

theorem rlIteration_frame {s t : State} (h : rlIteration s = .next t) : EngineFrame s t :=
  .of_iteration (rlEmit_keeps s) rlLoopControl_cases h

theorem engineStep_frame {s t : State} (h : engineStep s = .next t) : EngineFrame s t := by
  unfold engineStep lzEngineStep rlEngineStep at h
  split_ifs at h
  · exact lzIteration_frame h
  · cases h
    exact .of_complete (.refl s)
  · exact rlIteration_frame h
  · cases h
    exact .of_complete (.refl s)
  · cases h
    exact .of_same (.refl s)

/-- Settles O50: of the other effects, only a reset touches `ERRPOS`. -/
theorem errposChangesOnlyAtAFailureOrReset : Obligations.ErrposChangesOnlyAtAFailureOrReset := by
  intro s t ht hne
  obtain ⟨rest, effect⟩ := step_effect ht
  cases effect with
  | engine turn => exact .inl ((engineStep_frame turn).errpos hne)
  | command _ effect => exact absurd effect.frame.errpos hne
  | setLen _ _ eq => exact absurd (congrArg State.errpos eq) hne
  | setA _ eq => exact absurd (congrArg State.errpos eq) hne
  | reset queued _ => exact .inr ⟨rest, queued⟩
  | beside beside => exact absurd beside.same.errpos hne

/-- Settles O51: of the other effects, only the write of `LEN` and a reset touch it, and none the platform. -/
theorem lenChangesOnlyByTheHost : Obligations.LenChangesOnlyByTheHost := by
  intro s t ht
  obtain ⟨rest, effect⟩ := step_effect ht
  cases effect with
  | engine turn => exact ⟨(engineStep_frame turn).plat, fun hne => absurd (engineStep_frame turn).len hne⟩
  | command _ effect => exact ⟨effect.frame.plat, fun hne => absurd effect.frame.len hne⟩
  | setLen queued _ eq =>
    subst eq
    exact ⟨rfl, fun _ => .inl ⟨_, rest, queued, rfl⟩⟩
  | setA _ eq =>
    subst eq
    exact ⟨rfl, fun hne => absurd rfl hne⟩
  | reset queued eq =>
    exact ⟨(congrArg State.plat eq).trans (State.abandonCommand_plat _), fun _ => .inr ⟨rest, queued⟩⟩
  | beside beside => exact ⟨beside.same.plat, fun hne => absurd beside.same.len hne⟩

end Sys2Proof.Machine
end

section
/-! The size bounds (41_lzss.md R185, 42_rle.md R229): what one token or packet adds to the output against the input it
covers, and the bound that a completed command reaches. -/

namespace Sys2Proof.Machine

/-! ### LZSS -/

section
variable {s u : State} {literal : Bool} {st : BitVec 4} {bs : List Byte}

theorem LzFacts.toNat_cnt (facts : LzFacts s u literal st bs) (hc : CommandInv s) :
    u.cmd.cnt.toNat = s.cmd.cnt.toNat + (if s.lz.tok = 0 then 1 else 0) + bs.length := by
  have hpos := hc.position
  have hpos' := (facts.commandInv hc).position
  have ha := facts.a
  rw [facts.within.same.a0] at hpos'
  omega

/-- One token in bytes of output and of input: a literal is one for one, a match two for at least three. -/
theorem TokenOf.bytes_le (h : TokenOf s literal st bs) : 8 * bs.length + 1 ≤ 9 * st.toNat ∧ 1 ≤ bs.length := by
  rw [h.length]
  cases literal with
  | true =>
    have hst : st.toNat = 1 := congrArg BitVec.toNat (h.ofLiteral rfl).1
    simp [hst]
  | false =>
    have hst := (h.ofMatch rfl).1
    simp only [Bool.false_eq_true, if_false]
    omega

/-- The first iteration of a group writes its flag byte and a token; a later one finds the flag byte written. -/
theorem LzFacts.two_le_cnt (facts : LzFacts s u literal st bs) (hc : CommandInv s) (hz : LzInv s) :
    2 ≤ u.cmd.cnt.toNat := by
  have htoken := facts.token.bytes_le.2
  rw [facts.toNat_cnt hc]
  split
  · omega
  · next htok =>
    have hp := hz.placeholder htok
    have hpos := hc.position
    omega

/-- After an iteration, closed group or not: eight times the output is within nine times the input read, with seven less
the tokens that the open group had. -/
theorem LzFacts.size_le (facts : LzFacts s u literal st bs) (hc : CommandInv s) (hsize : LzSizeSoFar s) :
    8 * u.cmd.cnt.toNat + s.lz.tok.toNat ≤ 9 * u.lz.i.toNat + 7 := by
  have hbound := hsize.1
  have htoken := facts.token.bytes_le.1
  rw [facts.toNat_cnt hc, facts.i]
  split at hbound
  · next htok =>
    rw [if_pos htok]
    omega
  · next htok =>
    rw [if_neg htok]
    omega

theorem LzFacts.sizeSoFar (facts : LzFacts s u literal st bs) (hc : CommandInv s) (hz : LzInv s)
    (hsize : LzSizeSoFar s) (hmore : u.lz.i.toNat < u.cmd.n.toNat) : LzSizeSoFar u := by
  have hle := facts.size_le hc hsize
  refine ⟨?_, fun _ => facts.two_le_cnt hc hz⟩
  split
  · next htok =>
    -- with input left, the group that is closed had its seven tokens before this one
    rw [facts.i, facts.within.same.n] at hmore
    have h7 := (facts.closesGroup_of_tok_eq_zero htok).resolve_right (by omega)
    have htok0 : u.lz.tok.toNat = 0 := congrArg BitVec.toNat htok
    omega
  · next htok =>
    have hopen := (facts.leftOpen_of_tok_ne_zero htok).1
    omega

theorem LzFacts.sizeDone (facts : LzFacts s u literal st bs) (hc : CommandInv s) (hz : LzInv s)
    (hsize : LzSizeSoFar s) :
    2 ≤ u.cmd.cnt.toNat ∧ u.cmd.cnt.toNat ≤ u.cmd.n.toNat + (u.cmd.n.toNat + 7) / 8 := by
  have hle := facts.size_le hc hsize
  have hinside : u.lz.i.toNat ≤ u.cmd.n.toNat := by
    rw [facts.i, facts.within.same.n]
    exact facts.token.inside
  exact ⟨facts.two_le_cnt hc hz, by omega⟩

end

/-! ### RLE -/

section
variable {s u : State} {l : Nat} {bs : List Byte}

theorem RlFacts.toNat_cnt (facts : RlFacts s u l bs) (hc : CommandInv s) :
    u.cmd.cnt.toNat = s.cmd.cnt.toNat + bs.length := by
  have hpos := hc.position
  have hpos' := (facts.commandInv hc).position
  have ha := facts.a
  rw [facts.within.same.a0] at hpos'
  omega

theorem PacketOf.two_le_length {s : State} (h : PacketOf s l bs) (hpos : 1 ≤ l) : 2 ≤ bs.length := by
  cases h with
  | run _ _ eq => simp [eq]
  | lit _ eq _ =>
    rw [eq, List.length_cons, State.inBytes, State.length_bytesFrom]
    omega

/-- The output of a packet against the input it covers: a run packet makes up for the byte that the literal packet
before it may be ahead, and a literal packet is ahead by less than its own control byte. -/
theorem RlFacts.size_le (facts : RlFacts s u l bs) (hc : CommandInv s) (hsize : RlSizeSoFar s) :
    127 * u.cmd.cnt.toNat ≤ 128 * u.rl.i.toNat + 126 := by
  have hbound := hsize.1
  have hpos := facts.pos
  rw [facts.toNat_cnt hc, facts.i]
  cases facts.packet with
  | run three _ eq =>
    have hlen : bs.length = 2 := by simp [eq]
    split at hbound <;> omega
  | lit noRun eq _ =>
    have hlen : bs.length = l + 1 := by rw [eq, List.length_cons, State.inBytes, State.length_bytesFrom]
    rw [if_neg (fun h => noRun ((triple_iff _ _ _).mp h))] at hbound
    omega

/-- Where input is left, a packet is a full one, a run, or one that a run of three ended (42_rle.md R225). -/
theorem RlFacts.size_le_of_more (facts : RlFacts s u l bs) (hc : CommandInv s) (hsize : RlSizeSoFar s)
    (hmore : s.rl.i.toNat + l < s.cmd.n.toNat) (hnorun : ¬runOf s.inByte s.cmd.n.toNat (s.rl.i.toNat + l) 3) :
    127 * u.cmd.cnt.toNat ≤ 128 * u.rl.i.toNat := by
  have hbound := hsize.1
  rw [facts.toNat_cnt hc, facts.i]
  cases facts.packet with
  | run three _ eq =>
    have hlen : bs.length = 2 := by simp [eq]
    split at hbound <;> omega
  | lit noRun eq stop =>
    have hlen : bs.length = l + 1 := by rw [eq, List.length_cons, State.inBytes, State.length_bytesFrom]
    have hfull : l = 127 := stop.resolve_right (not_or.mpr ⟨by omega, hnorun⟩)
    rw [if_neg (fun h => noRun ((triple_iff _ _ _).mp h))] at hbound
    omega

theorem runOf_congr {inp inp' : Nat → Byte} {n i r : Nat} (h : ∀ k, k < n → inp' k = inp k) :
    runOf inp' n i r ↔ runOf inp n i r := by
  refine and_congr_right fun hfits => forall₂_congr fun k hk => ?_
  rw [h _ (by omega), h i (by omega)]

theorem triple_congr {inp inp' : Nat → Byte} {n e : Nat} (h : ∀ k, k < n → inp' k = inp k) :
    triple inp' n e = triple inp n e := by
  rw [Bool.eq_iff_iff, triple_iff, triple_iff]
  exact runOf_congr h

theorem RlFacts.sizeSoFar (facts : RlFacts s u l bs) (hc : CommandInv s) (hsize : RlSizeSoFar s)
    (hmore : u.rl.i.toNat < u.cmd.n.toNat) : RlSizeSoFar u := by
  have hinput : ∀ k, k < s.cmd.n.toNat → u.inByte k = s.inByte k := fun k hk =>
    hc.inByte_kept facts.within.bytes facts.within.same.plat hk
  rw [facts.i, facts.within.same.n] at hmore
  have htwo := facts.packet.two_le_length facts.pos
  refine ⟨?_, fun _ => by rw [facts.toNat_cnt hc]; omega⟩
  rw [facts.within.same.n, triple_congr hinput]
  split
  · have := facts.size_le hc hsize
    omega
  · next hnorun =>
    rw [triple_iff, facts.i] at hnorun
    exact facts.size_le_of_more hc hsize hmore hnorun

theorem RlFacts.sizeDone (facts : RlFacts s u l bs) (hc : CommandInv s) (hsize : RlSizeSoFar s) :
    2 ≤ u.cmd.cnt.toNat ∧ u.cmd.cnt.toNat ≤ u.cmd.n.toNat + (u.cmd.n.toNat + 126) / 127 := by
  have hle := facts.size_le hc hsize
  have htwo := facts.packet.two_le_length facts.pos
  have hinside : u.rl.i.toNat ≤ u.cmd.n.toNat := by
    rw [facts.i, facts.within.same.n]
    exact facts.inside
  exact ⟨by rw [facts.toNat_cnt hc]; omega, by omega⟩

end

/-! ### Every step -/

/-- The bounds say nothing of a block that neither runs nor has completed. -/
theorem SizeInv.of_no_outcome {t : State} (hidle : t.status.busy = false) (hdone : t.status.done = false) :
    SizeInv t := by
  constructor
  all_goals
    intro h
    simp [hidle, hdone] at h

/-- They rest on the outcome, the latch, the datapaths, and the input of a running command. -/
theorem SizeInv.congr {s t : State} (h : SizeInv s) (hstatus : t.status = s.status) (hcmd : t.cmd = s.cmd)
    (hlz : t.lz = s.lz) (hrl : t.rl = s.rl) (hresult : t.result = s.result)
    (hinput : s.status.busy = true → ∀ k, k < s.cmd.n.toNat → t.inByte k = s.inByte k) : SizeInv t where
  lzss hbusy hop := by
    rw [hstatus] at hbusy
    rw [hcmd] at hop
    rw [LzSizeSoFar, hcmd, hlz]
    exact h.lzss hbusy hop
  rle hbusy hop := by
    rw [hstatus] at hbusy
    rw [hcmd] at hop
    rw [RlSizeSoFar, hcmd, hrl, triple_congr (hinput hbusy)]
    exact h.rle hbusy hop
  lzssDone := by
    rw [hstatus, hcmd, hresult]
    exact h.lzssDone
  rleDone := by
    rw [hstatus, hcmd, hresult]
    exact h.rleDone

/-- The bound of a command in progress, whichever codec. -/
structure SizeSoFar (s : State) : Prop where
  lzss : s.cmd.op = 0b00#2 → LzSizeSoFar s
  rle : s.cmd.op = 0b01#2 → RlSizeSoFar s

/-- The bound of a whole command on what it has counted, whichever codec. -/
structure SizeWhole (s : State) : Prop where
  lzss : s.cmd.op = 0b00#2 → 1 ≤ s.cmd.n.toNat →
    2 ≤ s.cmd.cnt.toNat ∧ s.cmd.cnt.toNat ≤ s.cmd.n.toNat + (s.cmd.n.toNat + 7) / 8
  rle : s.cmd.op = 0b01#2 → 1 ≤ s.cmd.n.toNat →
    2 ≤ s.cmd.cnt.toNat ∧ s.cmd.cnt.toNat ≤ s.cmd.n.toNat + (s.cmd.n.toNat + 126) / 127

theorem SizeInv.soFar {s : State} (h : SizeInv s) (hbusy : s.status.busy = true) : SizeSoFar s :=
  ⟨h.lzss hbusy, h.rle hbusy⟩

/-- Completion copies the count to `RESULT`. -/
theorem SizeInv.loopControl {u : State} (hdone : u.status.done = false)
    (hmore : u.scanPos < u.cmd.n.toNat → SizeSoFar u) (hlast : u.cmd.n.toNat ≤ u.scanPos → SizeWhole u) :
    SizeInv u.loopControl := by
  obtain ⟨hlt, eq⟩ | ⟨hge, eq⟩ := u.loopControl_cases
  · rw [eq]
    have hnot {p : Prop} (h : u.status.done = true) : p := absurd (hdone.symm.trans h) Bool.false_ne_true
    exact ⟨fun _ => (hmore hlt).lzss, fun _ => (hmore hlt).rle, fun h => hnot h, fun h => hnot h⟩
  · rw [eq]
    exact ⟨nofun, nofun, fun _ => (hlast hge).lzss, fun _ => (hlast hge).rle⟩

theorem Iterates.sizeSoFar {s u : State} (h : Iterates s u) (hinv : Inv s) (hbusy : s.status.busy = true)
    (hsize : SizeSoFar s) (hmore : u.scanPos < u.cmd.n.toNat) : SizeSoFar u := by
  have hc := hinv.command hbusy
  cases h with
  | lzss hop facts =>
    have huop : u.cmd.op = 0b00#2 := facts.within.same.op.trans hop
    rw [State.scanPos_of_lzss huop] at hmore
    exact ⟨fun _ => facts.sizeSoFar hc (hinv.lzss hbusy hop) (hsize.lzss hop) hmore,
      fun hop' => absurd (huop.symm.trans hop') (by decide)⟩
  | rle hop facts =>
    have huop : u.cmd.op = 0b01#2 := facts.within.same.op.trans hop
    rw [State.scanPos_of_rle huop] at hmore
    exact ⟨fun hop' => absurd (huop.symm.trans hop') (by decide),
      fun _ => facts.sizeSoFar hc (hsize.rle hop) hmore⟩

theorem Iterates.sizeWhole {s u : State} (h : Iterates s u) (hinv : Inv s) (hbusy : s.status.busy = true)
    (hsize : SizeSoFar s) : SizeWhole u := by
  have hc := hinv.command hbusy
  cases h with
  | lzss hop facts =>
    have huop : u.cmd.op = 0b00#2 := facts.within.same.op.trans hop
    exact ⟨fun _ _ => facts.sizeDone hc (hinv.lzss hbusy hop) (hsize.lzss hop),
      fun hop' => absurd (huop.symm.trans hop') (by decide)⟩
  | rle hop facts =>
    have huop : u.cmd.op = 0b01#2 := facts.within.same.op.trans hop
    exact ⟨fun hop' => absurd (huop.symm.trans hop') (by decide), fun _ _ => facts.sizeDone hc (hsize.rle hop)⟩

theorem Turn.sizeInv {s t : State} (h : Turn s t) (hinv : Inv s) (hbusy : s.status.busy = true) (hsize : SizeInv s) :
    SizeInv t := by
  cases h with
  | iterates iterates eq =>
    rw [eq]
    exact .loopControl (by rw [iterates.status_eq hinv hbusy]) (iterates.sizeSoFar hinv hbusy (hsize.soFar hbusy))
      fun _ => iterates.sizeWhole hinv hbusy (hsize.soFar hbusy)
  | fails failed _ => exact .of_no_outcome failed.idle (by rw [failed.status]; rfl)

theorem engineStep_sizeInv {s t : State} (hinv : Inv s) (hsize : SizeInv s) (h : engineStep s = .next t) :
    SizeInv t := by
  by_cases hbusy : s.status.busy = true
  · exact (Turn.of_engineStep hinv hbusy h).sizeInv hinv hbusy hsize
  · rw [engineStep_of_idle (Bool.eq_false_of_not_eq_true hbusy)] at h
    cases h
    exact hsize

/-- At its start a command has counted nothing and read nothing; with no input it completes so. -/
theorem SizeInv.of_start {u : State} (hdone : u.status.done = false) (hcnt : u.cmd.cnt = 0) (hscan : u.scanPos = 0)
    (htok : u.cmd.op = 0b00#2 → u.lz.tok = 0) : SizeInv u.loopControl := by
  refine .loopControl hdone (fun _ => ⟨fun hop => ?_, fun hop => ?_⟩) fun hge => ⟨fun _ hn => ?_, fun _ hn => ?_⟩
  · rw [State.scanPos_of_lzss hop] at hscan
    simp [LzSizeSoFar, hcnt, htok hop, hscan]
  · rw [State.scanPos_of_rle hop] at hscan
    simp [RlSizeSoFar, hcnt, hscan]
  · omega
  · omega

theorem SizeInv.of_command {i : Instr} {s t : State} (h : SizeInv s) (hidle : s.status.busy = false)
    (effect : CommandEffect s i t) : SizeInv t := by
  cases effect with
  | stores res op =>
    exact h.congr rfl rfl rfl rfl rfl fun hbusy => absurd (hidle.symm.trans hbusy) Bool.false_ne_true
  | rejects op _ _ => exact .of_no_outcome rfl rfl
  | lzss _ _ => exact .of_start rfl rfl (State.scanPos_of_lzss rfl) fun _ => rfl
  | rle _ _ =>
    exact .of_start rfl rfl (State.scanPos_of_rle rfl) fun hop => absurd hop (by decide : (0b01#2 : BitVec 2) ≠ 0b00#2)

/-- Settles O45: an iteration keeps the bound of its codec, and completion reads the last one; the other steps leave
what the bounds speak of, begin a command, or end one in error. -/
theorem stepKeepsSizeBounds : Obligations.StepKeepsSizeBounds := by
  intro s t hinv hsize ht
  obtain ⟨rest, effect⟩ := step_effect ht
  have hinv' := hinv.dequeued rest
  have hsize' : SizeInv (s.dequeued rest) := hsize.congr rfl rfl rfl rfl rfl fun _ _ _ => rfl
  have hnot (hidle : s.status.busy = false) {p : Prop} (hbusy : s.status.busy = true) : p :=
    absurd (hidle.symm.trans hbusy) Bool.false_ne_true
  cases effect with
  | engine turn => exact engineStep_sizeInv hinv' hsize' turn
  | command hidle effect => exact hsize'.of_command hidle effect
  | setLen _ hidle eq =>
    subst eq
    exact hsize'.congr rfl rfl rfl rfl rfl (hnot hidle)
  | setA hidle eq =>
    subst eq
    exact hsize'.congr rfl rfl rfl rfl rfl (hnot hidle)
  | reset _ eq =>
    subst eq
    exact .of_no_outcome rfl rfl
  | beside beside =>
    have same := beside.same
    exact hsize'.congr same.status same.cmd same.lz same.rl same.result fun hbusy =>
      beside.input (hinv'.command hbusy) hbusy

end Sys2Proof.Machine
end

section
/-! The rows of the streams where the sink accepts (41_lzss.md R178 to R180, 42_rle.md R224, R226, 43_sink.md R260 to
R262): an appending row is its encoding appended, and then its own bookkeeping (`afterAppend`). -/

namespace Sys2Proof.Machine

/-! ### An accepted run of appends -/

theorem State.acceptsAppends_fits {k : Nat} {s : State} (h : s.acceptsAppends (k + 1)) :
    s.a.toNat + (k + 1) ≤ s.plat.sinkCapacity.toNat := by
  induction k generalizing s with
  | zero => exact h.1.1
  | succ k ih =>
    have hnext := ih h.2
    have ha : (s.a + 1).toNat = s.a.toNat + 1 := State.appendOne_a_toNat 0 h.1.1
    rw [ha, State.takeReply_plat] at hnext
    omega

/-- `t` has appended `bs` to the output of `s`, and touched nothing else that the row does not own. -/
structure Appended (s t : State) (bs : List Byte) : Prop where
  same : SameCommand s t
  a : t.a.toNat = s.a.toNat + bs.length
  bytes : ∀ j (hj : j < bs.length), t.outByte (s.a.toNat + j) = bs[j]
  kept : bytesKeptOutside s t s.a.toNat bs.length

theorem Appended.appendAll {s : State} {bs : List Byte} (hfit : s.a.toNat + bs.length < 2 ^ 32) :
    Appended s (s.appendAll bs) bs := by
  obtain ⟨ha, hkept, hbytes, -⟩ := State.appendAll_facts bs hfit
  refine ⟨.appendAll s bs, ha, fun j hj => ?_, hkept⟩
  rw [State.outByte, State.appendAll_plat, ← Nat.add_assoc]
  exact hbytes j hj

theorem Appended.of_mem {s t u : State} {bs : List Byte} (h : Appended s t bs) (same : SameCommand t u)
    (ha : u.a = t.a) (hmem : u.mem = t.mem) : Appended s u bs := by
  have hbyte : ∀ x, u.byteAt x = t.byteAt x := State.byteAt_congr hmem same.lost
  refine ⟨h.same.trans same, by rw [ha]; exact h.a, fun j hj => ?_, fun x hx => (hbyte x).trans (h.kept x hx)⟩
  rw [State.outByte, same.plat, hbyte]
  exact h.bytes j hj

theorem Appended.outBytes {s t : State} {bs : List Byte} (h : Appended s t bs) :
    t.outBytes s.a.toNat bs.length = bs :=
  State.outBytes_eq_of_bytes fun j hj => by
    rw [Nat.add_assoc]
    exact h.bytes j hj

theorem Appended.afterAppend {s : State} {i : Instr} (hfit : s.a.toNat + (encodeBytes i).length < 2 ^ 32) :
    Appended s (afterAppend i (s.appendAll (encodeBytes i))) (encodeBytes i) :=
  (Appended.appendAll hfit).of_mem (.afterAppend i _) (afterAppend_a i _) (afterAppend_mem i _)

/-- A row whose appends are all accepted. -/
theorem exec_appends_accepted {i : Instr} {s : State} (hi : Instr.appends i = true)
    (h : s.acceptsAppends (encodeBytes i).length) :
    exec i s = .next (afterAppend i (s.appendAll (encodeBytes i))) ∧
    Appended s (afterAppend i (s.appendAll (encodeBytes i))) (encodeBytes i) := by
  obtain ⟨k, hk⟩ := Nat.exists_eq_succ_of_ne_zero (mt List.length_eq_zero_iff.mp (encodeBytes_ne_nil hi))
  have hfit := State.acceptsAppends_fits (hk ▸ h)
  have hcap := s.plat.sinkCapacity.isLt
  refine ⟨?_, .afterAppend (by omega)⟩
  rw [exec_appends_eq hi, sinkAppendAll_accepted h]
  rfl

/-! ### The tokens -/

/-- Settles O30: the multiplexer writes one bit, and the index steps below its width. -/
theorem flagAccumulatorWritesOneBit : Obligations.FlagAccumulatorWritesOneBit := by
  intro lz b k htok _
  refine ⟨setFlagBit_getLsbD lz.flags htok b k, ?_, rfl⟩
  show (lz.tok + 1).toNat = _
  rw [BitVec.toNat_add, show (1 : BitVec 4).toNat = 1 from rfl]
  omega

theorem toNat_matchBytes (dist : BitVec 12) (len : BitVec 4) :
    (matchByte0 dist len).toNat = (dist.toNat * 16 + len.toNat) % 256 ∧
    (matchByte1 dist).toNat = (dist.toNat * 16 + len.toNat) / 256 := by
  have hdist := dist.isLt
  have hlen := len.isLt
  constructor
  · rw [matchByte0, toNat_append_eq_add, toNat_extractLsb'_eq_div]
    omega
  · rw [matchByte1, toNat_extractLsb'_eq_div]
    omega

section
variable {s : State} (htok : s.lz.tok.toNat ≤ 7) (bs : List Byte) (literal : Bool) (stride : BitVec 4) (n : Nat)

/-- What the end of a token leaves of the latch and the datapaths, over any run of appends. -/
theorem endToken_appendAll :
    (endToken literal stride ((s.appendAll bs).countBytes n)).cmd =
      { s.cmd with cnt := s.cmd.cnt + BitVec.ofNat 32 n } ∧
    (endToken literal stride ((s.appendAll bs).countBytes n)).rl = s.rl ∧
    (endToken literal stride ((s.appendAll bs).countBytes n)).lz =
      { s.lz with flags := (endToken literal stride ((s.appendAll bs).countBytes n)).lz.flags, tok := s.lz.tok + 1,
                  stride := stride } := by
  refine ⟨?_, ?_, ?_⟩ <;> simp [LzRegs.flagAcc]

include htok

/-- The flag bit of the token at hand, and the other seven. -/
theorem endToken_appendAll_flags :
    (endToken literal stride ((s.appendAll bs).countBytes n)).lz.flags.getLsbD (7 - s.lz.tok.toNat) = literal ∧
    ∀ b, b ≠ 7 - s.lz.tok.toNat →
      (endToken literal stride ((s.appendAll bs).countBytes n)).lz.flags.getLsbD b = s.lz.flags.getLsbD b := by
  have hflags : (endToken literal stride ((s.appendAll bs).countBytes n)).lz.flags =
      setFlagBit s.lz.flags s.lz.tok.toNat literal := by
    simp [LzRegs.flagAcc]
  rw [hflags]
  exact ⟨by rw [setFlagBit_getLsbD _ htok, if_pos rfl], fun b hb => by rw [setFlagBit_getLsbD _ htok, if_neg hb]⟩

end

/-- Settles O20: the token is its byte. -/
theorem literalTokenCompletes : Obligations.LiteralTokenCompletes := by
  intro v s haccept htok
  obtain ⟨hexec, app⟩ := exec_appends_accepted (i := .lzLit v) rfl haccept
  obtain ⟨hcmd, hrl, hlz⟩ := endToken_appendAll (s := s) (encodeBytes (.lzLit v)) true 1 1
  obtain ⟨hbit, hothers⟩ := endToken_appendAll_flags htok (encodeBytes (.lzLit v)) true 1 1
  exact ⟨_, hexec, app.same, app.a, app.bytes 0 Nat.one_pos, app.kept, hcmd, hrl, hlz,
    hbit, hothers⟩

/-- Settles O21: the token is its two bytes. -/
theorem matchTokenCompletes : Obligations.MatchTokenCompletes := by
  intro dist len s haccept htok
  obtain ⟨hexec, app⟩ := exec_appends_accepted (i := .lzMatch dist len) rfl haccept
  obtain ⟨hcmd, hrl, hlz⟩ := endToken_appendAll (s := s) (encodeBytes (.lzMatch dist len)) false len 2
  obtain ⟨hbit, hothers⟩ := endToken_appendAll_flags htok (encodeBytes (.lzMatch dist len)) false len 2
  obtain ⟨hlow, hhigh⟩ := toNat_matchBytes dist len
  exact ⟨_, hexec, app.same, app.a, (congrArg BitVec.toNat (app.bytes 0 Nat.two_pos)).trans hlow,
    (congrArg BitVec.toNat (app.bytes 1 Nat.one_lt_two)).trans hhigh, app.kept, hcmd, hrl, hlz,
    hbit, hothers⟩

/-! ### The packets -/

/-- What the end of a packet leaves of the latch and the datapaths, over any run of appends. -/
theorem rlAdvance_appendAll (s : State) (bs : List Byte) (l n : Nat) :
    (rlAdvance l ((s.appendAll bs).countBytes n)).cmd = { s.cmd with cnt := s.cmd.cnt + BitVec.ofNat 32 n } ∧
    (rlAdvance l ((s.appendAll bs).countBytes n)).lz = s.lz ∧
    (rlAdvance l ((s.appendAll bs).countBytes n)).rl = { s.rl with i := s.rl.i + BitVec.ofNat 32 l } := by
  refine ⟨?_, ?_, ?_⟩ <;> simp

/-- Settles O23: the packet is its control byte and its value. -/
theorem runPacketCompletes : Obligations.RunPacketCompletes := by
  intro r v s haccept
  obtain ⟨hexec, app⟩ := exec_appends_accepted (i := .rlRun r v) rfl haccept
  obtain ⟨hcmd, hlz, hrl⟩ := rlAdvance_appendAll s (encodeBytes (.rlRun r v)) r.toNat 2
  exact ⟨_, hexec, app.same, app.a, (congrArg BitVec.toNat (app.bytes 0 Nat.two_pos)).trans (toNat_runControl r),
    app.bytes 1 Nat.one_lt_two, app.kept, hcmd, hlz, hrl⟩

theorem length_encodeBytes_rlLit (bs : List Byte) : (encodeBytes (.rlLit bs)).length = 1 + bs.length := by
  rw [show encodeBytes (.rlLit bs) = literalControl (BitVec.ofNat 7 bs.length) :: bs from rfl, List.length_cons,
    Nat.add_comm]

/-- Settles O24: the packet is its control byte and its bytes, whose number fits in seven bits. -/
theorem literalPacketCompletes : Obligations.LiteralPacketCompletes := by
  intro bs s hwf haccept
  rw [← length_encodeBytes_rlLit] at haccept
  obtain ⟨hexec, app⟩ := exec_appends_accepted (i := .rlLit bs) rfl haccept
  obtain ⟨hcmd, hlz, hrl⟩ := rlAdvance_appendAll s (encodeBytes (.rlLit bs)) bs.length (1 + bs.length)
  have hlen := length_encodeBytes_rlLit bs
  have hcap : bs.length ≤ 127 := by
    simp only [Instr.wellFormed, Bool.and_eq_true, decide_eq_true_eq] at hwf
    exact hwf.2
  have hcontrol : (literalControl (BitVec.ofNat 7 bs.length)).toNat = bs.length := by
    rw [toNat_literalControl, BitVec.toNat_ofNat]
    omega
  have hstream := app.outBytes
  rw [hlen, State.outBytes_add] at hstream
  have ha := app.a
  have hkept := app.kept
  rw [hlen] at ha hkept
  refine ⟨_, hexec, app.same, by omega, ?_, (List.cons.inj hstream).2, hkept, hcmd, hlz, hrl⟩
  exact (congrArg BitVec.toNat (List.cons.inj hstream).1).trans hcontrol

/-! ### A row that completes or fails -/

/-- Settles O25: the run of appends goes through, or stops at its `k`-th byte with `A` there. -/
theorem appendingRowsCompleteOrFail : Obligations.AppendingRowsCompleteOrFail := by
  intro i s hrow ha0
  have hi : Instr.appends i = true := by
    obtain ⟨v, rfl⟩ | ⟨d, l, rfl⟩ | ⟨r, v, rfl⟩ | ⟨bs, rfl⟩ := hrow <;> rfl
  have hcap := s.plat.sinkCapacity.isLt
  have ha := s.a.isLt
  obtain ⟨hexec, hfit⟩ | ⟨t, k, hk, hexec, hfail, hta, hpos, -⟩ := exec_appends_cases hi ha0
  · have app := Appended.afterAppend (s := s) (i := i) (by omega)
    exact ⟨_, hexec, .inl ⟨app.same, app.a, app.outBytes, app.kept⟩⟩
  · refine ⟨t, hexec, .inr ⟨k, hk, hfail, ?_⟩⟩
    rw [hta, BitVec.toNat_add, BitVec.toNat_ofNat]
    obtain rfl | hpos := hpos
    · omega
    · omega

/-! ### The group -/

/-- Settles O29: the placeholder is one accepted append at the position that was cached. -/
theorem openGroupReservesPlaceholder : Obligations.OpenGroupReservesPlaceholder := by
  intro s haccept
  have haccept' : (cachePosition s).acceptsAppends 1 := (State.acceptsAppends_congr rfl rfl rfl rfl).mpr haccept
  have hcache : SameCommand s (cachePosition s) := by constructor <;> rfl
  have app := (Appended.appendAll (s := cachePosition s) (bs := [0])
    (Nat.lt_of_le_of_lt (State.acceptsAppends_fits haccept') s.plat.sinkCapacity.isLt)).of_mem
      (u := clearFlags (((cachePosition s).appendOne 0).countBytes 1)) (by constructor <;> rfl) rfl rfl
  refine ⟨clearFlags (((cachePosition s).appendOne 0).countBytes 1), ?_, hcache.trans app.same, by simp, app.a,
    app.bytes 0 Nat.one_pos, fun x hx => (app.kept x hx).trans (State.byteAt_congr rfl rfl x), by simp, by simp⟩
  rw [lzOpenGroup, sinkAppend_accepted _ haccept'.1]
  rfl

theorem sinkPatch_of_not_below {s : State} {p : Word} (h : s.a.toNat ≤ p.toNat) (v : Byte) :
    sinkPatch p v s = .faulted .patchNotBelowEnd := if_pos h

theorem sinkPatch_accepted {s : State} {p : Word} (hp : p.toNat < s.a.toNat)
    (h : s.sinkRefuses .patch p.toNat = false) (v : Byte) : sinkPatch p v s = .going (s.patchOne p v) := by
  rw [sinkPatch, if_neg (Nat.not_le.mpr hp), if_neg (by rw [h]; decide)]
  rfl

theorem sinkPatch_refused {s : State} {p : Word} (hp : p.toNat < s.a.toNat)
    (h : s.sinkRefuses .patch p.toNat = true) (v : Byte) :
    sinkPatch p v s = .ended (raiseError (.sinkWriteFailure p) s.takeReply) := by
  rw [sinkPatch, if_neg (Nat.not_le.mpr hp), if_pos h]

theorem FailedAt.of_takeReply (s : State) (p : Word) : FailedAt s (raiseError (.sinkWriteFailure p) s.takeReply) p :=
  (raiseError_sinkWriteFailure_failedAt s.takeReply p).from_earlier (.takeReply s)
    fun addr _ => State.byteAt_takeReply s addr

theorem State.outByte_patchOne (s : State) (p : Word) (v : Byte) : (s.patchOne p v).outByte p.toNat = v := by
  rw [State.outByte, State.byteAt_patchOne, State.patchOne_plat, if_pos rfl]

theorem bytesKeptOutside.patchOne (s : State) (p : Word) (v : Byte) :
    bytesKeptOutside s (s.patchOne p v) p.toNat 1 := by
  intro addr haddr
  rw [State.byteAt_patchOne, if_neg (by omega)]

/-- Settles O17: the precondition, and then the platform's answer, decide between the three ends of a patch. -/
theorem patchOverwritesOneByte : Obligations.PatchOverwritesOneByte := by
  intro p v s
  refine ⟨fun hp hrefuse => ?_, fun hp haccept => ?_, fun hp => sinkPatch_of_not_below hp v⟩
  · exact ⟨_, sinkPatch_refused hp hrefuse v, .of_takeReply s p, State.takeReply_a s⟩
  · exact ⟨_, sinkPatch_accepted hp haccept v, State.patchOne_a s p v, State.outByte_patchOne s p v, .patchOne s p v,
      .patchOne s p v, State.patchOne_cmd s p v, State.patchOne_lz s p v, State.patchOne_rl s p v⟩

theorem exec_lzFlag_eq (f : Byte) (s : State) : exec (.lzFlag f) s = ((sinkPatch s.lz.p f s).map closeGroup).outcome :=
  rfl

theorem exec_lzFlag_accepted {s : State} (hp : s.lz.p.toNat < s.a.toNat)
    (h : s.sinkRefuses .patch s.lz.p.toNat = false) (f : Byte) :
    exec (.lzFlag f) s = .next (closeGroup (s.patchOne s.lz.p f)) := by
  rw [exec_lzFlag_eq, sinkPatch_accepted hp h]
  rfl

/-- What the commit leaves where its patch is accepted. -/
theorem closeGroup_patchOne (s : State) (f : Byte) :
    SameCommand s (closeGroup (s.patchOne s.lz.p f)) ∧ (closeGroup (s.patchOne s.lz.p f)).a = s.a ∧
    bytesKeptOutside s (closeGroup (s.patchOne s.lz.p f)) s.lz.p.toNat 1 ∧
    (closeGroup (s.patchOne s.lz.p f)).cmd = s.cmd ∧ (closeGroup (s.patchOne s.lz.p f)).rl = s.rl ∧
    (closeGroup (s.patchOne s.lz.p f)).lz = { s.lz with tok := 0 } :=
  ⟨(SameCommand.patchOne s _ f).trans (.closeGroup _), by simp, bytesKeptOutside.patchOne s s.lz.p f, by simp, by simp,
    by simp⟩

/-- Settles O22: the commit is an accepted patch at `LZ.P`. -/
theorem groupCommitCompletes : Obligations.GroupCommitCompletes := by
  intro f s hp haccept
  obtain ⟨same, ha, hkept, hcmd, hrl, hlz⟩ := closeGroup_patchOne s f
  exact ⟨_, exec_lzFlag_accepted hp haccept f, same, ha, State.outByte_patchOne s s.lz.p f, hkept, hcmd, hrl, hlz⟩

/-- Settles O26: below `A` the patch is accepted or refused, and each leaves its frame. -/
theorem groupCommitFrame : Obligations.GroupCommitFrame := by
  intro f s
  refine ⟨fun hp => ?_, fun hp => ?_⟩
  · rw [exec_lzFlag_eq, sinkPatch_of_not_below hp]
    rfl
  · cases hanswer : s.sinkRefuses .patch s.lz.p.toNat with
    | false =>
      obtain ⟨same, ha, hkept, hcmd, hrl, hlz⟩ := closeGroup_patchOne s f
      exact ⟨_, exec_lzFlag_accepted hp hanswer f, ha, hcmd, hrl, .inl ⟨same, hkept, hlz⟩⟩
    | true =>
      refine ⟨raiseError (.sinkWriteFailure s.lz.p) s.takeReply, ?_, State.takeReply_a s, State.takeReply_cmd s,
        State.takeReply_rl s, .inr ⟨.of_takeReply s _, State.takeReply_lz s⟩⟩
      rw [exec_lzFlag_eq, sinkPatch_refused hp hanswer]
      rfl

/-! ### A failed write -/

/-- Settles O19: the failure makes the command's output range unspecified, in one draw. -/
theorem sinkFailureLeavesOutputUnspecified : Obligations.SinkFailureLeavesOutputUnspecified := by
  intro p s
  refine ⟨rfl, fun addr haddr => ?_, fun q hlo hhi => ?_, rfl⟩
  · exact State.byteAt_loseSpan_outside s (Span.holds_false_iff.mpr haddr)
  · exact State.byteAt_loseSpan_inside s
      (Span.holds_iff.mpr ⟨Nat.add_le_add_left hlo _, Nat.add_lt_add_left hhi _⟩)

end Sys2Proof.Machine
end

section
/-! What each engine selects next (41_lzss.md R177, 42_rle.md R222 to R226): in closed form, and well formed, so that no
never-produced encoding is emitted (30_encoding.md R113). -/

namespace Sys2Proof.Machine

/-! ### The LZSS token -/

theorem lzToken_lzFind_of_short {s : State} (h : (lzFind s).lz.bestLen.toNat < Config.minMatch) :
    lzToken (lzFind s) = .lzLit (s.inByte s.lz.i.toNat) := by
  rw [lzToken, if_pos h, lzFind_lz, LzRegs.find_i]
  rfl

theorem lzToken_lzFind_of_long {s : State} (h : Config.minMatch ≤ (lzFind s).lz.bestLen.toNat) :
    lzToken (lzFind s) = .lzMatch (lzFind s).lz.dist (lzFind s).lz.bestLen := by
  rw [lzToken, if_neg (Nat.not_lt.mpr h)]

/-- At scan position 0 the window is empty, whatever `N` is. -/
theorem lzFind_bestLen_of_first {s : State} (h : s.lz.i = 0) : (lzFind s).lz.bestLen = 0 := by
  have hnone : candidates s.lz.i.toNat = [] := by
    rw [h]
    rfl
  rw [lzFind_lz, LzRegs.find, hnone]
  rfl

/-- Settles O28: the comparison with the minimum match decides, and position 0 has no candidate. -/
theorem firstTokenIsLiteral : Obligations.FirstTokenIsLiteral := by
  intro s
  refine ⟨fun _ => ⟨lzToken_lzFind_of_short, lzToken_lzFind_of_long⟩, fun h0 => ?_⟩
  have hshort : (lzFind s).lz.bestLen.toNat < Config.minMatch := by
    rw [lzFind_bestLen_of_first h0]
    decide
  rw [lzToken_lzFind_of_short hshort, h0]
  rfl

theorem lzToken_wellFormed {s : State} (hscan : s.lz.i.toNat < s.cmd.n.toNat) :
    (lzToken (lzFind s)).wellFormed = true := by
  by_cases hshort : (lzFind s).lz.bestLen.toNat < Config.minMatch
  · rw [lzToken_lzFind_of_short hshort]
    rfl
  · have hlong := Nat.le_of_not_lt hshort
    have hpos : 1 ≤ (lzFind s).lz.bestLen.toNat := Nat.le_trans (by decide) hlong
    obtain ⟨hbest, hdist⟩ := LzRegs.find_best s.inByte s.cmd.n.toNat s.lz hscan
    have hstart : (lzFind s).lz.bestStart.toNat < s.lz.i.toNat := (hbest.best hpos).2.1
    have hdist' : (lzFind s).lz.dist.toNat = s.lz.i.toNat - (lzFind s).lz.bestStart.toNat := hdist hpos
    rw [lzToken_lzFind_of_long hlong]
    simp only [Instr.wellFormed, Bool.and_eq_true, decide_eq_true_eq]
    omega

/-! ### The RLE packet -/

/-- Settles O31: the detector's closed form, which fits in the seven bits of `RL.r`. -/
theorem runDetectorMeasuresTheRun : Obligations.RunDetectorMeasuresTheRun := by
  intro s hscan
  obtain ⟨hpos, -, hrun, hmax⟩ := runLength_facts s.inByte _ _ hscan
  rw [rlMeasure_r s hscan]
  exact ⟨hpos, hrun, hmax, rfl⟩

/-- Settles O32: the span's closed form, which fits in the registers. -/
theorem literalSpanStopsWhereTheRuleSays : Obligations.LiteralSpanStopsWhereTheRuleSays := by
  intro s hscan
  obtain ⟨hlo, hcap, hfits, hinside, hstop⟩ := spanEnd_facts s.inByte _ _ hscan
  obtain ⟨he, hl⟩ := rlScanLit_nat s hscan
  rw [he, hl]
  refine ⟨hlo, hfits, rfl, by omega, fun x hx hx' hrun => ?_, ?_⟩
  · have hnone := hinside x hx hx'
    rw [(triple_iff _ _ _).mpr hrun] at hnone
    exact Bool.false_ne_true hnone.symm
  · rw [← triple_iff]
    exact hstop.imp_left fun h => by omega

theorem rlScanLit_rlMeasure_l {s : State} (hscan : s.rl.i.toNat < s.cmd.n.toNat) :
    (rlScanLit (rlMeasure s)).rl.l.toNat = spanEnd s.inByte s.cmd.n.toNat s.rl.i.toNat - s.rl.i.toNat :=
  (rlScanLit_nat (rlMeasure s) hscan).2

/-- Settles O33: the two cases of packet selection exclude each other by the run of three. -/
theorem runOfThreeIsARunPacket : Obligations.RunOfThreeIsARunPacket := by
  intro s hscan
  obtain ⟨-, -, hrun, -⟩ := runLength_facts s.inByte _ _ hscan
  obtain ⟨hlo, -, hfits, -, -⟩ := spanEnd_facts s.inByte _ _ hscan
  rw [rlScanLit_rlMeasure_l hscan, rlMeasure_r s hscan]
  obtain ⟨hpacket, h3⟩ | ⟨hpacket, h3⟩ := rlPacket_cases s hscan
  · exact ⟨fun _ => ⟨hpacket, hrun⟩, fun h => absurd h3 h⟩
  · exact ⟨fun h => absurd h h3, fun _ => ⟨hpacket, by omega⟩⟩

theorem rlPacket_wellFormed {s : State} (hscan : s.rl.i.toNat < s.cmd.n.toNat) :
    (rlPacket (rlPrepare s)).wellFormed = true := by
  obtain ⟨hpacket, h3⟩ | ⟨hpacket, -⟩ := rlPacket_cases s hscan
  · obtain ⟨-, hcap, -, -⟩ := runLength_facts s.inByte _ _ hscan
    have hlong := (three_le_runLength _ _ _ hscan).mpr h3
    rw [hpacket, Instr.wellFormed, decide_eq_true_eq, BitVec.toNat_ofNat, Nat.mod_eq_of_lt (by omega)]
    exact hlong
  · obtain ⟨hlo, hcap, -, -, -⟩ := spanEnd_facts s.inByte _ _ hscan
    have hmax : Config.runMax = 127 := rfl
    rw [hpacket]
    simp only [Instr.wellFormed, State.inBytes, State.length_bytesFrom, Bool.and_eq_true, decide_eq_true_eq]
    omega

/-! ### The flag byte of a closed group -/

theorem LzFacts.unused_flag_bits {s u : State} {literal : Bool} {st : BitVec 4} {bs : List Byte}
    (facts : LzFacts s u literal st bs) (hz : LzInv s) (htok : u.lz.tok = 0) {j : Nat} (hj : s.lz.tok.toNat + 1 ≤ j)
    (h7 : j ≤ 7) : (u.outByte u.lz.p.toNat).getLsbD (7 - j) = false := by
  have hbyte : u.outByte u.lz.p.toNat = u.lz.flags := by
    rw [State.outByte, facts.within.same.plat]
    exact facts.patched (facts.closesGroup_of_tok_eq_zero htok)
  rw [hbyte, facts.flags_eq, setFlagBit_getLsbD _ hz.tokSmall, if_neg (by omega)]
  exact hz.flagsOpened_unused (by omega) h7

/-- Settles O34: the selected rows are well formed; and a commit leaves the accumulator, which holds 0 for the tokens to
come, at the placeholder. -/
theorem engineRowsAreWellFormed : Obligations.EngineRowsAreWellFormed := by
  refine ⟨fun s => ⟨lzToken_wellFormed, rlPacket_wellFormed⟩, fun s t hinv hbusy hop ht herr htok => ?_⟩
  cases Turn.of_engineStep hinv hbusy ht with
  | fails failed _ =>
    rw [failed.status] at herr
    exact absurd herr.symm Bool.false_ne_true
  | iterates iterates eq =>
    rename_i u
    cases iterates with
    | rle hop' _ => exact absurd (hop.symm.trans hop') (by decide)
    | lzss _ facts =>
      have hlz : t.lz = u.lz := by rw [eq, State.loopControl_eq]
      have hbyte : t.outByte u.lz.p.toNat = u.outByte u.lz.p.toNat := by
        rw [State.outByte, eq, State.loopControl_plat]
        exact State.byteAt_congr (State.loopControl_mem u) (State.loopControl_lost u) _
      rw [hlz] at htok ⊢
      refine ⟨facts.p, fun j hj h7 => ?_⟩
      rw [hbyte]
      exact facts.unused_flag_bits (hinv.lzss hbusy hop) htok hj h7

end Sys2Proof.Machine
end

section
/-! The step, a kind of input at a time: the engine's turn (42_rle.md R220, 41_lzss.md R170), the host's transactions
(30_encoding.md R115, 10_state.md R40), a reset (70_reset_and_hazards.md R310), and the events of commands elsewhere
(R318). -/

namespace Sys2Proof.Machine

/-! ### The engine's turn -/

/-- Settles O35: offset 0 is `CTRL`. -/
theorem stepRunsTheCommandWord : Obligations.StepRunsTheCommandWord := fun s w rest => by
  rw [step_host]
  exact transact_wr_offset .ctrl w _

/-- Settles O37: the turn is the engine's, and it is idle. -/
theorem idleBlockDoesNothing : Obligations.IdleBlockDoesNothing := fun _ hidle hinputs =>
  (step_of_no_inputs hinputs).trans (engineStep_of_idle hidle)

theorem lzCommitIfDue_eq (s : State) :
    lzCommitIfDue s =
      if s.lz.tok = 8 ∨ s.cmd.n.toNat ≤ s.lz.i.toNat then exec (.lzFlag s.lz.flags) s else .next s := by
  simp [lzCommitIfDue, lzGroupEnds]

theorem next_lzLoopControl_eq (s : State) :
    (Host.Outcome.next (lzLoopControl s) : Host.Outcome State Fault Refusal) =
      if s.lz.i.toNat < s.cmd.n.toNat then .next s else .next s.complete := by
  rw [lzLoopControl]
  split <;> rfl

theorem next_rlLoopControl_eq (s : State) :
    (Host.Outcome.next (rlLoopControl s) : Host.Outcome State Fault Refusal) =
      if s.rl.i.toNat < s.cmd.n.toNat then .next s else .next s.complete := by
  rw [rlLoopControl]
  split <;> rfl

/-- Settles O36: the queue decides whose turn it is, and a busy codec's turn is its iteration written out. -/
theorem stepRunsTheEngineRow : Obligations.StepRunsTheEngineRow := by
  intro s u hturn
  obtain ⟨hstep, hstatus, hcmd, hlz, hrl⟩ :
      step s = engineStep u ∧ u.status = s.status ∧ u.cmd = s.cmd ∧ u.lz = s.lz ∧ u.rl = s.rl := by
    obtain ⟨hinputs, rfl⟩ | ⟨rest, hinputs, rfl⟩ := hturn
    · exact ⟨step_of_no_inputs hinputs, rfl, rfl, rfl, rfl⟩
    · exact ⟨by rw [step, hinputs], rfl, rfl, rfl, rfl⟩
  rw [← hstatus, ← hcmd, ← hlz, ← hrl, hstep]
  refine ⟨rfl, engineStep_of_idle, fun hbusy hop hscan => ?_, fun hbusy hop hscan => ?_⟩
  · simp only [← lzCommitIfDue_eq, ← next_lzLoopControl_eq]
    exact engineStep_of_lzss hbusy hop hscan
  · simp only [← next_rlLoopControl_eq]
    exact engineStep_of_rle hbusy hop hscan

/-! ### Register reads and writes -/

/-- A whole-word read at a register's own offset reads that register (10_state.md R33, 20_memory.md R75). -/
theorem transact_rd_offset (r : Reg) (s : State) : transact (.rd r.offset .word) s = .next (readReg r s) := by
  cases r <;> rfl

theorem readReg_of_value {r : Reg} {s : State} (h : s.readDraws r = false) :
    readReg r s = { s with obs := s.obs ++ [.reg r (s.regWord r)] } := by
  simp [readReg, State.afterRead, State.readValue, State.observe, h]

theorem readReg_of_draw {r : Reg} {s : State} (h : s.readDraws r = true) :
    readReg r s = { s with draws := s.draws + 1, obs := s.obs ++ [.reg r (Config.freeWord s.draws)] } := by
  simp [readReg, State.afterRead, State.readValue, State.observe, h]

/-- A register read that stands first, where the register answers its word. -/
theorem step_rd_of_value {r : Reg} {s : State} (h : s.readDraws r = false) (rest : List Input) :
    step { s with inputs := .host (.rd r.offset .word) :: rest } =
      .next { s with inputs := rest, obs := s.obs ++ [.reg r (s.regWord r)] } := by
  rw [step_host, transact_rd_offset, readReg_of_value (s := { s with inputs := rest }) (by cases r <;> exact h)]
  cases r <;> rfl

/-- The same where it answers a free value (log 7). -/
theorem step_rd_of_draw {r : Reg} {s : State} (h : s.readDraws r = true) (rest : List Input) :
    step { s with inputs := .host (.rd r.offset .word) :: rest } =
      .next { s with inputs := rest, draws := s.draws + 1,
                     obs := s.obs ++ [.reg r (Config.freeWord s.draws)] } := by
  rw [step_host, transact_rd_offset, readReg_of_draw (s := { s with inputs := rest }) (by cases r <;> exact h)]

/-- The `STATUS` word with its fields written out (10_state.md R35, 60_exceptions.md R280). -/
theorem Status.word_eq (st : Status) :
    st.word = 0#24 ++ (if st.cause = .none then 0#4 else if st.cause = .sinkWriteFailure then 1#4
      else if st.cause = .illegalCommand then 2#4 else 3#4) ++ 0#1 ++ (if st.err then 1#1 else 0#1) ++
      (if st.done then 1#1 else 0#1) ++ (if st.busy then 1#1 else 0#1) := by
  obtain ⟨busy, done, err, cause⟩ := st
  cases cause <;> rfl

theorem step_wr_of_readOnly {r : Reg} (hr : r = .status ∨ r = .result ∨ r = .errpos) (s : State) (rest : List Input)
    (v : Word) : step { s with inputs := .host (.wr r.offset .word v) :: rest } = .next { s with inputs := rest } := by
  rw [step_host, transact_wr_offset]
  obtain rfl | rfl | rfl := hr <;> rfl

theorem ofOffset_of_reserved {offset : BitVec 8} (h : 0x18 ≤ offset.toNat) : Reg.ofOffset offset = none := by
  rw [Option.eq_none_iff_forall_ne_some]
  intro r hr
  rw [Reg.eq_offset_of_ofOffset hr] at h
  revert h
  cases r <;> decide

theorem atRegister_of_reserved {offset : BitVec 8} (h : 0x18 ≤ offset.toNat) (haligned : offset.toNat % 4 = 0)
    (f : Reg → Host.Outcome State Fault Refusal) : atRegister offset .word f = .refused .reservedOffset := by
  simp [atRegister, accessAligned, haligned, ofOffset_of_reserved h]

/-- Settles O52: an offset is a register's or reserved; `readDraws` says which reads answer the word. -/
theorem registerAccessRules : Obligations.RegisterAccessRules := by
  intro s rest v
  refine ⟨step_rd_of_value (r := .ctrl) rfl rest, ?status, step_rd_of_value (r := .len) rfl rest, ?idle, ?busy,
    ?readOnly, ?reserved⟩
  case status =>
    rw [← Status.word_eq]
    exact step_rd_of_value (r := .status) rfl rest
  case idle =>
    intro hidle
    refine ⟨step_rd_of_value (r := .a) hidle rest, step_rd_of_value (r := .errpos) hidle rest, fun hopen => ?_,
      fun hopen => ?_⟩
    · exact step_rd_of_value (r := .result) (by simp [State.readDraws, hidle, hopen]) rest
    · exact step_rd_of_draw (r := .result) (by simp [State.readDraws, hopen]) rest
  case busy =>
    intro hbusy offset r hoffset hr
    rw [Reg.eq_offset_of_ofOffset hoffset]
    refine step_rd_of_draw ?_ rest
    obtain rfl | rfl | rfl := hr <;> simp [State.readDraws, hbusy]
  case readOnly =>
    intro offset r hoffset hr
    rw [Reg.eq_offset_of_ofOffset hoffset]
    exact step_wr_of_readOnly hr s rest v
  case reserved =>
    intro offset hge haligned
    exact ⟨atRegister_of_reserved hge haligned _, atRegister_of_reserved hge haligned _⟩

/-- Settles O54: the two registers that only store, while nothing runs. -/
theorem lenAndAWritesOnlyStore : Obligations.LenAndAWritesOnlyStore := by
  intro s rest v hidle
  have hnot : ¬ ({ s with inputs := rest } : State).status.busy = true := Bool.eq_false_iff.mp hidle
  rw [step_host, step_host]
  exact ⟨(transact_wr_offset .len v _).trans (if_neg hnot), (transact_wr_offset .a v _).trans (if_neg hnot)⟩

/-- Settles O60: each register's word after reset, by evaluation. -/
theorem registersReadZeroAfterReset : Obligations.RegistersReadZeroAfterReset := by
  refine ⟨?_, ?_, ?_, ?_, ?_, ?_⟩ <;> rfl

/-- Settles O58: the poll is a read of `STATUS`, whose `BUSY` bit decides whether another turn and poll follow. -/
theorem waitPollsUntilIdle : Obligations.WaitPollsUntilIdle := by
  rintro s rest _ rfl
  have hread : readReg .status { s with inputs := rest } =
      { s with inputs := rest, obs := s.obs ++ [.reg .status s.status.word] } := readReg_of_value rfl
  refine ⟨fun hidle => ?_, fun hbusy => ?_⟩
  · rw [step_host, transact, waitPoll, if_neg (Bool.eq_false_iff.mp hidle), hread, Status.word_eq, hidle]
    rfl
  · rw [step_host, transact, waitPoll, if_pos hbusy, hread, Status.word_eq, hbusy]
    rfl

/-! ### Byte accesses while idle -/

/-- A run of writes reads back. -/
theorem State.bytesFrom_writeBytes (s : State) (addr : Nat) (bytes : List Byte) :
    (s.writeBytes addr bytes).bytesFrom addr bytes.length = bytes := by
  refine List.ext_getElem? fun j => ?_
  by_cases hj : j < bytes.length
  · rw [State.getElem?_bytesFrom _ hj, State.byteAt_writeBytes_inside s bytes hj, List.getElem?_eq_getElem hj]
  · have hge := Nat.le_of_not_lt hj
    rw [List.getElem?_eq_none hge, List.getElem?_eq_none (by rwa [State.length_bytesFrom])]

theorem fillBytes_of_idle {s : State} {space : Space} {k : Nat} {bytes : List Byte} (hidle : s.status.busy = false)
    (hfits : k + bytes.length ≤ s.sizeOf space) :
    fillBytes space k bytes s = .next (s.writeBytes (s.baseOf space + k) bytes) := by
  simp [fillBytes, State.exists?_of_le hfits, hidle]

theorem dumpBytes_of_idle {s : State} {space : Space} {k n : Nat} (hidle : s.status.busy = false)
    (hfits : k + n ≤ s.sizeOf space) :
    dumpBytes space k n s = .next (s.observe (.bytes space k (s.bytesFrom (s.baseOf space + k) n))) := by
  simp [dumpBytes, State.exists?_of_le hfits, hidle]

/-- Settles O57: past the test that the bytes exist, an idle block refuses nothing. -/
theorem fillAndDumpWhileIdle : Obligations.FillAndDumpWhileIdle := by
  intro s rest k n bytes hidle
  refine ⟨fun hfits => ?_, fun hfits => ?_⟩
  · have heq := State.writeBytes_eq { s with inputs := rest } (s.plat.inBase + k) bytes
    refine ⟨_, fillBytes_of_idle (s := { s with inputs := rest }) hidle hfits, ?_,
      fun addr haddr => State.byteAt_writeBytes_outside _ bytes haddr, heq⟩
    have hbase : (({ s with inputs := rest } : State).writeBytes (s.plat.inBase + k) bytes).plat.inBase =
        s.plat.inBase := by rw [heq]
    exact (congrArg (fun base => State.bytesFrom _ (base + k) bytes.length) hbase).trans
      (State.bytesFrom_writeBytes _ _ bytes)
  · have hread : ({ s with inputs := rest } : State).bytesFrom (s.plat.outBase + k) n = s.outBytes k n :=
      State.bytesFrom_congr fun _ _ _ => rfl
    refine (dumpBytes_of_idle (s := { s with inputs := rest }) hidle hfits).trans ?_
    rw [State.baseOf, hread]
    rfl

/-! ### Reset -/

theorem resetInput_byteAt_inside {s : State} (hbusy : s.status.busy = true) {addr : Nat}
    (h : s.heldOutput.holds addr = true) : (resetInput s).byteAt addr = Config.freeByte (s.draws + 1) addr := by
  have hbyte : (resetInput s).byteAt addr = s.abandonCommand.byteAt addr := State.byteAt_congr rfl rfl addr
  rw [hbyte, State.abandonCommand, if_pos hbusy]
  exact State.byteAt_loseSpan_inside s h

theorem readValue_resetInput (s : State) (r : Reg) : (resetInput s).readValue r = 0 := by
  cases r with
  | ctrl => simp [State.readValue, State.readDraws, State.regWord, State.ctrlWord, resetInput]
  | status =>
    have hword : Status.idle.word = 0 := by decide
    exact hword
  | len | a | result | errpos => rfl

/-- Settles O59: the six registers are set, and an abandoned command's output range is lost in one draw. -/
theorem resetInputClearsTheRegisters : Obligations.ResetInputClearsTheRegisters := by
  intro s rest
  obtain ⟨hidle, houtside⟩ := resetInput_bytes (s.dequeued rest)
  refine ⟨resetInput (s.dequeued rest), rfl, readValue_resetInput _, rfl, State.abandonCommand_plat _,
    State.abandonCommand_others _, State.abandonCommand_inputs _, State.abandonCommand_obs _, hidle,
    fun hbusy => ⟨houtside, fun q hlo hhi => ?_⟩⟩
  have hplat : (resetInput (s.dequeued rest)).plat = s.plat := State.abandonCommand_plat _
  rw [State.outByte, hplat]
  exact resetInput_byteAt_inside (s := s.dequeued rest) hbusy (heldOutput_holds_iff.mpr ⟨hlo, hhi⟩)

/-! ### Commands elsewhere -/

/-- What `rangeHeld` decides, in positions (20_memory.md R87). -/
theorem rangeHeld_iff {s : State} {p : Config.Span} :
    s.rangeHeld p = true ↔
      (∃ o ∈ s.others, ∃ x, o.range.lo ≤ x ∧ x < o.range.hi ∧ p.lo ≤ x ∧ x < p.hi) ∨
      (s.status.busy = true ∧ ∃ x, s.cmd.a0.toNat ≤ x ∧ x < s.plat.sinkCapacity.toNat ∧ p.lo ≤ x ∧ x < p.hi) := by
  simp only [State.rangeHeld, Bool.or_eq_true, Bool.and_eq_true, List.any_eq_true, Span.overlaps_iff, Span.holds_iff,
    State.sinkRange, and_assoc]

/-- The tests of a start at an existing and idle block elsewhere. -/
theorem startOther_of_exists {s : State} {n : Nat} (hn : 1 ≤ n) (hn' : n < s.plat.instances)
    (hidle : ∀ o ∈ s.others, o.number ≠ n) (p : Config.Span) :
    startOther n p s =
      if s.rangeHeld p then .refused .sharedSink
      else if s.status.busy && s.rangeMeetsInput p s.cmd.n.toNat then .refused .overlappingSpaces
      else .next { s with others := { number := n, range := p } :: s.others } := by
  have hexists : (n = 0 || s.plat.instances ≤ n : Bool) = false := by
    simp only [Bool.or_eq_false_iff, decide_eq_false_iff_not]
    omega
  have hruns : s.otherRuns n = false :=
    List.any_eq_false.mpr fun o ho => by simpa using hidle o ho
  rw [startOther, hexists, hruns]
  rfl

theorem turnOther_eq (n : Nat) (s : State) :
    turnOther n s =
      { s with mem := (turnOther n s).mem, lost := (turnOther n s).lost, draws := (turnOther n s).draws } := by
  unfold turnOther
  split <;> rfl

theorem rangeSpan_holds_iff {s : State} {p : Config.Span} {q : Nat} :
    (s.rangeSpan p).holds (s.plat.outBase + q) = true ↔ p.lo ≤ q ∧ q < p.hi ∧ q < s.plat.sinkCapacity.toNat := by
  simp only [State.rangeSpan, Span.holds_iff]
  omega

/-- The command here and those elsewhere hold no position together (70_reset_and_hazards.md R318). -/
theorem turnOther_outByte {s : State} (hc : CommandInv s) (n : Nat) {q : Nat} (hlo : s.cmd.a0.toNat ≤ q)
    (hhi : q < s.plat.sinkCapacity.toNat) : (turnOther n s).outByte q = s.outByte q := by
  rw [State.outByte, turnOther_plat]
  refine turnOther_bytes n s _ fun o ho _ => ?_
  by_contra hheld
  obtain ⟨hlo', hhi', -⟩ := rangeSpan_holds_iff.mp (Bool.eq_true_of_not_eq_false hheld)
  exact List.any_eq_false.mp hc.unshared o ho
    (Span.overlaps_iff.mpr ⟨q, Span.holds_iff.mpr ⟨hlo', hhi'⟩, Span.holds_iff.mpr ⟨hlo, hhi⟩⟩)

/-- No two commands elsewhere have one number (40_commands.md R149). -/
theorem OthersInv.find?_number {s : State} (h : OthersInv s) {o : Other} (ho : o ∈ s.others) :
    s.others.find? (fun o' => o'.number = o.number) = some o := by
  have hdistinct : (s.others.map Other.number).Nodup := List.pairwise_map.mpr (h.apart.imp And.left)
  cases hfind : s.others.find? (fun o' => o'.number = o.number) with
  | none => exact absurd (List.find?_eq_none.mp hfind o ho) (by simp)
  | some o' =>
    have hnumber : o'.number = o.number := by simpa using List.find?_some hfind
    rw [List.inj_on_of_nodup_map hdistinct (List.mem_of_find?_eq_some hfind) ho hnumber]

theorem turnOther_outByte_inside {s : State} (h : OthersInv s) {o : Other} (ho : o ∈ s.others) {q : Nat}
    (hlo : o.range.lo ≤ q) (hhi : q < o.range.hi) (hcap : q < s.plat.sinkCapacity.toNat) :
    (turnOther o.number s).outByte q = Config.freeByte (s.draws + 1) (s.plat.outBase + q) := by
  rw [State.outByte, turnOther_plat, turnOther, h.find?_number ho]
  exact State.byteAt_loseSpan_inside s (rangeSpan_holds_iff.mpr ⟨hlo, hhi, hcap⟩)

/-- Settles O14: a start's tests in positions and addresses; a turn loses its own range, which is apart from the command
here; an end removes the command. -/
theorem otherInstancesHoldTheirRanges : Obligations.OtherInstancesHoldTheirRanges := by
  intro s rest n p
  have hstart (hn : 1 ≤ n) (hn' : n < s.plat.instances) (hidle : ∀ o ∈ s.others, o.number ≠ n) :
      step { s with inputs := .other (.start n p) :: rest } = _ :=
    startOther_of_exists (s := s.dequeued rest) hn hn' hidle p
  refine ⟨fun hn hn' hidle => ⟨fun hfree hfreeHere hclear => ?accepted, fun hheld => ?held, fun hbusy hmeets => ?meets⟩,
    ⟨turnOther n (s.dequeued rest), rfl, turnOther_eq n _, fun addr haddr => ?outside, fun hinv hbusy => ?command,
      fun hinv o ho hnumber q hlo hhi hcap => ?inside⟩,
    ⟨stopOther n (s.dequeued rest), rfl, rfl, fun o => ?stopped⟩⟩
  case accepted =>
    have hheld : ¬ (s.dequeued rest).rangeHeld p = true := fun h =>
      (rangeHeld_iff.mp h).elim hfree fun ⟨hbusy, hx⟩ => hfreeHere hbusy hx
    have hmeets : ¬ (s.status.busy && (s.dequeued rest).rangeMeetsInput p s.cmd.n.toNat) = true := fun h => by
      obtain ⟨hbusy, hx⟩ := Bool.and_eq_true_iff.mp h
      exact hclear hbusy (rangeMeetsInput_iff.mp hx)
    rw [hstart hn hn' hidle, if_neg hheld]
    exact if_neg hmeets
  case held =>
    rw [hstart hn hn' hidle]
    exact if_pos (rangeHeld_iff.mpr hheld)
  case meets =>
    have hmeets' : (s.status.busy && (s.dequeued rest).rangeMeetsInput p s.cmd.n.toNat) = true :=
      Bool.and_eq_true_iff.mpr ⟨hbusy, rangeMeetsInput_iff.mpr hmeets⟩
    rw [hstart hn hn' hidle]
    split
    · exact ⟨_, rfl, .inl rfl⟩
    · exact ⟨_, if_pos hmeets', .inr rfl⟩
  case outside =>
    exact turnOther_bytes n (s.dequeued rest) addr fun o ho hnumber => Span.holds_false_iff.mpr (haddr o ho hnumber)
  case command =>
    have hc := (hinv.dequeued rest).command hbusy
    exact ⟨fun q hlo hhi => turnOther_outByte hc n hlo hhi, fun k hk => turnOther_inByte hc.inputAlone hk⟩
  case inside =>
    subst hnumber
    exact turnOther_outByte_inside (hinv.dequeued rest).others ho hlo hhi hcap
  case stopped =>
    rw [stopOther_others, List.mem_filter, decide_eq_true_eq]
    rfl

end Sys2Proof.Machine
end
